-- ==== Sys2Proof/Word.lean ====
section
/-! DEFINITION. The word types of the machine: bytes, 64-bit words, vector-register words. -/

namespace Sys2Proof

/-- A memory byte (R36). -/
abbrev Byte := BitVec 8

/-- A 64-bit word: a general register, the instruction pointer, a linear address (R25, R26, R36). -/
abbrev Word := BitVec 64

/-- The storage of one vector register: 512 bits, of which the low MAXVL exist (R6, R15). -/
abbrev Vec := BitVec 512

end Sys2Proof
end

