-- ==== Sys2Proof/Config.lean ====
section
/-! DEFINITION. The constants of a run (R7): what the spec leaves to the implementation and to the execution environment,
as plain data. A state carries one `Config`, and no step changes it (log 1). What is computed from these
constants (MAXVL, KW, Accessible) stands in Machine/Ops.lean. -/

namespace Sys2Proof

/-- FEATURES: the CPUID feature flags present (R3, R7). -/
structure Features where
  sse41 : Bool
  avx : Bool
  avx2 : Bool
  avx512f : Bool
  avx512vl : Bool
  avx512dq : Bool
deriving DecidableEq, Repr

/-- The three register widths R6 admits for MAXVL. -/
inductive RegWidth
  | w128
  | w256
  | w512
deriving DecidableEq, Repr

/-- The page-fault code bits that depend on the environment: P (bit 0), U/S (bit 2), RSVD (bit 3), PK (bit 5).
W/R (bit 1) and I/D (bit 4) are 0 for these forms (R114). -/
structure PfBits where
  p : Bool
  us : Bool
  rsvd : Bool
  pk : Bool
deriving DecidableEq, Repr

/-- Why the environment does not admit an address range as ordinary memory. -/
inductive RegionKind
  /-- translation or page permissions fail: a read reports #PF with these code bits (R50, R119) -/
  | pageFault (code : PfBits)
  /-- device memory, whose reads may have side effects: a read is refused (R48, U15) -/
  | device
deriving DecidableEq, Repr

/-- An address range that is not ordinary memory: `size` bytes from `base`. -/
structure Region where
  base : Nat
  size : Nat
  kind : RegionKind
deriving DecidableEq, Repr

/-- The constants of a run (R7). -/
structure Config where
  /-- FEATURES -/
  features : Features
  /-- the implementer's choice from which MAXVL follows (R6, D2) -/
  baseWidth : RegWidth
  /-- KW - 16, so that KW is 16 to 64 (R7, D6) -/
  kwAbove16 : Fin 49
  /-- FAULT_SUPPRESSION (R40, D11) -/
  faultSuppression : Bool
  /-- the ranges that are not ordinary admitted memory (R42, D12) -/
  regions : List Region
deriving DecidableEq, Repr

end Sys2Proof
end

