-- ==== Sys2Proof/Syntax.lean ====
section
/-! DEFINITION. The decoded instruction of R56: one constructor per row of the opcode table (R78), with
its operands as the encoding gives them (R62, R65, R69, R74). -/

namespace Sys2Proof

/-- A vector register number: 0 to 31 in an EVEX form, 0 to 15 in a legacy or VEX form (R16). -/
abbrev VReg := BitVec 5

/-- An opmask register number; 0 is never a write mask (R23, R72). -/
abbrev KReg := BitVec 3

/-- A general register number, in the order of R25: 4 is RSP, 5 is RBP. -/
abbrev Gpr := BitVec 4

/-- The SIB scale field: the index register is shifted left by 0 to 3 bits (R74, R75). -/
inductive Scale
  | x1
  | x2
  | x4
  | x8
deriving DecidableEq, Repr

/-- An index register with its scale (R75); RSP cannot be one. -/
structure Index where
  reg : Gpr
  scale : Scale
deriving DecidableEq, Repr

/-- The displacement as it stands in the instruction, before scaling and sign extension (R74, R76). -/
inductive Disp
  /-- no displacement byte (mod 00) -/
  | none
  /-- one byte (mod 01), scaled by N of R76 -/
  | d8 (d : BitVec 8)
  /-- four bytes (mod 10), never scaled -/
  | d32 (d : BitVec 32)
deriving DecidableEq, Repr

/-- A memory operand: the four address shapes of R75. -/
inductive MemOp
  /-- ModRM alone: base register and displacement -/
  | base (b : Gpr) (d : Disp)
  /-- mod 00, rm 101: relative to the end of the instruction -/
  | rip (d : BitVec 32)
  /-- SIB with a base register; `ix = none` is index number 0100 -/
  | sib (b : Gpr) (ix : Option Index) (d : Disp)
  /-- SIB with base 101 and mod 00: no base register -/
  | sibNoBase (ix : Option Index) (d : BitVec 32)
deriving DecidableEq, Repr

/-- The last source operand, "ModRM:r/m": a vector register or memory (R35, R56). -/
inductive Src2
  | reg (n : VReg)
  | mem (m : MemOp)
deriving DecidableEq, Repr

/-- Operands of the legacy form (Op/En RM): the destination is also the first source (R12, R17). -/
structure LegacyOps where
  dest : VReg
  src2 : Src2
deriving DecidableEq, Repr

/-- Operands of a VEX form (Op/En RVM, R12, R90). -/
structure VexOps where
  dest : VReg
  src1 : VReg
  src2 : Src2
deriving DecidableEq, Repr

/-- Operands of an EVEX form (Op/En FV, R12, R95). `bcst` is EVEX.b, `mask = none` is "no writemask",
`zeroing` is EVEX.z (R71, R72, R73). -/
structure EvexOps where
  dest : VReg
  src1 : VReg
  src2 : Src2
  bcst : Bool
  mask : Option KReg
  zeroing : Bool
deriving DecidableEq, Repr

/-- The instructions: one constructor per row of the opcode table (R78; the legacy form has two rows, without and
with a REX byte, because the two differ in length). -/
inductive Instr
  /-- PMULLD xmm1, xmm2/m128 without REX (R87) -/
  | pmulld (o : LegacyOps)
  /-- PMULLD xmm1, xmm2/m128 with REX (R87) -/
  | pmulldRex (o : LegacyOps)
  /-- VPMULLD xmm1, xmm2, xmm3/m128, VEX.128 (R91) -/
  | vpmulldVex128 (o : VexOps)
  /-- VPMULLD ymm1, ymm2, ymm3/m256, VEX.256 (R92) -/
  | vpmulldVex256 (o : VexOps)
  /-- VPMULLD xmm1 k1 z, xmm2, xmm3/m128/m32bcst, EVEX.128 (R101) -/
  | vpmulldEvex128 (o : EvexOps)
  /-- VPMULLD ymm1 k1 z, ymm2, ymm3/m256/m32bcst, EVEX.256 (R102) -/
  | vpmulldEvex256 (o : EvexOps)
  /-- VPMULLD zmm1 k1 z, zmm2, zmm3/m512/m32bcst, EVEX.512 (R103) -/
  | vpmulldEvex512 (o : EvexOps)
  /-- VPMULLQ xmm1 k1 z, xmm2, xmm3/m128/m64bcst, EVEX.128 (R107) -/
  | vpmullqEvex128 (o : EvexOps)
  /-- VPMULLQ ymm1 k1 z, ymm2, ymm3/m256/m64bcst, EVEX.256 (R108) -/
  | vpmullqEvex256 (o : EvexOps)
  /-- VPMULLQ zmm1 k1 z, zmm2, zmm3/m512/m64bcst, EVEX.512 (R109) -/
  | vpmullqEvex512 (o : EvexOps)
deriving DecidableEq, Repr

/-- The three encoding kinds (R57). -/
inductive Kind
  | legacy
  | vex
  | evex
deriving DecidableEq, Repr

/-- The nine instruction forms (R2, R78). -/
inductive Form
  | pmulld
  | vpmulldVex128
  | vpmulldVex256
  | vpmulldEvex128
  | vpmulldEvex256
  | vpmulldEvex512
  | vpmullqEvex128
  | vpmullqEvex256
  | vpmullqEvex512
deriving DecidableEq, Repr

end Sys2Proof
end

