-- ==== Sys2Proof/WellFormed.lean ====
section
/-! DEFINITION. Which instructions an encoding can express (R16, R23, R62, R65, R69, R72, R74). The reserved EVEX combinations
(z with no mask, b with a register) ARE expressible: they match a row and raise #UD when executed (R117). -/

namespace Sys2Proof

/-- RSP (number 4) is not an index register: 0100 means no index (R75). Without a REX byte the number is below 8. -/
def Index.wellFormed (gprLimit : Nat) (ix : Index) : Bool :=
  ix.reg != 4#4 && decide (ix.reg.toNat < gprLimit)

/-- An absent index is expressible; a present one as `Index.wellFormed` says. -/
def indexWellFormed (gprLimit : Nat) : Option Index → Bool
  | none => true
  | some ix => ix.wellFormed gprLimit

/-- With mod 00 the low base bits 101 select another address shape, so a base register with those bits needs a
displacement (R74, R75). -/
def dispWellFormed (b : Gpr) : Disp → Bool
  | .none => b.extractLsb' 0 3 != 5#3
  | .d8 _ => true
  | .d32 _ => true

/-- A memory operand ModRM and SIB can express with general register numbers below `gprLimit` (R74, R75). -/
def MemOp.wellFormed (gprLimit : Nat) : MemOp → Bool
  | .base b d => b.extractLsb' 0 3 != 4#3 && dispWellFormed b d && decide (b.toNat < gprLimit)
  | .rip _ => true
  | .sib b ix d => indexWellFormed gprLimit ix && dispWellFormed b d && decide (b.toNat < gprLimit)
  | .sibNoBase ix _ => indexWellFormed gprLimit ix

/-- A last source operand with vector register numbers below `vregLimit` (R16). -/
def Src2.wellFormed (vregLimit gprLimit : Nat) : Src2 → Bool
  | .reg n => decide (n.toNat < vregLimit)
  | .mem m => m.wellFormed gprLimit

/-- Legacy operands with register numbers below `limit`: 8 without a REX byte, 16 with one (R62). -/
def LegacyOps.wellFormed (limit : Nat) (o : LegacyOps) : Bool :=
  decide (o.dest.toNat < limit) && o.src2.wellFormed limit limit

/-- VEX operands: every register number is 0 to 15 (R65). -/
def VexOps.wellFormed (o : VexOps) : Bool :=
  decide (o.dest.toNat < 16) && decide (o.src1.toNat < 16) && o.src2.wellFormed 16 16

/-- EVEX operands: vector registers 0 to 31, general registers 0 to 15, and k0 is no write mask (R69, R72). -/
def EvexOps.wellFormed (o : EvexOps) : Bool :=
  o.src2.wellFormed 32 16 && o.mask != some 0#3

/-- An instruction that some byte sequence of the opcode table encodes. -/
def Instr.wellFormed : Instr → Bool
  | .pmulld o => o.wellFormed 8
  | .pmulldRex o => o.wellFormed 16
  | .vpmulldVex128 o => o.wellFormed
  | .vpmulldVex256 o => o.wellFormed
  | .vpmulldEvex128 o => o.wellFormed
  | .vpmulldEvex256 o => o.wellFormed
  | .vpmulldEvex512 o => o.wellFormed
  | .vpmullqEvex128 o => o.wellFormed
  | .vpmullqEvex256 o => o.wellFormed
  | .vpmullqEvex512 o => o.wellFormed

end Sys2Proof
end

