-- ==== Sys2Proof/Decode.lean ====
section
/-! DEFINITION. From bytes to instructions (R57 to R81), total on any bytes, and from instructions back to bytes. The ten
rows are spec/opcode_table.json's patterns; everything that is not one of them is #UD (R79, R80) or rejected by name (R81). -/

namespace Sys2Proof

/-! ## The opcode table -/

/-- The ten rows of the opcode table (R78). -/
inductive Row
  | legacy
  | legacyRex
  | vex128
  | vex256
  | evexD128
  | evexD256
  | evexD512
  | evexQ128
  | evexQ256
  | evexQ512
deriving DecidableEq, Repr

/-- The rows in the table's order. -/
def Row.all : List Row :=
  [.legacy, .legacyRex, .vex128, .vex256, .evexD128, .evexD256, .evexD512, .evexQ128, .evexQ256, .evexQ512]

/-- Which bits of the leading bytes a row fixes ("mask" of the table). -/
def Row.mask : Row → List Byte
  | .legacy => [0xFF, 0xFF, 0xFF, 0xFF]
  | .legacyRex => [0xFF, 0xF0, 0xFF, 0xFF, 0xFF]
  | .vex128 | .vex256 => [0xFF, 0x1F, 0x07, 0xFF]
  | .evexD128 | .evexD256 | .evexD512 | .evexQ128 | .evexQ256 | .evexQ512 => [0xFF, 0x0F, 0x87, 0x60, 0xFF]

/-- The values of those bits ("match" of the table). -/
def Row.pattern : Row → List Byte
  | .legacy => [0x66, 0x0F, 0x38, 0x40]
  | .legacyRex => [0x66, 0x40, 0x0F, 0x38, 0x40]
  | .vex128 => [0xC4, 0x02, 0x01, 0x40]
  | .vex256 => [0xC4, 0x02, 0x05, 0x40]
  | .evexD128 => [0x62, 0x02, 0x05, 0x00, 0x40]
  | .evexD256 => [0x62, 0x02, 0x05, 0x20, 0x40]
  | .evexD512 => [0x62, 0x02, 0x05, 0x40, 0x40]
  | .evexQ128 => [0x62, 0x02, 0x85, 0x00, 0x40]
  | .evexQ256 => [0x62, 0x02, 0x85, 0x20, 0x40]
  | .evexQ512 => [0x62, 0x02, 0x85, 0x40, 0x40]

/-- `(bytes AND mask) = pattern` over the leading bytes (R78); too few bytes do not match. -/
def matchBits : List Byte → List Byte → List Byte → Bool
  | m :: ms, p :: ps, b :: bs => (b &&& m == p) && matchBits ms ps bs
  | [], [], _ => true
  | _, _, _ => false

/-- The bytes match the row. -/
def Row.fits (r : Row) (bs : List Byte) : Bool := matchBits r.mask r.pattern bs

/-- The row the bytes match, if any. -/
def matchRow (bs : List Byte) : Option Row := Row.all.find? (·.fits bs)

/-- The encoding kind of a row. -/
def Row.kind : Row → Kind
  | .legacy | .legacyRex => .legacy
  | .vex128 | .vex256 => .vex
  | .evexD128 | .evexD256 | .evexD512 | .evexQ128 | .evexQ256 | .evexQ512 => .evex

/-! ## ModRM, SIB and displacement (R74) -/

/-- Two bits of SIB select the scale. -/
def Scale.ofBits (b : BitVec 2) : Scale :=
  if b = 0#2 then .x1 else if b = 1#2 then .x2 else if b = 2#2 then .x4 else .x8

/-- The SIB scale bits, which are also the shift amount of R75. -/
def Scale.bits : Scale → BitVec 2
  | .x1 => 0#2
  | .x2 => 1#2
  | .x4 => 2#2
  | .x8 => 3#2

/-- A 1-byte displacement and the bytes after it. -/
def takeDisp8 : List Byte → Option (BitVec 8 × List Byte)
  | b :: bs => some (b, bs)
  | [] => none

/-- A 4-byte little-endian displacement and the bytes after it. -/
def takeDisp32 : List Byte → Option (BitVec 32 × List Byte)
  | b0 :: b1 :: b2 :: b3 :: bs => some (b3 ++ (b2 ++ (b1 ++ b0)), bs)
  | _ => none

/-- The displacement mod 00, 01 or 10 announces. -/
def decodeDisp (mod : BitVec 2) (bs : List Byte) : Option (Disp × List Byte) :=
  if mod = 0#2 then some (.none, bs)
  else if mod = 1#2 then (takeDisp8 bs).map fun r => (.d8 r.1, r.2)
  else (takeDisp32 bs).map fun r => (.d32 r.1, r.2)

/-- The index register of a SIB byte, extended by `x`; number 0100 means none (R75). -/
def decodeIndex (x : Bool) (sib : Byte) : Option Index :=
  if BitVec.ofBool x ++ sib.extractLsb' 3 3 = 4#4 then none
  else some ⟨BitVec.ofBool x ++ sib.extractLsb' 3 3, Scale.ofBits (sib.extractLsb' 6 2)⟩

/-- The address a SIB byte gives, with `x` and `b` the extension bits (R75). -/
def decodeSib (x b : Bool) (mod : BitVec 2) (sib : Byte) (bs : List Byte) : Option (MemOp × List Byte) :=
  if sib.extractLsb' 0 3 = 5#3 ∧ mod = 0#2 then
    (takeDisp32 bs).map fun r => (.sibNoBase (decodeIndex x sib) r.1, r.2)
  else
    (decodeDisp mod bs).map fun r =>
      (.sib (BitVec.ofBool b ++ sib.extractLsb' 0 3) (decodeIndex x sib) r.1, r.2)

/-- The memory operand of a ModRM byte with mod not 11 (R74, R75). -/
def decodeMem (x b : Bool) (mod : BitVec 2) (rm : BitVec 3) (bs : List Byte) : Option (MemOp × List Byte) :=
  if rm = 4#3 then
    match bs with
    | sib :: rest => decodeSib x b mod sib rest
    | [] => none
  else if rm = 5#3 ∧ mod = 0#2 then (takeDisp32 bs).map fun r => (.rip r.1, r.2)
  else (decodeDisp mod bs).map fun r => (.base (BitVec.ofBool b ++ rm) r.1, r.2)

/-- The last source operand. `hi` is bit 4 of a register operand's number: 0 for legacy and VEX (R62, R65), X for
EVEX (R69). -/
def decodeSrc2 (hi x b : Bool) (modrm : Byte) (bs : List Byte) : Option (Src2 × List Byte) :=
  if modrm.extractLsb' 6 2 = 3#2 then
    some (.reg (BitVec.ofBool hi ++ (BitVec.ofBool b ++ modrm.extractLsb' 0 3)), bs)
  else
    (decodeMem x b (modrm.extractLsb' 6 2) (modrm.extractLsb' 0 3) bs).map fun r => (.mem r.1, r.2)

/-! ## The three kinds (R61, R64, R68) -/

/-- ModRM.reg with its extension bits: `hi` is bit 4, `r` bit 3 (R62, R65, R69). -/
def regNumber (hi r : Bool) (modrm : Byte) : VReg :=
  BitVec.ofBool hi ++ (BitVec.ofBool r ++ modrm.extractLsb' 3 3)

/-- Legacy operands from the REX bits (not inverted), ModRM and what follows (R62). -/
def decodeLegacyOps (r x b : Bool) (modrm : Byte) (bs : List Byte) : Option (LegacyOps × List Byte) :=
  (decodeSrc2 false x b modrm bs).map fun s => (⟨regNumber false r modrm, s.1⟩, s.2)

/-- VEX operands from VEX bytes 1 and 2 (R, X, B, vvvv stored inverted), ModRM and what follows (R64, R65). W is not
looked at (R66). -/
def decodeVexOps (b1 b2 modrm : Byte) (bs : List Byte) : Option (VexOps × List Byte) :=
  (decodeSrc2 false (!b1.getLsbD 6) (!b1.getLsbD 5) modrm bs).map fun s =>
    (⟨regNumber false (!b1.getLsbD 7) modrm, BitVec.ofBool false ++ ~~~(b2.extractLsb' 3 4), s.1⟩, s.2)

/-- aaa = 000 means no write mask (R72). -/
def decodeMask (aaa : BitVec 3) : Option KReg := if aaa = 0#3 then none else some aaa

/-- EVEX operands from P0, P1, P2 (R, X, B, Rh, vvvv, Vh stored inverted), ModRM and what follows (R68, R69). -/
def decodeEvexOps (p0 p1 p2 modrm : Byte) (bs : List Byte) : Option (EvexOps × List Byte) :=
  (decodeSrc2 (!p0.getLsbD 6) (!p0.getLsbD 6) (!p0.getLsbD 5) modrm bs).map fun s =>
    ({ dest := regNumber (!p0.getLsbD 4) (!p0.getLsbD 7) modrm
       src1 := BitVec.ofBool (!p2.getLsbD 3) ++ ~~~(p1.extractLsb' 3 4)
       src2 := s.1
       bcst := p2.getLsbD 4
       mask := decodeMask (p2.extractLsb' 0 3)
       zeroing := p2.getLsbD 7 }, s.2)

/-- A legacy row without REX: 66 0F 38 40 ModRM (R61). -/
def decodeLegacyRow : List Byte → Option (Instr × List Byte)
  | _ :: _ :: _ :: _ :: modrm :: bs =>
    (decodeLegacyOps false false false modrm bs).map fun o => (.pmulld o.1, o.2)
  | _ => none

/-- The legacy row with REX: 66 REX 0F 38 40 ModRM; REX bit 3 (W) is not looked at (R61). -/
def decodeLegacyRexRow : List Byte → Option (Instr × List Byte)
  | _ :: rex :: _ :: _ :: _ :: modrm :: bs =>
    (decodeLegacyOps (rex.getLsbD 2) (rex.getLsbD 1) (rex.getLsbD 0) modrm bs).map fun o => (.pmulldRex o.1, o.2)
  | _ => none

/-- A VEX row: C4 b1 b2 40 ModRM (R64). -/
def decodeVexRow (mk : VexOps → Instr) : List Byte → Option (Instr × List Byte)
  | _ :: b1 :: b2 :: _ :: modrm :: bs => (decodeVexOps b1 b2 modrm bs).map fun o => (mk o.1, o.2)
  | _ => none

/-- An EVEX row: 62 P0 P1 P2 40 ModRM (R68). -/
def decodeEvexRow (mk : EvexOps → Instr) : List Byte → Option (Instr × List Byte)
  | _ :: p0 :: p1 :: p2 :: _ :: modrm :: bs => (decodeEvexOps p0 p1 p2 modrm bs).map fun o => (mk o.1, o.2)
  | _ => none

/-- The instruction in bytes that match a row, and the bytes after it; none where the bytes run out. -/
def decodeRow (r : Row) (bs : List Byte) : Option (Instr × List Byte) :=
  match r with
  | .legacy => decodeLegacyRow bs
  | .legacyRex => decodeLegacyRexRow bs
  | .vex128 => decodeVexRow .vpmulldVex128 bs
  | .vex256 => decodeVexRow .vpmulldVex256 bs
  | .evexD128 => decodeEvexRow .vpmulldEvex128 bs
  | .evexD256 => decodeEvexRow .vpmulldEvex256 bs
  | .evexD512 => decodeEvexRow .vpmulldEvex512 bs
  | .evexQ128 => decodeEvexRow .vpmullqEvex128 bs
  | .evexQ256 => decodeEvexRow .vpmullqEvex256 bs
  | .evexQ512 => decodeEvexRow .vpmullqEvex512 bs

/-! ## Bytes that are no instruction of the table -/

/-- The EVEX family pattern of R80: `62 P0 P1 P2 40` with P0 bits 1:0 = 10 and P1 bits 1:0 = 01. -/
def evexFamily (bs : List Byte) : Bool :=
  matchBits [0xFF, 0x03, 0x03, 0x00, 0xFF] [0x62, 0x02, 0x01, 0x00, 0x40] bs

/-- The bytes match a VEX row, an EVEX row or the EVEX family pattern (R79). -/
def vexOrEvexPattern (bs : List Byte) : Bool :=
  (match matchRow bs with
   | some r => r.kind != .legacy
   | none => false) || evexFamily bs

/-- One illegal prefix byte before a pattern (R79): F0 before any row or the EVEX family; 66, F2, F3 or a REX byte
before a VEX row, an EVEX row or the EVEX family. -/
def illegalPrefix : List Byte → Bool
  | b :: bs =>
    (b == 0xF0#8 && ((matchRow bs).isSome || evexFamily bs)) ||
    ((b == 0x66#8 || b == 0xF2#8 || b == 0xF3#8 || b &&& 0xF0#8 == 0x40#8) && vexOrEvexPattern bs)
  | [] => false

/-- What kind of unlisted byte sequence is refused (R81, D17). Which name a sequence gets has no effect on any
other outcome. -/
inductive Unlisted
  /-- a segment override byte (2E, 36, 3E, 26, 64, 65) stands first -/
  | segmentOverride
  /-- the address-size prefix 67 stands first -/
  | addressSize
  /-- the two-byte VEX prefix C5, which cannot reach map 0F 38 -/
  | twoByteVex
  /-- 0F 38 40 without the mandatory 66 -/
  | missing66
  /-- anything else -/
  | other
deriving DecidableEq, Repr

/-- The name under which an unlisted sequence is refused. -/
def classify : List Byte → Unlisted
  | [] => .other
  | b :: bs =>
    if b = 0x2E#8 ∨ b = 0x36#8 ∨ b = 0x3E#8 ∨ b = 0x26#8 ∨ b = 0x64#8 ∨ b = 0x65#8 then .segmentOverride
    else if b = 0x67#8 then .addressSize
    else if b = 0xC5#8 then .twoByteVex
    else if (b :: bs).take 3 = [0x0F#8, 0x38#8, 0x40#8] then .missing66
    else .other

/-- What the decoder finds at the start of some bytes. -/
inductive Decoded
  /-- an instruction of the table, and the bytes after it -/
  | instr (i : Instr) (rest : List Byte)
  /-- a sequence that raises #UD though it matches no row (R79, R80) -/
  | invalidOpcode
  /-- a row matches but its bytes run out: the instruction crosses the end of what could be fetched (R26) -/
  | cutOff
  /-- a sequence the spec gives no meaning (R81) -/
  | unlisted (u : Unlisted)
deriving DecidableEq, Repr

/-- The decoder: a matching row first, then the #UD sequences, then refusal by name (R81). -/
def decode (bs : List Byte) : Decoded :=
  match matchRow bs with
  | some r =>
    match decodeRow r bs with
    | some o => .instr o.1 o.2
    | none => .cutOff
  | none => if evexFamily bs || illegalPrefix bs then .invalidOpcode else .unlisted (classify bs)

/-! ## Lengths (R59) -/

/-- Displacement bytes. -/
def Disp.len : Disp → Nat
  | .none => 0
  | .d8 _ => 1
  | .d32 _ => 4

/-- SIB and displacement bytes of a memory operand. -/
def MemOp.tailLen : MemOp → Nat
  | .base _ d => d.len
  | .rip _ => 4
  | .sib _ _ d => 1 + d.len
  | .sibNoBase _ _ => 1 + 4

/-- The bytes after ModRM. -/
def Src2.tailLen : Src2 → Nat
  | .reg _ => 0
  | .mem m => m.tailLen

/-- `ilen` of R59: 5 bytes through ModRM for the legacy form without REX and for VEX, 6 with REX and for EVEX. -/
def Instr.ilen : Instr → Nat
  | .pmulld o => 5 + o.src2.tailLen
  | .pmulldRex o => 6 + o.src2.tailLen
  | .vpmulldVex128 o => 5 + o.src2.tailLen
  | .vpmulldVex256 o => 5 + o.src2.tailLen
  | .vpmulldEvex128 o => 6 + o.src2.tailLen
  | .vpmulldEvex256 o => 6 + o.src2.tailLen
  | .vpmulldEvex512 o => 6 + o.src2.tailLen
  | .vpmullqEvex128 o => 6 + o.src2.tailLen
  | .vpmullqEvex256 o => 6 + o.src2.tailLen
  | .vpmullqEvex512 o => 6 + o.src2.tailLen

/-! ## The encoder -/

/-- What the last source operand contributes: ModRM.mod and rm, the extension bits (`b` and `x`, and `x` again as bit 4
of a register number in an EVEX form), and the bytes after ModRM. -/
structure RmBits where
  mod : BitVec 2
  rm : BitVec 3
  x : Bool
  b : Bool
  tail : List Byte
deriving DecidableEq, Repr

/-- The four bytes of a displacement, least significant first. -/
def disp32Bytes (d : BitVec 32) : List Byte :=
  [d.extractLsb' 0 8, d.extractLsb' 8 8, d.extractLsb' 16 8, d.extractLsb' 24 8]

/-- ModRM.mod for a displacement. -/
def Disp.modBits : Disp → BitVec 2
  | .none => 0#2
  | .d8 _ => 1#2
  | .d32 _ => 2#2

/-- The displacement bytes. -/
def Disp.bytes : Disp → List Byte
  | .none => []
  | .d8 d => [d]
  | .d32 d => disp32Bytes d

/-- The SIB byte for an index and three base bits; no index is 100 with scale 00. -/
def sibByte (ix : Option Index) (base : BitVec 3) : Byte :=
  match ix with
  | none => 0#2 ++ (4#3 ++ base)
  | some i => i.scale.bits ++ (i.reg.extractLsb' 0 3 ++ base)

/-- Bit 3 of the index register. -/
def indexExt : Option Index → Bool
  | none => false
  | some i => i.reg.getLsbD 3

/-- The ModRM, SIB and displacement bits of an operand (R74). Bits the encoding ignores are written as 0. -/
def encodeSrc2 : Src2 → RmBits
  | .reg n => ⟨3#2, n.extractLsb' 0 3, n.getLsbD 4, n.getLsbD 3, []⟩
  | .mem (.base b d) => ⟨d.modBits, b.extractLsb' 0 3, false, b.getLsbD 3, d.bytes⟩
  | .mem (.rip d) => ⟨0#2, 5#3, false, false, disp32Bytes d⟩
  | .mem (.sib b ix d) =>
    ⟨d.modBits, 4#3, indexExt ix, b.getLsbD 3, sibByte ix (b.extractLsb' 0 3) :: d.bytes⟩
  | .mem (.sibNoBase ix d) => ⟨0#2, 4#3, indexExt ix, false, sibByte ix 5#3 :: disp32Bytes d⟩

/-- The ModRM byte and what follows it. -/
def modrmTail (dest : VReg) (m : RmBits) : List Byte :=
  (m.mod ++ (dest.extractLsb' 0 3 ++ m.rm)) :: m.tail

/-- Legacy without REX (R61). -/
def encodeLegacy (o : LegacyOps) : List Byte :=
  0x66#8 :: 0x0F#8 :: 0x38#8 :: 0x40#8 :: modrmTail o.dest (encodeSrc2 o.src2)

/-- Legacy with REX, W = 0 (R61, R62). -/
def encodeLegacyRex (o : LegacyOps) : List Byte :=
  0x66#8 :: (0b01000#5 ++ (BitVec.ofBool (o.dest.getLsbD 3) ++
      (BitVec.ofBool (encodeSrc2 o.src2).x ++ BitVec.ofBool (encodeSrc2 o.src2).b))) ::
    0x0F#8 :: 0x38#8 :: 0x40#8 :: modrmTail o.dest (encodeSrc2 o.src2)

/-- VEX with W = 0; `l` is the L bit (R64). -/
def encodeVex (l : Bool) (o : VexOps) : List Byte :=
  0xC4#8 :: (BitVec.ofBool (!o.dest.getLsbD 3) ++ (BitVec.ofBool (!(encodeSrc2 o.src2).x) ++
      (BitVec.ofBool (!(encodeSrc2 o.src2).b) ++ 0b00010#5))) ::
    (0#1 ++ (~~~(o.src1.extractLsb' 0 4) ++ (BitVec.ofBool l ++ 0b01#2))) ::
    0x40#8 :: modrmTail o.dest (encodeSrc2 o.src2)

/-- The write mask field aaa (R72). -/
def maskBits : Option KReg → BitVec 3
  | none => 0#3
  | some a => a

/-- EVEX; `w` is the W bit and `ll` the field L'L (R68). -/
def encodeEvex (w : Bool) (ll : BitVec 2) (o : EvexOps) : List Byte :=
  0x62#8 :: (BitVec.ofBool (!o.dest.getLsbD 3) ++ (BitVec.ofBool (!(encodeSrc2 o.src2).x) ++
      (BitVec.ofBool (!(encodeSrc2 o.src2).b) ++ (BitVec.ofBool (!o.dest.getLsbD 4) ++ 0b0010#4)))) ::
    (BitVec.ofBool w ++ (~~~(o.src1.extractLsb' 0 4) ++ 0b101#3)) ::
    (BitVec.ofBool o.zeroing ++ (ll ++ (BitVec.ofBool o.bcst ++
      (BitVec.ofBool (!o.src1.getLsbD 4) ++ maskBits o.mask)))) ::
    0x40#8 :: modrmTail o.dest (encodeSrc2 o.src2)

/-- The canonical bytes of a well-formed instruction. -/
def encode : Instr → List Byte
  | .pmulld o => encodeLegacy o
  | .pmulldRex o => encodeLegacyRex o
  | .vpmulldVex128 o => encodeVex false o
  | .vpmulldVex256 o => encodeVex true o
  | .vpmulldEvex128 o => encodeEvex false 0#2 o
  | .vpmulldEvex256 o => encodeEvex false 1#2 o
  | .vpmulldEvex512 o => encodeEvex false 2#2 o
  | .vpmullqEvex128 o => encodeEvex true 0#2 o
  | .vpmullqEvex256 o => encodeEvex true 1#2 o
  | .vpmullqEvex512 o => encodeEvex true 2#2 o

/-! ## The opcode table's numbering of an instruction's bits -/

/-- The longest instruction x86 admits, in bytes (R58). -/
def maxInstrBytes : Nat := 15

/-- The bytes of the number `w`, whose low `nbits` bits are an instruction, first byte least significant; every bit above `nbits`
is 0. -/
def wordBytes (nbits w : Nat) : List Byte :=
  (List.range maxInstrBytes).map fun i => BitVec.ofNat 8 ((w % 2 ^ nbits) >>> (8 * i))

/-- The instruction the decoder reads from an instruction whose bits are `w`. -/
def decodeTableWord (nbits w : Nat) : Option Instr :=
  match decode (wordBytes nbits w) with
  | .instr i _ => some i
  | _ => none

end Sys2Proof
end

