-- ==== Sys2Proof/Machine/State.lean ====
section
/-! DEFINITION. The machine's state, why a step stops, and the state a run starts from. -/

namespace Sys2Proof.Machine

/-- Memory: (address, byte) pairs in one canonical form, see `Memory.wf` (R36). -/
abbrev Memory := List Host.Cell

/-- The status flags R27 names. No form reads or writes one (log 3). -/
structure StatusFlags where
  cf : Bool
  pf : Bool
  af : Bool
  zf : Bool
  sf : Bool
  of : Bool
deriving DecidableEq, Repr

/-- The state of R32, with the registers R27, R28 and R29 name and the constants of the run (log 1). -/
structure State where
  /-- vector registers; the low MAXVL bits of each exist (R15, R16) -/
  v : Vector Vec 32
  /-- opmask registers; the low KW bits of each exist (R21) -/
  k : Vector Word 8
  /-- general registers (R25) -/
  x : Vector Word 16
  /-- the address of the instruction being executed (R26) -/
  pc : Word
  /-- status flags (R27) -/
  flags : StatusFlags
  /-- SIMD floating-point control and status (R28); 32 bits wide is PRESUMED (log 3) -/
  mxcsr : BitVec 32
  /-- control register 0: EM is bit 2, TS is bit 3 (R29); 64 bits wide is PRESUMED, the spec gives no width (log 27) -/
  cr0 : Word
  /-- control register 4: OSFXSR is bit 9, OSXSAVE is bit 18 (R29); 64 bits wide is PRESUMED, the spec gives no width (log 27) -/
  cr4 : Word
  /-- XCR0: SSE 1, AVX 2, opmask 5, ZMM_Hi256 6, Hi16_ZMM 7 (R29); 64 bits wide is PRESUMED, the spec gives no width (log 27) -/
  xcr0 : Word
  /-- memory (R36) -/
  mem : Memory
  /-- the constants of the run (R7) -/
  cfg : Config
deriving DecidableEq, Repr

/-- Which exception the hardware reports for a memory read that is not admitted (R114, R119). -/
inductive MemReport
  /-- #SS(0): a byte address is not canonical and the operand uses the SS segment -/
  | stackSegment
  /-- #GP(0): a byte address is not canonical, any other segment -/
  | generalProtection
  /-- #PF: translation or page permissions fail; `cr2` is the first failing byte's address, `code` the low six bits of
  the fault code -/
  | pageFault (cr2 : Word) (code : BitVec 6)
  /-- the operand would wrap past 2^64; the spec does not say which exception reports it (R42, log 12) -/
  | wraps
deriving DecidableEq, Repr

/-- The exceptions the forms raise, as outcomes of a step (R121). `rip` is the address of the faulting instruction, the
instruction pointer hardware saves (R114). Nothing is written and the run stops there; delivery to a handler is outside the
spec's scope (R5, D21), so stopping is safe. -/
inductive Fault
  /-- #UD, raised by any form whose checks of R117 fail and by the sequences of R79 and R80 (safe) -/
  | ud (rip : Word)
  /-- #NM, raised by any form when CR0.TS = 1 (R118; safe) -/
  | nm (rip : Word)
  /-- #GP(0), raised by the legacy form on a memory operand that is not 16-byte aligned (R43; safe) -/
  | gp0 (rip : Word)
  /-- MemFault(ea, n), raised by any form whose memory operand is not admitted, with what hardware would
  report (R119; safe) -/
  | memFault (rip : Word) (ea : Word) (n : Nat) (report : MemReport)
deriving DecidableEq, Repr

/-- Why the model gives a step no meaning. -/
inductive Refusal
  /-- raised by an arm of exec whose instruction has no meaning yet; none is left (safe) -/
  | notModelled (mnemonic : String)
  /-- raised by the step on a byte sequence the spec gives no meaning (R81; safe) -/
  | unlistedEncoding (u : Unlisted)
  /-- raised by the step on an instruction whose bytes would cross 2^64 (R26, D8; safe) -/
  | crossesTop
  /-- raised by any form whose memory operand lies in device memory (R48, U15; safe) -/
  | deviceMemory
deriving DecidableEq, Repr

/-- What a byte of memory that nothing has written reads as (DESIGN CHOICE, unsafe: log 10). -/
def unlistedByte : Byte := 0#8

/-- The state a run starts from. The spec has no reset event and leaves the launch state arbitrary (R34, R130); this
is one launch state, ready to run every form: all values are named in logs 2 to 5 and 10. -/
def State.reset : State where
  v := Vector.replicate 32 0#512
  k := Vector.replicate 8 0#64
  x := Vector.replicate 16 0#64
  pc := 0#64
  flags := ⟨false, false, false, false, false, false⟩
  mxcsr := 0x1F80#32
  cr0 := 0#64
  cr4 := 0x40200#64
  xcr0 := 0xE6#64
  mem := []
  cfg :=
    { features := ⟨true, true, true, true, true, true⟩
      baseWidth := .w512
      kwAbove16 := 48
      faultSuppression := false
      regions := [] }

end Sys2Proof.Machine
end

