-- ==== Sys2Proof/Machine/Ops.lean ====
section
/-! DEFINITION. The named operations over memory, registers and the run's constants; what a form needs in order to execute;
and taking an exception, once for every form. -/

namespace Sys2Proof.Machine

/-- What one instruction answers. -/
abbrev Out := Host.Outcome State Fault Refusal

/-! ## The nine forms' constants (R3, R8, R57) -/

/-- The encoding kind of a form (R57). -/
def formKind : Form → Kind
  | .pmulld => .legacy
  | .vpmulldVex128 | .vpmulldVex256 => .vex
  | .vpmulldEvex128 | .vpmulldEvex256 | .vpmulldEvex512 => .evex
  | .vpmullqEvex128 | .vpmullqEvex256 | .vpmullqEvex512 => .evex

/-- VL, the vector length in bits (R8). -/
def formVL : Form → Nat
  | .pmulld | .vpmulldVex128 | .vpmulldEvex128 | .vpmullqEvex128 => 128
  | .vpmulldVex256 | .vpmulldEvex256 | .vpmullqEvex256 => 256
  | .vpmulldEvex512 | .vpmullqEvex512 => 512

/-- EW, the element width in bits (R8). -/
def formEW : Form → Nat
  | .pmulld | .vpmulldVex128 | .vpmulldVex256 => 32
  | .vpmulldEvex128 | .vpmulldEvex256 | .vpmulldEvex512 => 32
  | .vpmullqEvex128 | .vpmullqEvex256 | .vpmullqEvex512 => 64

/-- KL = VL / EW, the number of elements (R8). -/
def formKL (f : Form) : Nat := formVL f / formEW f

/-- The CPUID flags of the form's cell, all required (R3, D4). -/
def formFlags (f : Form) (c : Features) : Bool :=
  match f with
  | .pmulld => c.sse41
  | .vpmulldVex128 => c.avx
  | .vpmulldVex256 => c.avx2
  | .vpmulldEvex128 | .vpmulldEvex256 => c.avx512vl && c.avx512f
  | .vpmulldEvex512 => c.avx512f
  | .vpmullqEvex128 | .vpmullqEvex256 => c.avx512vl && c.avx512dq
  | .vpmullqEvex512 => c.avx512dq

/-- The form an instruction is (R78). -/
def instrForm : Instr → Form
  | .pmulld _ => .pmulld
  | .pmulldRex _ => .pmulld
  | .vpmulldVex128 _ => .vpmulldVex128
  | .vpmulldVex256 _ => .vpmulldVex256
  | .vpmulldEvex128 _ => .vpmulldEvex128
  | .vpmulldEvex256 _ => .vpmulldEvex256
  | .vpmulldEvex512 _ => .vpmulldEvex512
  | .vpmullqEvex128 _ => .vpmullqEvex128
  | .vpmullqEvex256 _ => .vpmullqEvex256
  | .vpmullqEvex512 _ => .vpmullqEvex512

/-- The destination register of an instruction (R17). -/
def instrDest : Instr → VReg
  | .pmulld o => o.dest
  | .pmulldRex o => o.dest
  | .vpmulldVex128 o => o.dest
  | .vpmulldVex256 o => o.dest
  | .vpmulldEvex128 o => o.dest
  | .vpmulldEvex256 o => o.dest
  | .vpmulldEvex512 o => o.dest
  | .vpmullqEvex128 o => o.dest
  | .vpmullqEvex256 o => o.dest
  | .vpmullqEvex512 o => o.dest

/-! ## What follows from the constants of the run (R6, R7) -/

/-- The bits of a register width. -/
def widthBits : RegWidth → Nat
  | .w128 => 128
  | .w256 => 256
  | .w512 => 512

/-- Some EVEX form's CPUID cell is met (R3). -/
def evexPresent (c : Features) : Bool := c.avx512f || c.avx512dq

/-- The widest vector the present forms need. -/
def neededVL (c : Features) : Nat := if evexPresent c then 512 else if c.avx2 then 256 else 128

/-- MAXVL: the implementer's width, and never below what a present form needs, so that it is 512 whenever an EVEX
form is present (R6, log 7). -/
def maxvl (c : Config) : Nat := max (widthBits c.baseWidth) (neededVL c.features)

/-- NVREG: 32 vector registers when an EVEX form is present, else 16 (R16, D5). -/
def nvreg (c : Config) : Nat := if evexPresent c.features then 32 else 16

/-- KW, the opmask register width (R7, R21). -/
def maskWidth (c : Config) : Nat := 16 + c.kwAbove16.val

/-! ## Memory (R36, R41, R42) -/

/-- One byte of memory. -/
def Memory.byte : Memory → Nat → Byte
  | [], _ => unlistedByte
  | c :: rest, a => if c.1 = a then c.2 else Memory.byte rest a

/-- Store one byte, keeping the canonical form: an entry equal to what an unlisted byte reads as is not listed. No
instruction stores; this is how a program and its data are placed (log 19). -/
def Memory.write : Memory → Nat → Byte → Memory
  | [], a, b => if b = unlistedByte then [] else [(a, b)]
  | c :: rest, a, b =>
    if a < c.1 then (if b = unlistedByte then c :: rest else (a, b) :: c :: rest)
    else if a = c.1 then (if b = unlistedByte then rest else (a, b) :: rest)
    else c :: Memory.write rest a b

/-- Store bytes at rising addresses; what would lie at or above 2^64 is dropped. -/
def Memory.writeBytes : Memory → Nat → List Byte → Memory
  | m, _, [] => m
  | m, a, b :: bs => if a < 2 ^ 64 then Memory.writeBytes (m.write a b) (a + 1) bs else m

/-- Addresses strictly rising from `lo`, below 2^64, and no byte listed that an unlisted address reads as. -/
def Memory.wfFrom (lo : Nat) : Memory → Bool
  | [] => true
  | c :: rest => decide (lo ≤ c.1) && decide (c.1 < 2 ^ 64) && c.2 != unlistedByte && Memory.wfFrom (c.1 + 1) rest

/-- The canonical form of memory. -/
def Memory.wf (m : Memory) : Bool := Memory.wfFrom 0 m

/-- `n` bytes from address `a` (modulo 2^64) as one little-endian value: bits 8i+7 to 8i are the byte at
a + i (R41, R42). -/
def Memory.readLE (m : Memory) (a : Nat) : (n : Nat) → BitVec (8 * n)
  | 0 => 0#0
  | n + 1 => Memory.readLE m (a + 1) n ++ m.byte (a % 2 ^ 64)

/-- The instruction bytes at `a`: `n` of them, fewer where they would reach 2^64 (R26, R54). -/
def fetchBytes (m : Memory) (a : Nat) : (n : Nat) → List Byte
  | 0 => []
  | n + 1 => if a < 2 ^ 64 then m.byte a :: fetchBytes m (a + 1) n else []

/-! ## Registers -/

/-- `v[n]` (R11). -/
def State.readV (s : State) (n : VReg) : Vec := s.v[n.toNat]'n.isLt

/-- `k[n]` (R11). -/
def State.readK (s : State) (n : KReg) : Word := s.k[n.toNat]'n.isLt

/-- `x[n]` (R11). -/
def State.readX (s : State) (n : Gpr) : Word := s.x[n.toNat]'n.isLt

/-- The low `n` bits of a vector register word, zero above: `zext(e[n-1:0])` (R9, R11). -/
def lowBits (n : Nat) (e : Vec) : Vec := (e.setWidth n).setWidth 512

/-- `v[n] <- e`: all MAXVL bits of the register are written, and no others exist (R11, R15). -/
def State.writeV (s : State) (n : VReg) (e : Vec) : State :=
  { s with v := s.v.set n.toNat (lowBits (maxvl s.cfg) e) n.isLt }

/-- `v[n][vl-1:0] <- e`: the bits above keep their old value (R11, R18 legacy row). -/
def State.writeLowV (s : State) (n : VReg) (vl : Nat) (e : Vec) : State :=
  s.writeV n (((s.readV n >>> vl) <<< vl) ||| lowBits vl e)

/-- `v[n] <- zext(e[vl-1:0])`: the bits above are zeroed (R18 VEX and EVEX rows). -/
def State.writeZeroV (s : State) (n : VReg) (vl : Nat) (e : Vec) : State := s.writeV n (lowBits vl e)

/-- `pc <- pc + ilen` (R26), modulo 2^64. R26 leaves wrap-around at the top open: that an instruction whose last byte lies at
2^64 - 1 completes with the instruction pointer at 0 is the model's choice (DESIGN CHOICE, unsafe: log 26). -/
def State.advance (s : State) (ilen : Nat) : State := { s with pc := s.pc + BitVec.ofNat 64 ilen }

/-! ## Taking an exception (R114, R121) -/

/-- An exception a form raises, with what it records (R114, R121). -/
inductive Exn
  | ud
  | nm
  | gp0
  | memFault (ea : Word) (n : Nat) (report : MemReport)
deriving DecidableEq, Repr

/-- Taking an exception: the step ends in a fault that names the address of the faulting instruction; nothing is
written (R121). Delivery and return are outside the scope (R5, R124). -/
def takeException (e : Exn) (s : State) : Out :=
  match e with
  | .ud => .fault (.ud s.pc)
  | .nm => .fault (.nm s.pc)
  | .gp0 => .fault (.gp0 s.pc)
  | .memFault ea n r => .fault (.memFault s.pc ea n r)

/-- The vector number of a fault (R114); none where the spec does not say which exception hardware reports. -/
def faultVector : Fault → Option Nat
  | .ud _ => some 6
  | .nm _ => some 7
  | .gp0 _ => some 13
  | .memFault _ _ _ .stackSegment => some 12
  | .memFault _ _ _ .generalProtection => some 13
  | .memFault _ _ _ (.pageFault _ _) => some 14
  | .memFault _ _ _ .wraps => none

/-- The error code of a fault, the low six bits (R114); none for #UD and #NM, which have none, and for `wraps`. -/
def faultErrorCode : Fault → Option (BitVec 6)
  | .ud _ => none
  | .nm _ => none
  | .gp0 _ => some 0#6
  | .memFault _ _ _ .stackSegment => some 0#6
  | .memFault _ _ _ .generalProtection => some 0#6
  | .memFault _ _ _ (.pageFault _ c) => some c
  | .memFault _ _ _ .wraps => none

/-- The address of the faulting instruction, which hardware saves (R114). -/
def faultRip : Fault → Word
  | .ud r => r
  | .nm r => r
  | .gp0 r => r
  | .memFault r _ _ _ => r

/-- Why an operand cannot be had. -/
inductive Stop
  | raise (e : Exn)
  | refuse (r : Refusal)
deriving DecidableEq, Repr

/-- An instruction that cannot have its operand ends there, with nothing written. -/
def stopWith (st : Stop) (s : State) : Out :=
  match st with
  | .raise e => takeException e s
  | .refuse r => .refused r

/-! ## What a form needs in order to execute (R30, R117, R118, R120) -/

/-- `Present(form)`: every CPUID flag of its cell is in FEATURES (R30). -/
def present (f : Form) (s : State) : Bool := formFlags f s.cfg.features

/-- `ENABLED(form)`, computed from the control registers as R30 gives it (log 6). -/
def enabled (f : Form) (s : State) : Bool :=
  match formKind f with
  | .legacy => !s.cr0.getLsbD 2 && s.cr4.getLsbD 9
  | .vex => s.cr4.getLsbD 18 && s.xcr0.extractLsb' 1 2 == 3#2
  | .evex => s.cr4.getLsbD 18 && s.xcr0.extractLsb' 1 2 == 3#2 && s.xcr0.extractLsb' 5 3 == 7#3

/-- `TS`: CR0.TS (R29, R118). -/
def taskSwitched (s : State) : Bool := s.cr0.getLsbD 3

/-- R80: any EVEX form without AVX512F raises #UD, whatever its own cell says (log 16). -/
def lacksFoundation (f : Form) (s : State) : Bool := formKind f == .evex && !s.cfg.features.avx512f

/-- Steps 1 and 2 of R120: #UD if the form is absent, not enabled or its encoding a reserved combination, else #NM if
TS is set. -/
def checkUdNm (f : Form) (reserved : Bool) (s : State) : Option Exn :=
  if reserved || !present f s || !enabled f s || lacksFoundation f s then some .ud
  else if taskSwitched s then some .nm
  else none

/-! ## Which bytes may be read (R42, R50, R119) -/

/-- The default segment of an operand: SS when its base register is RSP or RBP, else DS (R75). -/
inductive Segment
  | ds
  | ss
deriving DecidableEq, Repr

/-- A linear address is canonical when bits 63 to 47 are all equal (R119). -/
def canonical (a : Nat) : Bool :=
  (BitVec.ofNat 64 a).extractLsb' 47 17 == 0#17 || (BitVec.ofNat 64 a).extractLsb' 47 17 == BitVec.allOnes 17

/-- Why the environment does not admit the byte at `a`, if it does not. -/
def regionAt (c : Config) (a : Nat) : Option RegionKind :=
  (c.regions.find? fun r => decide (r.base ≤ a) && decide (a < r.base + r.size)).map (·.kind)

/-- The byte at `a` may be read as ordinary memory. -/
def byteAdmitted (c : Config) (a : Nat) : Bool :=
  decide (a < 2 ^ 64) && canonical a && (regionAt c a).isNone

/-- `Accessible(a, n)`: every byte of the operand is admitted; one that would wrap past 2^64 is not (R42, log 11). -/
def accessible (c : Config) (a : Word) (n : Nat) : Bool := (List.range n).all fun i => byteAdmitted c (a.toNat + i)

/-- The page-fault code: P, W/R = 0, U/S, RSVD, I/D = 0, PK, from bit 0 up (R114). -/
def pfCode (b : PfBits) : BitVec 6 :=
  BitVec.ofBool b.pk ++ (0#1 ++ (BitVec.ofBool b.rsvd ++ (BitVec.ofBool b.us ++ (0#1 ++ BitVec.ofBool b.p))))

/-- #PF at the byte `a`, if translation or permissions fail there. -/
def pageFaultAt (c : Config) (a : Nat) : Option MemReport :=
  match regionAt c a with
  | some (.pageFault code) => some (.pageFault (BitVec.ofNat 64 a) (pfCode code))
  | _ => none

/-- What a non-canonical address reports (R75, R119). -/
def segmentReport : Segment → MemReport
  | .ss => .stackSegment
  | .ds => .generalProtection

/-- Step 4 of R120 over the bytes that are checked: an operand of `n` bytes at `ea` whose checked bytes lie at `offsets`. #SS(0)
and #GP(0) come before #PF; device memory is refused (R48, log 13). -/
def checkBytes (c : Config) (seg : Segment) (ea : Word) (n : Nat) (offsets : List Nat) : Option Stop :=
  if offsets.any (fun i => decide (2 ^ 64 ≤ ea.toNat + i)) then some (.raise (.memFault ea n .wraps))
  else if offsets.any (fun i => !canonical (ea.toNat + i)) then some (.raise (.memFault ea n (segmentReport seg)))
  else
    match offsets.findSome? (fun i => pageFaultAt c (ea.toNat + i)) with
    | some r => some (.raise (.memFault ea n r))
    | none =>
      if offsets.any (fun i => regionAt c (ea.toNat + i) == some .device) then some (.refuse .deviceMemory) else none

/-- `MemRead(ea, n)` with the bytes at `offsets` checked, as a vector word with zeros above (R42). -/
def memRead (s : State) (seg : Segment) (ea : Word) (n : Nat) (offsets : List Nat) : Except Stop Vec :=
  match checkBytes s.cfg seg ea n offsets with
  | some st => .error st
  | none => .ok ((s.mem.readLE ea.toNat n).setWidth 512)

end Sys2Proof.Machine
end

