-- ==== Sys2Proof/Machine/Operands.lean ====
section
/-! DEFINITION. Elements of vectors, the element product, effective addresses, write masks and source operands: every
operand form of R56, R74, R75, R96 and R97. -/

namespace Sys2Proof.Machine

/-! ## Elements (R10, R13) -/

/-- Element `j` of a vector: bits EW*j+EW-1 to EW*j (R10). -/
def elem {w : Nat} (ew : Nat) (x : BitVec w) (j : Nat) : BitVec ew := x.extractLsb' (ew * j) ew

/-- The vector whose elements 0 to kl-1 are `f 0` to `f (kl-1)`, zero above (R10). -/
def lanes (w ew : Nat) : (kl : Nat) → (Nat → BitVec ew) → BitVec w
  | 0, _ => 0#w
  | n + 1, f => lanes w ew n f ||| ((f n).setWidth w <<< (ew * n))

/-- `mullo_N(a, b) = (a * b) mod 2^N` (R13). -/
def mullo {n : Nat} (a b : BitVec n) : BitVec n := BitVec.ofNat n (a.toNat * b.toNat)

/-- Element by element products of two vectors (R87, R91, R92). -/
def mulLanes (ew kl : Nat) (a b : Vec) : Vec := lanes 512 ew kl fun j => mullo (elem ew a j) (elem ew b j)

/-! ## Effective addresses (R75, R76) -/

/-- The displacement's value; a 1-byte displacement is scaled by `n` (R75, R76). -/
def dispValue (n : Nat) : Disp → Word
  | .none => 0#64
  | .d8 d => d.signExtend 64 * BitVec.ofNat 64 n
  | .d32 d => d.signExtend 64

/-- `x[idx] << scale`, or 0 where there is no index (R75). -/
def indexTerm (s : State) : Option Index → Word
  | none => 0#64
  | some i => s.readX i.reg <<< i.scale.bits

/-- The effective address, modulo 2^64; `scaleN` is the N of R76 and `ilen` the instruction's length (R75). -/
def effAddr (s : State) (scaleN ilen : Nat) : MemOp → Word
  | .base b d => s.readX b + dispValue scaleN d
  | .rip d => (s.pc + BitVec.ofNat 64 ilen) + d.signExtend 64
  | .sib b ix d => s.readX b + indexTerm s ix + dispValue scaleN d
  | .sibNoBase ix d => indexTerm s ix + d.signExtend 64

/-- SS when the base register is RSP or RBP, numbers 4 and 5 (R75). -/
def baseSegment (b : Gpr) : Segment := if b = 4#4 ∨ b = 5#4 then .ss else .ds

/-- The default segment of an operand (R75). -/
def segmentOf : MemOp → Segment
  | .base b _ => baseSegment b
  | .rip _ => .ds
  | .sib b _ _ => baseSegment b
  | .sibNoBase _ _ => .ds

/-! ## Write masks (R22, R97) -/

/-- `M(j)`: 1 with no write mask, else bit `j` of the mask register (R97). -/
def maskOn (s : State) (mask : Option KReg) (j : Nat) : Bool :=
  match mask with
  | none => true
  | some a => (s.readK a).getLsbD j

/-! ## Source operands -/

/-- SRC of the legacy form: a register, or 16 bytes of memory that must be 16-byte aligned (R43, R87). -/
def legacySource (s : State) (ilen : Nat) : Src2 → Except Stop Vec
  | .reg n => .ok (s.readV n)
  | .mem m =>
    if (effAddr s 1 ilen m).toNat % 16 = 0 then
      memRead s (segmentOf m) (effAddr s 1 ilen m) 16 (List.range 16)
    else .error (.raise .gp0)

/-- SRC2 of a VEX form: a register, or VL/8 bytes of memory at any address (R38, R44, R91). -/
def vexSource (f : Form) (s : State) (ilen : Nat) : Src2 → Except Stop Vec
  | .reg n => .ok (s.readV n)
  | .mem m =>
    memRead s (segmentOf m) (effAddr s 1 ilen m) (formVL f / 8) (List.range (formVL f / 8))

/-- The bytes an EVEX memory operand has: one element with broadcast, else the whole vector (R35). -/
def evexBytes (f : Form) (bcst : Bool) : Nat := if bcst then formEW f / 8 else formVL f / 8

/-- The bytes of an EVEX memory operand that are checked (R40): all of them, or with FAULT_SUPPRESSION those of the
elements whose mask bit is 1 (of the one element, if any mask bit is 1, with broadcast). -/
def evexOffsets (f : Form) (s : State) (o : EvexOps) : List Nat :=
  if s.cfg.faultSuppression then
    if o.bcst then
      if (List.range (formKL f)).any (maskOn s o.mask) then List.range (formEW f / 8) else []
    else (List.range (formVL f / 8)).filter fun i => maskOn s o.mask (i / (formEW f / 8))
  else List.range (evexBytes f o.bcst)

/-- SRC2 of an EVEX form: a register, or memory at any address with the displacement scaled by the operand's
size (R44, R76, R96). -/
def evexSource (f : Form) (s : State) (ilen : Nat) (o : EvexOps) : Except Stop Vec :=
  match o.src2 with
  | .reg n => .ok (s.readV n)
  | .mem m =>
    memRead s (segmentOf m) (effAddr s (evexBytes f o.bcst) ilen m) (evexBytes f o.bcst) (evexOffsets f s o)

/-- The reserved combinations of an EVEX row: z with no mask, b with a register (R71, R73, R117). -/
def evexReserved (o : EvexOps) : Bool :=
  (o.zeroing && o.mask.isNone) ||
  (o.bcst && match o.src2 with
    | .reg _ => true
    | .mem _ => false)

/-- The new element `j` of an EVEX form (R96, R97): `a` is SRC1, `b` SRC2 (element 0 of it for every `j` with
broadcast), `old` the destination. -/
def evexElem (ew : Nat) (s : State) (o : EvexOps) (a b old : Vec) (j : Nat) : BitVec ew :=
  if maskOn s o.mask j then mullo (elem ew a j) (elem ew b (if o.bcst then 0 else j))
  else if o.zeroing then 0#ew
  else elem ew old j

/-- The low VL bits of the destination of an EVEX form (R98). -/
def evexLanes (f : Form) (s : State) (o : EvexOps) (b : Vec) : Vec :=
  lanes 512 (formEW f) (formKL f) (evexElem (formEW f) s o (s.readV o.src1) b (s.readV o.dest))

end Sys2Proof.Machine
end

