-- ==== Sys2Proof/Machine/Evex.lean ====
section
/-! DEFINITION. VPMULLD and VPMULLQ, the six EVEX forms (R95 to R109). -/

namespace Sys2Proof.Machine

/-- `EVEX_MULLO(EW, VL)` of R98: #UD, #NM, memory, then the masked element products; the bits above VL are
zeroed whatever the mask (R18). -/
def evexMullo (f : Form) (o : EvexOps) (ilen : Nat) (s : State) : Out :=
  match checkUdNm f (evexReserved o) s with
  | some e => takeException e s
  | none =>
    match evexSource f s ilen o with
    | .error st => stopWith st s
    | .ok b => .next ((s.writeZeroV o.dest (formVL f) (evexLanes f s o b)).advance ilen)

/-- VPMULLD, EVEX.128 (R101). -/
def execVpmulldEvex128 (o : EvexOps) (s : State) : Out := evexMullo .vpmulldEvex128 o (Instr.vpmulldEvex128 o).ilen s

/-- VPMULLD, EVEX.256 (R102). -/
def execVpmulldEvex256 (o : EvexOps) (s : State) : Out := evexMullo .vpmulldEvex256 o (Instr.vpmulldEvex256 o).ilen s

/-- VPMULLD, EVEX.512 (R103). -/
def execVpmulldEvex512 (o : EvexOps) (s : State) : Out := evexMullo .vpmulldEvex512 o (Instr.vpmulldEvex512 o).ilen s

/-- VPMULLQ, EVEX.128 (R107). -/
def execVpmullqEvex128 (o : EvexOps) (s : State) : Out := evexMullo .vpmullqEvex128 o (Instr.vpmullqEvex128 o).ilen s

/-- VPMULLQ, EVEX.256 (R108). -/
def execVpmullqEvex256 (o : EvexOps) (s : State) : Out := evexMullo .vpmullqEvex256 o (Instr.vpmullqEvex256 o).ilen s

/-- VPMULLQ, EVEX.512 (R109). -/
def execVpmullqEvex512 (o : EvexOps) (s : State) : Out := evexMullo .vpmullqEvex512 o (Instr.vpmullqEvex512 o).ilen s

end Sys2Proof.Machine
end

