-- ==== Sys2Proof/Machine/Legacy.lean ====
section
/-! DEFINITION. PMULLD, the legacy SSE form (R87): the two rows of the table, without and with a REX byte. -/

namespace Sys2Proof.Machine

/-- The algorithm of R87: #UD, #NM, alignment, memory, then four dword products; the bits above 127 are kept. -/
def legacyMullo (o : LegacyOps) (ilen : Nat) (s : State) : Out :=
  match checkUdNm .pmulld false s with
  | some e => takeException e s
  | none =>
    match legacySource s ilen o.src2 with
    | .error st => stopWith st s
    | .ok b => .next ((s.writeLowV o.dest 128 (mulLanes 32 4 (s.readV o.dest) b)).advance ilen)

/-- PMULLD xmm1, xmm2/m128 without REX (R87). -/
def execPmulld (o : LegacyOps) (s : State) : Out := legacyMullo o (Instr.pmulld o).ilen s

/-- PMULLD xmm1, xmm2/m128 with REX (R87). -/
def execPmulldRex (o : LegacyOps) (s : State) : Out := legacyMullo o (Instr.pmulldRex o).ilen s

end Sys2Proof.Machine
end

