-- ==== Sys2Proof/Machine/Vex.lean ====
section
/-! DEFINITION. VPMULLD, the two VEX forms (R90 to R92). -/

namespace Sys2Proof.Machine

/-- The algorithm of R91 and R92: #UD, #NM, memory, then VL/32 dword products; the bits above VL are zeroed. -/
def vexMullo (f : Form) (o : VexOps) (ilen : Nat) (s : State) : Out :=
  match checkUdNm f false s with
  | some e => takeException e s
  | none =>
    match vexSource f s ilen o.src2 with
    | .error st => stopWith st s
    | .ok b =>
      .next ((s.writeZeroV o.dest (formVL f) (mulLanes (formEW f) (formKL f) (s.readV o.src1) b)).advance ilen)

/-- VPMULLD xmm1, xmm2, xmm3/m128 (R91). -/
def execVpmulldVex128 (o : VexOps) (s : State) : Out := vexMullo .vpmulldVex128 o (Instr.vpmulldVex128 o).ilen s

/-- VPMULLD ymm1, ymm2, ymm3/m256 (R92). -/
def execVpmulldVex256 (o : VexOps) (s : State) : Out := vexMullo .vpmulldVex256 o (Instr.vpmulldVex256 o).ilen s

end Sys2Proof.Machine
end

