-- ==== Sys2Proof/Machine/Dispatch.lean ====
section
/-! DEFINITION. One arm per instruction of the opcode table. -/

namespace Sys2Proof.Machine

def exec (i : Instr) (s : State) : Host.Outcome State Fault Refusal :=
  match i with
  | .pmulld o => Sys2Proof.Machine.execPmulld o s
  | .pmulldRex o => Sys2Proof.Machine.execPmulldRex o s
  | .vpmulldVex128 o => Sys2Proof.Machine.execVpmulldVex128 o s
  | .vpmulldVex256 o => Sys2Proof.Machine.execVpmulldVex256 o s
  | .vpmulldEvex128 o => Sys2Proof.Machine.execVpmulldEvex128 o s
  | .vpmulldEvex256 o => Sys2Proof.Machine.execVpmulldEvex256 o s
  | .vpmulldEvex512 o => Sys2Proof.Machine.execVpmulldEvex512 o s
  | .vpmullqEvex128 o => Sys2Proof.Machine.execVpmullqEvex128 o s
  | .vpmullqEvex256 o => Sys2Proof.Machine.execVpmullqEvex256 o s
  | .vpmullqEvex512 o => Sys2Proof.Machine.execVpmullqEvex512 o s

end Sys2Proof.Machine
end

