-- ==== Sys2Proof/Machine/Step.lean ====
section
/-! DEFINITION. One step: fetch at the instruction pointer, decode, execute. -/

namespace Sys2Proof.Machine

/-- The bytes at `pc`, up to the longest instruction, fewer where they would reach 2^64 (R26, R54, R58). -/
def fetch (s : State) : List Byte := fetchBytes s.mem s.pc.toNat maxInstrBytes

/-- One instruction: what the bytes at `pc` decode to is executed; a sequence of R79 or R80 raises #UD; anything else
is refused by name (R26, R81). -/
def step (s : State) : Host.Outcome State Fault Refusal :=
  match decode (fetch s) with
  | .instr i _ => exec i s
  | .invalidOpcode => takeException .ud s
  | .cutOff => .refused .crossesTop
  | .unlisted u => .refused (.unlistedEncoding u)

/-- `s` with the instruction whose bits are `w` stored where the next step fetches (log 19). -/
def State.withFetchWord (s : State) (nbits w : Nat) : State :=
  { s with mem := s.mem.writeBytes s.pc.toNat (wordBytes nbits w) }

end Sys2Proof.Machine
end

