-- ==== Sys2Proof/Machine/Flags.lean ====
section
/-! DEFINITION. The flags. The spec gives no flag computation: no form reads or writes a status flag or MXCSR, and a product that does
not fit its element sets nothing (R13, R27, R28, R112). What can be said of flags is that two states agree on them. -/

namespace Sys2Proof.Machine

/-- The effect of every form on the flags and on MXCSR: none (R27, R28). -/
abbrev flagsUntouched (s t : State) : Prop := t.flags = s.flags ∧ t.mxcsr = s.mxcsr

end Sys2Proof.Machine
end

