-- ==== Sys2Proof/Machine/Intrinsics.lean ====
section
/-! DEFINITION. The eighteen compiler intrinsics of R86, as functions on values: `a` is SRC1, `b` SRC2, `s` the value DEST held
before (merging), `k` the write mask (R86, R88, R93, R104, R110). Their names drop the leading underscores of the
prototypes. -/

namespace Sys2Proof.Machine

/-- No write mask: element j is `mullo(a_j, b_j)` (R86). -/
def intrinsicMullo (w ew : Nat) (a b : BitVec w) : BitVec w :=
  lanes w ew (w / ew) fun j => mullo (elem ew a j) (elem ew b j)

/-- A `_mask_` intrinsic: element j is `mullo(a_j, b_j)` where mask bit j is 1, else that of `s` (R86). -/
def intrinsicMask {m : Nat} (w ew : Nat) (s : BitVec w) (k : BitVec m) (a b : BitVec w) : BitVec w :=
  lanes w ew (w / ew) fun j => if k.getLsbD j then mullo (elem ew a j) (elem ew b j) else elem ew s j

/-- A `_maskz_` intrinsic: element j is `mullo(a_j, b_j)` where mask bit j is 1, else 0 (R86). -/
def intrinsicMaskz {m : Nat} (w ew : Nat) (k : BitVec m) (a b : BitVec w) : BitVec w :=
  lanes w ew (w / ew) fun j => if k.getLsbD j then mullo (elem ew a j) (elem ew b j) else 0#ew

/-- R86 row 1. -/
def mm512_mullo_epi32 (a b : BitVec 512) : BitVec 512 := intrinsicMullo 512 32 a b

/-- R86 row 2. -/
def mm512_mask_mullo_epi32 (s : BitVec 512) (k : BitVec 16) (a b : BitVec 512) : BitVec 512 :=
  intrinsicMask 512 32 s k a b

/-- R86 row 3. -/
def mm512_maskz_mullo_epi32 (k : BitVec 16) (a b : BitVec 512) : BitVec 512 := intrinsicMaskz 512 32 k a b

/-- R86 row 4. -/
def mm256_mask_mullo_epi32 (s : BitVec 256) (k : BitVec 8) (a b : BitVec 256) : BitVec 256 :=
  intrinsicMask 256 32 s k a b

/-- R86 row 5. -/
def mm256_maskz_mullo_epi32 (k : BitVec 8) (a b : BitVec 256) : BitVec 256 := intrinsicMaskz 256 32 k a b

/-- R86 row 6. -/
def mm_mask_mullo_epi32 (s : BitVec 128) (k : BitVec 8) (a b : BitVec 128) : BitVec 128 :=
  intrinsicMask 128 32 s k a b

/-- R86 row 7. -/
def mm_maskz_mullo_epi32 (k : BitVec 8) (a b : BitVec 128) : BitVec 128 := intrinsicMaskz 128 32 k a b

/-- R86 row 8. -/
def mm256_mullo_epi32 (a b : BitVec 256) : BitVec 256 := intrinsicMullo 256 32 a b

/-- R86 row 9, labelled PMULLD. -/
def mm_mullo_epi32 (a b : BitVec 128) : BitVec 128 := intrinsicMullo 128 32 a b

/-- R86 row 10. -/
def mm512_mullo_epi64 (a b : BitVec 512) : BitVec 512 := intrinsicMullo 512 64 a b

/-- R86 row 11. -/
def mm512_mask_mullo_epi64 (s : BitVec 512) (k : BitVec 8) (a b : BitVec 512) : BitVec 512 :=
  intrinsicMask 512 64 s k a b

/-- R86 row 12. -/
def mm512_maskz_mullo_epi64 (k : BitVec 8) (a b : BitVec 512) : BitVec 512 := intrinsicMaskz 512 64 k a b

/-- R86 row 13. -/
def mm256_mullo_epi64 (a b : BitVec 256) : BitVec 256 := intrinsicMullo 256 64 a b

/-- R86 row 14. -/
def mm256_mask_mullo_epi64 (s : BitVec 256) (k : BitVec 8) (a b : BitVec 256) : BitVec 256 :=
  intrinsicMask 256 64 s k a b

/-- R86 row 15. -/
def mm256_maskz_mullo_epi64 (k : BitVec 8) (a b : BitVec 256) : BitVec 256 := intrinsicMaskz 256 64 k a b

/-- R86 row 16. -/
def mm_mullo_epi64 (a b : BitVec 128) : BitVec 128 := intrinsicMullo 128 64 a b

/-- R86 row 17. -/
def mm_mask_mullo_epi64 (s : BitVec 128) (k : BitVec 8) (a b : BitVec 128) : BitVec 128 :=
  intrinsicMask 128 64 s k a b

/-- R86 row 18. -/
def mm_maskz_mullo_epi64 (k : BitVec 8) (a b : BitVec 128) : BitVec 128 := intrinsicMaskz 128 64 k a b

end Sys2Proof.Machine
end

