-- ==== Sys2Proof/Machine/Program.lean ====
section
/-! DEFINITION. Programs and the end of a run (R132): a finite list of instructions laid out consecutively from a base address, and
what it means that a run of it is final. -/

namespace Sys2Proof.Machine

/-- The sum of the lengths of all instructions (R132). -/
def programLength (is : List Instr) : Nat := (is.map Instr.ilen).sum

/-- The instructions lie consecutively in memory from `base` (R132): at each one's address the bytes decode to it, in whichever
encoding (W = 0 or 1 of R66 among them), and the next one begins where its bytes end. Addresses are counted without
wrapping: a program whose instructions would go on at address 0 after one that ends at 2^64 - 1 is never laid out, though
the machine's own run goes on there (R26 leaves wrap-around open; DESIGN CHOICE, unsafe: log 29). -/
def laidOut (m : Memory) : Nat → List Instr → Prop
  | _, [] => True
  | base, i :: is =>
    (∃ rest, decode (fetchBytes m base maxInstrBytes) = .instr i rest) ∧ laidOut m (base + i.ilen) is

/-- The instructions executed one after another, up to the first fault or refusal (R51, R132). -/
def execAll : List Instr → State → Out
  | [], s => .next s
  | i :: is, s =>
    match exec i s with
    | .next t => execAll is t
    | .fault r => .fault r
    | .refused r => .refused r

/-- The address after the last instruction, where `pc` is when the run is final (R132); modulo 2^64, so that a program whose
last byte lies at 2^64 - 1 ends at 0 (DESIGN CHOICE: log 26). -/
def endAddress (base : Word) (is : List Instr) : Word := base + BitVec.ofNat 64 (programLength is)

/-- A final run (R132): the run of the program `is` that starts at its base address in `s` completes every instruction, the
last one too, without a fault or refusal, and stands in `t` at the address after the last one. A program has at
least one instruction (log 28), and none that goes on at address 0 past the top of memory is final (log 29). -/
structure FinalRun (is : List Instr) (s t : State) : Prop where
  nonempty : is ≠ []
  laid : laidOut s.mem s.pc.toNat is
  completes : Sys2Proof.core.run is.length s = .next t
  atEnd : t.pc = endAddress s.pc is

end Sys2Proof.Machine
end

