-- ==== Sys2Proof/Safety.lean ====
section
/-! DEFINITION. What counts as a safe state and a completed run, and the words the statements are written in. Where a
word says again what a rule of the spec says, it is written from the rule, not from the machine's own operation. -/

namespace Sys2Proof.Machine

/-! ## States -/

/-- What every step keeps (R11, R15, R16, R21, R36): memory in its canonical form; no vector register holds a bit at or
above MAXVL; registers that do not exist hold nothing; no opmask register holds a bit at or above KW. -/
def Inv (s : State) : Prop :=
  s.mem.wf = true ∧
  (∀ (n : VReg) (i : Nat), maxvl s.cfg ≤ i → (s.readV n).getLsbD i = false) ∧
  (∀ n : VReg, nvreg s.cfg ≤ n.toNat → s.readV n = 0#512) ∧
  (∀ (a : KReg) (i : Nat), maskWidth s.cfg ≤ i → (s.readK a).getLsbD i = false)

/-- The state every form leaves as it is: opmask and general registers, flags and MXCSR, control registers, the run's constants,
and every byte of memory (R24, R25, R27, R28, R32, R37). -/
def Untouched (s t : State) : Prop :=
  t.k = s.k ∧ t.x = s.x ∧ flagsUntouched s t ∧ t.cr0 = s.cr0 ∧ t.cr4 = s.cr4 ∧ t.xcr0 = s.xcr0 ∧ t.cfg = s.cfg ∧
  ∀ a : Nat, t.mem.byte a = s.mem.byte a

/-- `Untouched`, and every vector register but `dest` as it was (R17, R32). -/
def FrameV (dest : VReg) (s t : State) : Prop := Untouched s t ∧ ∀ n : VReg, n ≠ dest → t.readV n = s.readV n

/-! ## When a form may execute (R30, R80, R117, R118) -/

/-- `ENABLED` in the control-register bits of R30, written from the rule. -/
def EnabledBits (f : Form) (s : State) : Prop :=
  match formKind f with
  | .legacy => s.cr0.getLsbD 2 = false ∧ s.cr4.getLsbD 9 = true
  | .vex => s.cr4.getLsbD 18 = true ∧ s.xcr0.getLsbD 1 = true ∧ s.xcr0.getLsbD 2 = true
  | .evex =>
    s.cr4.getLsbD 18 = true ∧ s.xcr0.getLsbD 1 = true ∧ s.xcr0.getLsbD 2 = true ∧
    s.xcr0.getLsbD 5 = true ∧ s.xcr0.getLsbD 6 = true ∧ s.xcr0.getLsbD 7 = true

/-- The CPUID cell of a form (R3), and AVX512F for every EVEX form (R80). -/
def HasFeatures (f : Form) (c : Features) : Prop :=
  match f with
  | .pmulld => c.sse41 = true
  | .vpmulldVex128 => c.avx = true
  | .vpmulldVex256 => c.avx2 = true
  | .vpmulldEvex128 | .vpmulldEvex256 => c.avx512vl = true ∧ c.avx512f = true
  | .vpmulldEvex512 => c.avx512f = true
  | .vpmullqEvex128 | .vpmullqEvex256 => c.avx512vl = true ∧ c.avx512dq = true ∧ c.avx512f = true
  | .vpmullqEvex512 => c.avx512dq = true ∧ c.avx512f = true

/-- The form is present and enabled: steps 1 of R120 without the reserved combinations. -/
def Usable (f : Form) (s : State) : Prop := HasFeatures f s.cfg.features ∧ EnabledBits f s

/-- The form is present and enabled and TS is clear: steps 1 and 2 of R120. -/
def Ready (f : Form) (s : State) : Prop := Usable f s ∧ s.cr0.getLsbD 3 = false

/-- The EVEX operands are no reserved combination: z needs a mask, b needs memory (R71, R73). -/
def NotReserved (o : EvexOps) : Prop :=
  (o.zeroing = true → o.mask ≠ none) ∧ (∀ n, o.src2 = .reg n → o.bcst = false)

/-- The instruction's encoding is no reserved combination of its row's `ud_if`. -/
def InstrNotReserved : Instr → Prop
  | .pmulld _ => True
  | .pmulldRex _ => True
  | .vpmulldVex128 _ => True
  | .vpmulldVex256 _ => True
  | .vpmulldEvex128 o => NotReserved o
  | .vpmulldEvex256 o => NotReserved o
  | .vpmulldEvex512 o => NotReserved o
  | .vpmullqEvex128 o => NotReserved o
  | .vpmullqEvex256 o => NotReserved o
  | .vpmullqEvex512 o => NotReserved o

/-! ## Operands -/

/-- The last source operand of an instruction. -/
def srcOf : Instr → Src2
  | .pmulld o => o.src2
  | .pmulldRex o => o.src2
  | .vpmulldVex128 o => o.src2
  | .vpmulldVex256 o => o.src2
  | .vpmulldEvex128 o => o.src2
  | .vpmulldEvex256 o => o.src2
  | .vpmulldEvex512 o => o.src2
  | .vpmullqEvex128 o => o.src2
  | .vpmullqEvex256 o => o.src2
  | .vpmullqEvex512 o => o.src2

/-- The bytes a memory operand of the instruction has (R35, R46): 16, 32 or 64, or one element with broadcast. -/
def operandBytes : Instr → Nat
  | .pmulld _ => 16
  | .pmulldRex _ => 16
  | .vpmulldVex128 _ => 16
  | .vpmulldVex256 _ => 32
  | .vpmulldEvex128 o => if o.bcst then 4 else 16
  | .vpmulldEvex256 o => if o.bcst then 4 else 32
  | .vpmulldEvex512 o => if o.bcst then 4 else 64
  | .vpmullqEvex128 o => if o.bcst then 8 else 16
  | .vpmullqEvex256 o => if o.bcst then 8 else 32
  | .vpmullqEvex512 o => if o.bcst then 8 else 64

/-- The N by which a 1-byte displacement is scaled: 1 for legacy and VEX, the operand's bytes for EVEX (R76). -/
def dispScale (i : Instr) : Nat := if formKind (instrForm i) = .evex then operandBytes i else 1

/-- The address of the instruction's memory operand (R75, R76). -/
def operandAddr (i : Instr) (s : State) (m : MemOp) : Word := effAddr s (dispScale i) i.ilen m

/-- The value of `n` bytes of memory at `a`, little-endian, as a vector word (R38, R42). -/
def memValue (s : State) (a : Word) (n : Nat) : Vec := (s.mem.readLE a.toNat n).setWidth 512

/-- R40: which bytes of an EVEX memory operand of `kl` elements of `eb` bytes must be admitted. -/
def MaskedAccessible (s : State) (o : EvexOps) (eb kl : Nat) (ea : Word) : Prop :=
  if s.cfg.faultSuppression = true then
    if o.bcst = true then (∃ j, j < kl ∧ maskOn s o.mask j = true) → accessible s.cfg ea eb = true
    else ∀ j, j < kl → maskOn s o.mask j = true → ∀ b, b < eb → byteAdmitted s.cfg (ea.toNat + (eb * j + b)) = true
  else accessible s.cfg ea (if o.bcst = true then eb else eb * kl) = true

/-- The bytes of the memory operand that must be admitted are: all of them for the legacy and VEX forms (R42), for the
EVEX forms as R40 asks. -/
def OperandAdmitted (i : Instr) (s : State) (m : MemOp) : Prop :=
  match i with
  | .pmulld _ => accessible s.cfg (operandAddr i s m) 16 = true
  | .pmulldRex _ => accessible s.cfg (operandAddr i s m) 16 = true
  | .vpmulldVex128 _ => accessible s.cfg (operandAddr i s m) 16 = true
  | .vpmulldVex256 _ => accessible s.cfg (operandAddr i s m) 32 = true
  | .vpmulldEvex128 o => MaskedAccessible s o 4 4 (operandAddr i s m)
  | .vpmulldEvex256 o => MaskedAccessible s o 4 8 (operandAddr i s m)
  | .vpmulldEvex512 o => MaskedAccessible s o 4 16 (operandAddr i s m)
  | .vpmullqEvex128 o => MaskedAccessible s o 8 2 (operandAddr i s m)
  | .vpmullqEvex256 o => MaskedAccessible s o 8 4 (operandAddr i s m)
  | .vpmullqEvex512 o => MaskedAccessible s o 8 8 (operandAddr i s m)

/-- The legacy form's memory operand is 16-byte aligned; the other forms ask nothing (R43, R44). -/
def Aligned (i : Instr) (s : State) (m : MemOp) : Prop :=
  formKind (instrForm i) = .legacy → (operandAddr i s m).toNat % 16 = 0

/-- The last source operand of `i` can be had and is `b`: a register, or memory that is aligned and admitted as the form
asks (R35, R38, R40, R42, R43, R44). -/
def SourceIs (i : Instr) (s : State) (b : Vec) : Prop :=
  match srcOf i with
  | .reg n => b = s.readV n
  | .mem m => Aligned i s m ∧ OperandAdmitted i s m ∧ b = memValue s (operandAddr i s m) (operandBytes i)

/-- The last source operands of two instructions are the same register, or memory at the same address. -/
def SameSource (i i' : Instr) (s : State) : Prop :=
  match srcOf i, srcOf i' with
  | .reg n, .reg n' => n = n'
  | .mem m, .mem m' => operandAddr i s m = operandAddr i' s m'
  | .reg _, .mem _ => False
  | .mem _, .reg _ => False

/-- `i` is one of the six EVEX instructions with operands `o`. -/
def IsEvex (i : Instr) (o : EvexOps) : Prop :=
  i = .vpmulldEvex128 o ∨ i = .vpmulldEvex256 o ∨ i = .vpmulldEvex512 o ∨
  i = .vpmullqEvex128 o ∨ i = .vpmullqEvex256 o ∨ i = .vpmullqEvex512 o

/-- `t` follows `s` by an instruction that completes, with VL = `vl` and the upper bits zeroed (R18), elements of `ew` bits
given by `e`, and nothing else changed (R26, R32). The instruction pointer advances modulo 2^64 (log 26). -/
def WritesZeroing (i : Instr) (dest : VReg) (vl ew : Nat) (e : Nat → BitVec ew) (s t : State) : Prop :=
  (∀ j, j < vl / ew → elem ew (t.readV dest) j = e j) ∧
  (∀ n, vl ≤ n → (t.readV dest).getLsbD n = false) ∧
  t.pc = s.pc + BitVec.ofNat 64 i.ilen ∧ FrameV dest s t

/-- The VEX instruction `mk o` completes with the result of R91 or R92. -/
def VexResult (mk : VexOps → Instr) (vl : Nat) : Prop :=
  ∀ (o : VexOps) (s : State) (b : Vec), Ready (instrForm (mk o)) s → SourceIs (mk o) s b →
    ∃ t, exec (mk o) s = .next t ∧
      WritesZeroing (mk o) o.dest vl 32 (fun j => mullo (elem 32 (s.readV o.src1) j) (elem 32 b j)) s t

/-- The EVEX instruction `mk o` completes with the result of R96, R97 and R98. -/
def EvexResult (mk : EvexOps → Instr) (vl ew : Nat) : Prop :=
  ∀ (o : EvexOps) (s : State) (b : Vec), Ready (instrForm (mk o)) s → NotReserved o → SourceIs (mk o) s b →
    ∃ t, exec (mk o) s = .next t ∧
      WritesZeroing (mk o) o.dest vl ew
        (fun j =>
          if maskOn s o.mask j = true then
            mullo (elem ew (s.readV o.src1) j) (elem ew b (if o.bcst = true then 0 else j))
          else if o.zeroing = true then 0#ew
          else elem ew (s.readV o.dest) j) s t

/-- The outcome with its next state changed by `g`; a fault and a refusal as they are. -/
def mapNext (g : State → State) : Out → Out
  | .next t => .next (g t)
  | .fault r => .fault r
  | .refused r => .refused r

/-! ## The encoding in numbers (R59, R61, R64, R68, R74, R75, R80) -/

/-- The bytes a row's pattern asks for, written from the byte layouts of R61, R64 and R68: the fixed bytes, the high half of a
REX byte, map and pp and L of a VEX prefix, map and pp and W and L'L of an EVEX prefix. -/
def RowPattern (r : Row) (bs : List Byte) : Prop :=
  match r with
  | .legacy => ∃ rest, bs = 0x66#8 :: 0x0F#8 :: 0x38#8 :: 0x40#8 :: rest
  | .legacyRex => ∃ rex rest, bs = 0x66#8 :: rex :: 0x0F#8 :: 0x38#8 :: 0x40#8 :: rest ∧ rex.toNat / 16 = 4
  | .vex128 => VexPattern 0 bs
  | .vex256 => VexPattern 1 bs
  | .evexD128 => EvexPattern 0 0 bs
  | .evexD256 => EvexPattern 0 1 bs
  | .evexD512 => EvexPattern 0 2 bs
  | .evexQ128 => EvexPattern 1 0 bs
  | .evexQ256 => EvexPattern 1 1 bs
  | .evexQ512 => EvexPattern 1 2 bs
where
  /-- A VEX form with L = `l` (R64): map 00010, pp 01. -/
  VexPattern (l : Nat) (bs : List Byte) : Prop :=
    ∃ b1 b2 rest, bs = 0xC4#8 :: b1 :: b2 :: 0x40#8 :: rest ∧
      b1.toNat % 32 = 2 ∧ b2.toNat % 4 = 1 ∧ b2.toNat / 4 % 2 = l
  /-- An EVEX form with W = `w` and L'L = `ll` (R68): P0 bits 3:0 = 0010, P1 bits 2:0 = 101. -/
  EvexPattern (w ll : Nat) (bs : List Byte) : Prop :=
    ∃ p0 p1 p2 rest, bs = 0x62#8 :: p0 :: p1 :: p2 :: 0x40#8 :: rest ∧
      p0.toNat % 16 = 2 ∧ p1.toNat % 8 = 5 ∧ p1.toNat / 128 = w ∧ p2.toNat / 32 % 4 = ll

/-- The EVEX family of R80: P0 bits 1:0 = 10 and P1 bits 1:0 = 01. -/
def InFamily (bs : List Byte) : Prop :=
  ∃ p0 p1 p2 rest, bs = 0x62#8 :: p0 :: p1 :: p2 :: 0x40#8 :: rest ∧ p0.toNat % 4 = 2 ∧ p1.toNat % 4 = 1

/-- Displacement bytes a ModRM.mod and the low base bits announce: `base` is rm, or SIB.base where there is a SIB byte
(R59, R74). -/
def rawDispLen (mod base : Nat) : Nat := if mod = 1 then 1 else if mod = 2 then 4 else if base = 5 then 4 else 0

/-- The number of bytes after ModRM: SIB and displacement (R59, R74). -/
def rawTail (modrm : Nat) (bs : List Byte) : Nat :=
  if modrm / 64 = 3 then 0
  else if modrm % 8 = 4 then
    match bs with
    | [] => 1
    | sib :: _ => 1 + rawDispLen (modrm / 64) (sib.toNat % 8)
  else rawDispLen (modrm / 64) (modrm % 8)

/-- The little-endian number in the first `n` bytes. -/
def rawNat : (n : Nat) → List Byte → Nat
  | 0, _ => 0
  | _ + 1, [] => 0
  | n + 1, b :: bs => b.toNat + 256 * rawNat n bs

/-- R75's `disp` after ModRM (and SIB): 0, a scaled byte, or four bytes. -/
def rawDisp (mod scaleN : Nat) (bs : List Byte) : Word :=
  if mod = 1 then (BitVec.ofNat 8 (rawNat 1 bs)).signExtend 64 * BitVec.ofNat 64 scaleN
  else if mod = 2 then (BitVec.ofNat 32 (rawNat 4 bs)).signExtend 64
  else 0#64

/-- R75's `sext(disp32)`. -/
def rawDisp32 (bs : List Byte) : Word := (BitVec.ofNat 32 (rawNat 4 bs)).signExtend 64

/-- A general register by number (R25). -/
def xNat (s : State) (n : Nat) : Word := s.readX (BitVec.ofNat 4 n)

/-- R75's index term of a SIB byte. -/
def rawTerm (s : State) (x : Bool) (sib : Nat) : Word :=
  if 8 * x.toNat + sib / 8 % 8 = 4 then 0#64 else xNat s (8 * x.toNat + sib / 8 % 8) <<< (sib / 64)

/-- R75's algorithm on the extension bits `x` and `b`, the ModRM byte and the bytes after it, as numbers. -/
def rawAddr (s : State) (scaleN ilen : Nat) (x b : Bool) (modrm : Nat) (bs : List Byte) : Word :=
  if modrm % 8 ≠ 4 then
    if modrm / 64 = 0 ∧ modrm % 8 = 5 then (s.pc + BitVec.ofNat 64 ilen) + rawDisp32 bs
    else xNat s (8 * b.toNat + modrm % 8) + rawDisp (modrm / 64) scaleN bs
  else
    match bs with
    | [] => 0#64
    | sib :: rest =>
      if sib.toNat % 8 = 5 ∧ modrm / 64 = 0 then rawTerm s x sib.toNat + rawDisp32 rest
      else xNat s (8 * b.toNat + sib.toNat % 8) + rawTerm s x sib.toNat + rawDisp (modrm / 64) scaleN rest

end Sys2Proof.Machine
end

