-- ==== Sys2Proof/Certificates/Slice0/Obligations.lean ====
section
/-! DEFINITION. The statements for the provers. Each docstring names the rules of spec/ it formalises. -/

open Sys2Proof Sys2Proof.Machine

/-! ## Encoding and decoding -/

/-- Decoding the canonical bytes of any well-formed instruction gives it back, with the bytes after it, at every operand
value (R61, R62, R64, R65, R68, R69, R72, R74). -/
def Obligations.DecodeOfEncodeIsIdentity : Prop :=
  ∀ (i : Instr) (rest : List Byte), i.wellFormed = true → decode (encode i ++ rest) = .instr i rest

/-- The canonical encoding, with ignored bits 0 (the model's choice, log 22), has the length R59 gives. -/
def Obligations.EncodeLengthIsIlen : Prop :=
  ∀ i : Instr, (encode i).length = i.ilen

/-- Whatever decodes to an instruction decodes to a well-formed one and uses exactly its `ilen` bytes (R16, R59, R72, R74). -/
def Obligations.DecodedIsWellFormedOfItsLength : Prop :=
  ∀ (bs rest : List Byte) (i : Instr), decode bs = .instr i rest →
    i.wellFormed = true ∧ i.ilen ≤ bs.length ∧ rest = bs.drop i.ilen

/-- No bytes match two different rows of the opcode table (R78). -/
def Obligations.OpcodeRowsNeverOverlap : Prop :=
  ∀ (bs : List Byte) (r r' : Row), r.fits bs = true → r'.fits bs = true → r = r'

/-- A decoded instruction begins with 66 (legacy), C4 (VEX) or 62 (EVEX) (R57). -/
def Obligations.FirstByteDecidesKind : Prop :=
  ∀ (bs rest : List Byte) (i : Instr), decode bs = .instr i rest →
    bs.head? = some (match formKind (instrForm i) with
      | .legacy => 0x66#8
      | .vex => 0xC4#8
      | .evex => 0x62#8)

/-- Register numbers of the legacy form (R62), as numbers read from the REX and ModRM bytes; with mod not 11 the operand is
memory whose address is R75's; the length is R59's; and with any REX byte (W = 1 among them) and any ModRM the bytes decode when
they are as many as that. -/
def Obligations.LegacyFieldsReadRight : Prop :=
  ∀ (rex modrm : Byte) (bs rest : List Byte) (i : Instr),
    (decode (0x66#8 :: 0x0F#8 :: 0x38#8 :: 0x40#8 :: modrm :: bs) = .instr i rest →
      ∃ o, i = .pmulld o ∧ o.dest.toNat = modrm.toNat / 8 % 8 ∧
        (modrm.toNat / 64 = 3 → o.src2 = .reg (BitVec.ofNat 5 (modrm.toNat % 8))) ∧
        (modrm.toNat / 64 ≠ 3 → ∃ m, o.src2 = .mem m ∧
          ∀ s, operandAddr i s m = rawAddr s 1 i.ilen false false modrm.toNat bs)) ∧
    (rawTail modrm.toNat bs ≤ bs.length →
      ∃ j rest', decode (0x66#8 :: 0x0F#8 :: 0x38#8 :: 0x40#8 :: modrm :: bs) = .instr j rest' ∧
        j.ilen = 5 + rawTail modrm.toNat bs) ∧
    (rex.toNat / 16 = 4 → rawTail modrm.toNat bs ≤ bs.length →
      ∃ j rest', decode (0x66#8 :: rex :: 0x0F#8 :: 0x38#8 :: 0x40#8 :: modrm :: bs) = .instr j rest' ∧
        j.ilen = 6 + rawTail modrm.toNat bs) ∧
    (rex.toNat / 16 = 4 →
      decode (0x66#8 :: rex :: 0x0F#8 :: 0x38#8 :: 0x40#8 :: modrm :: bs) = .instr i rest →
      ∃ o, i = .pmulldRex o ∧
        o.dest.toNat = 8 * (rex.getLsbD 2).toNat + modrm.toNat / 8 % 8 ∧
        (modrm.toNat / 64 = 3 →
          o.src2 = .reg (BitVec.ofNat 5 (8 * (rex.getLsbD 0).toNat + modrm.toNat % 8))) ∧
        (modrm.toNat / 64 ≠ 3 → ∃ m, o.src2 = .mem m ∧
          ∀ s, operandAddr i s m = rawAddr s 1 i.ilen (rex.getLsbD 1) (rex.getLsbD 0) modrm.toNat bs))

/-- Form and register numbers of a VEX form (R64, R65), as numbers read from VEX bytes 1 and 2 and ModRM, whose stored R, X,
B and vvvv are inverted; with mod not 11 the operand is memory whose address is R75's; the length is R59's; and with map
00010 and pp 01 the bytes decode, whatever R, X, B, W, vvvv, L and ModRM, when they are as many as that. -/
def Obligations.VexFieldsReadRight : Prop :=
  (∀ (b1 b2 modrm : Byte) (bs : List Byte), b1.toNat % 32 = 2 → b2.toNat % 4 = 1 → rawTail modrm.toNat bs ≤ bs.length →
    ∃ i rest, decode (0xC4#8 :: b1 :: b2 :: 0x40#8 :: modrm :: bs) = .instr i rest ∧
      i.ilen = 5 + rawTail modrm.toNat bs) ∧
  ∀ (b1 b2 modrm : Byte) (bs rest : List Byte) (i : Instr),
    decode (0xC4#8 :: b1 :: b2 :: 0x40#8 :: modrm :: bs) = .instr i rest →
    ∃ o, i = (if b2.getLsbD 2 then .vpmulldVex256 o else .vpmulldVex128 o) ∧
      o.dest.toNat = 8 * (!b1.getLsbD 7).toNat + modrm.toNat / 8 % 8 ∧
      o.src1.toNat = 15 - b2.toNat / 8 % 16 ∧
      (modrm.toNat / 64 = 3 → o.src2 = .reg (BitVec.ofNat 5 (8 * (!b1.getLsbD 5).toNat + modrm.toNat % 8))) ∧
      (modrm.toNat / 64 ≠ 3 → ∃ m, o.src2 = .mem m ∧
        ∀ s, operandAddr i s m = rawAddr s 1 i.ilen (!b1.getLsbD 6) (!b1.getLsbD 5) modrm.toNat bs)

/-- Form, register numbers, mask, zeroing and broadcast of an EVEX form (R68 to R73), as numbers read from P0, P1, P2 and
ModRM, whose stored R, X, B, Rh, vvvv and Vh are inverted; with mod not 11 the operand is memory whose address is
R75's with the displacement scaled as R76 says; the length is R59's; and with the fixed bits of R68 and L'L not 11
the bytes decode, whatever the other bits and ModRM, when they are as many as that. -/
def Obligations.EvexFieldsReadRight : Prop :=
  (∀ (p0 p1 p2 modrm : Byte) (bs : List Byte), p0.toNat % 16 = 2 → p1.toNat % 8 = 5 → p2.toNat / 32 % 4 ≠ 3 →
    rawTail modrm.toNat bs ≤ bs.length →
    ∃ i rest, decode (0x62#8 :: p0 :: p1 :: p2 :: 0x40#8 :: modrm :: bs) = .instr i rest ∧
      i.ilen = 6 + rawTail modrm.toNat bs) ∧
  ∀ (p0 p1 p2 modrm : Byte) (bs rest : List Byte) (i : Instr),
    decode (0x62#8 :: p0 :: p1 :: p2 :: 0x40#8 :: modrm :: bs) = .instr i rest →
    ∃ o : EvexOps, i = (match p1.getLsbD 7, p2.toNat / 32 % 4 with
        | false, 0 => .vpmulldEvex128 o
        | false, 1 => .vpmulldEvex256 o
        | false, _ => .vpmulldEvex512 o
        | true, 0 => .vpmullqEvex128 o
        | true, 1 => .vpmullqEvex256 o
        | true, _ => .vpmullqEvex512 o) ∧
      o.dest.toNat = 16 * (!p0.getLsbD 4).toNat + 8 * (!p0.getLsbD 7).toNat + modrm.toNat / 8 % 8 ∧
      o.src1.toNat = 16 * (!p2.getLsbD 3).toNat + (15 - p1.toNat / 8 % 16) ∧
      o.zeroing = p2.getLsbD 7 ∧ o.bcst = p2.getLsbD 4 ∧
      o.mask = (if p2.toNat % 8 = 0 then none else some (BitVec.ofNat 3 (p2.toNat % 8))) ∧
      (modrm.toNat / 64 = 3 →
        o.src2 = .reg (BitVec.ofNat 5
          (16 * (!p0.getLsbD 6).toNat + 8 * (!p0.getLsbD 5).toNat + modrm.toNat % 8))) ∧
      (modrm.toNat / 64 ≠ 3 → ∃ m, o.src2 = .mem m ∧
        ∀ s, operandAddr i s m = rawAddr s (operandBytes i) i.ilen (!p0.getLsbD 6) (!p0.getLsbD 5) modrm.toNat bs)

/-- VEX.W is ignored: with W = 1 and with W = 0 the bytes decode alike; so do R66's two examples, to VPMULLD xmm1, xmm2,
xmm3; the encoder writes W = 0; and no VEX encoding is a VPMULLQ (R66). -/
def Obligations.VexWIsIgnored : Prop :=
  (∀ (b1 b2 : Byte) (bs : List Byte),
    decode (0xC4#8 :: b1 :: b2 :: bs) = decode (0xC4#8 :: b1 :: (b2 ^^^ 0x80#8) :: bs)) ∧
  decode [0xC4#8, 0xE2#8, 0x69#8, 0x40#8, 0xCB#8] = .instr (.vpmulldVex128 ⟨1#5, 2#5, .reg 3#5⟩) [] ∧
  decode [0xC4#8, 0xE2#8, 0xE9#8, 0x40#8, 0xCB#8] = .instr (.vpmulldVex128 ⟨1#5, 2#5, .reg 3#5⟩) [] ∧
  (∀ i : Instr, formKind (instrForm i) = .vex → ((encode i).getD 2 0#8).getLsbD 7 = false) ∧
  ∀ (bs rest : List Byte) (i : Instr), decode (0xC4#8 :: bs) = .instr i rest →
    formKind (instrForm i) = .vex ∧ formEW (instrForm i) = 32

/-- Words written out from the spec's encodings decode to what they stand for: one of each family (R59, R76, R87, R92,
R101, R109). -/
def Obligations.SampleWordsDecodeRight : Prop :=
  decode [0x66#8, 0x0F#8, 0x38#8, 0x40#8, 0xCA#8] = .instr (.pmulld ⟨1#5, .reg 2#5⟩) [] ∧
  decode [0xC4#8, 0xE2#8, 0x6D#8, 0x40#8, 0xCB#8] = .instr (.vpmulldVex256 ⟨1#5, 2#5, .reg 3#5⟩) [] ∧
  decode [0x62#8, 0xF2#8, 0x6D#8, 0x0A#8, 0x40#8, 0xCB#8] =
    .instr (.vpmulldEvex128 ⟨1#5, 2#5, .reg 3#5, false, some 2#3, false⟩) [] ∧
  decode [0x62#8, 0xF2#8, 0x6D#8, 0x48#8, 0x40#8, 0x88#8, 0x04#8, 0x00#8, 0x00#8, 0x00#8] =
    .instr (.vpmulldEvex512 ⟨1#5, 2#5, .mem (.base 0#4 (.d32 4#32)), false, none, false⟩) [] ∧
  decode [0x62#8, 0xF2#8, 0xCD#8, 0x5F#8, 0x40#8, 0x6A#8, 0x01#8] =
    .instr (.vpmullqEvex512 ⟨5#5, 6#5, .mem (.base 2#4 (.d8 1#8)), true, some 7#3, false⟩) []

/-! ## The step -/

/-- A step runs the instruction the bytes at the instruction pointer decode to. -/
def Obligations.StepRunsDecodedInstruction : Prop :=
  ∀ (s : State) (i : Instr) (rest : List Byte), decode (fetch s) = .instr i rest → step s = exec i s

/-- One illegal prefix byte before a pattern raises #UD; F2 or F3 before the legacy form, and two or more prefix
bytes before a pattern, are refused (R79). -/
def Obligations.IllegalPrefixRaisesUd : Prop :=
  ∀ (s : State) (b : Byte) (bs : List Byte), fetch s = b :: bs →
    (b = 0xF0#8 → ((∃ r : Row, r.fits bs = true) ∨ evexFamily bs = true) → step s = .fault (.ud s.pc)) ∧
    (b = 0x66#8 ∨ b = 0xF2#8 ∨ b = 0xF3#8 ∨ b.toNat / 16 = 4 →
      ((∃ r : Row, r.kind ≠ .legacy ∧ r.fits bs = true) ∨ evexFamily bs = true) → step s = .fault (.ud s.pc)) ∧
    (b = 0xF2#8 ∨ b = 0xF3#8 → (∃ r : Row, r.kind = .legacy ∧ r.fits bs = true) → ∃ u, step s = .refused u) ∧
    (∀ pre cs : List Byte, b :: bs = pre ++ cs → 2 ≤ pre.length →
      (∀ c ∈ pre, c = 0xF0#8 ∨ c = 0x66#8 ∨ c = 0xF2#8 ∨ c = 0xF3#8 ∨ c.toNat / 16 = 4) →
      ((∃ r : Row, r.fits cs = true) ∨ evexFamily cs = true) → ∃ u, step s = .refused u)

/-- Inside the EVEX family pattern, a reserved value of P0 bits 3:2, of P1 bit 2 or of L'L raises #UD; every other value
matches one of the six rows (R80). -/
def Obligations.EvexReservedFieldRaisesUd : Prop :=
  ∀ (s : State) (p0 p1 p2 : Byte) (bs : List Byte), fetch s = 0x62#8 :: p0 :: p1 :: p2 :: 0x40#8 :: bs →
    p0.toNat % 4 = 2 → p1.toNat % 4 = 1 →
    ((p0.toNat / 4 % 4 ≠ 0 ∨ p1.toNat / 4 % 2 = 0 ∨ p2.toNat / 32 % 4 = 3) → step s = .fault (.ud s.pc)) ∧
    (p0.toNat / 4 % 4 = 0 → p1.toNat / 4 % 2 = 1 → p2.toNat / 32 % 4 ≠ 3 →
      ∃ r : Row, r.kind = .evex ∧ r.fits (fetch s) = true)

/-- Bytes that match no row and not the EVEX family, that are no row or family behind F0, and no VEX row, EVEX row or family behind
66, F2, F3 or a REX byte (R79's words), are refused by name. Each under a name of its own: bytes that begin with a
segment override, with the 67 prefix, with the two-byte VEX prefix, with 0F 38 40 (R81; the names are the model's
choice, log 17). -/
def Obligations.UnlistedBytesAreRefused : Prop :=
  ∀ (s : State),
    ((∀ r : Row, ¬ RowPattern r (fetch s)) → ¬ InFamily (fetch s) →
      (∀ (b : Byte) (bs : List Byte), fetch s = b :: bs →
        (b = 0xF0#8 → (∀ r : Row, ¬ RowPattern r bs) ∧ ¬ InFamily bs) ∧
        (b = 0x66#8 ∨ b = 0xF2#8 ∨ b = 0xF3#8 ∨ b.toNat / 16 = 4 →
          (∀ r : Row, r.kind ≠ .legacy → ¬ RowPattern r bs) ∧ ¬ InFamily bs)) →
      ∃ u, step s = .refused (.unlistedEncoding u)) ∧
    (∀ (b : Byte) (bs : List Byte), fetch s = b :: bs →
      (b ∈ [0x2E#8, 0x36#8, 0x3E#8, 0x26#8, 0x64#8, 0x65#8] → step s = .refused (.unlistedEncoding .segmentOverride)) ∧
      (b = 0x67#8 → step s = .refused (.unlistedEncoding .addressSize)) ∧
      (b = 0xC5#8 → step s = .refused (.unlistedEncoding .twoByteVex)) ∧
      (bs.take 2 = [0x38#8, 0x40#8] → b = 0x0F#8 → step s = .refused (.unlistedEncoding .missing66)))

/-- An instruction whose bytes would cross 2^64 is refused: when the bytes that can be fetched are fewer than those of the
instruction they begin, whatever the bytes that would follow and in whichever encoding, the step neither completes nor
faults (R26). -/
def Obligations.CrossingTopIsRefused : Prop :=
  ∀ (s : State) (i : Instr) (more rest : List Byte), decode (fetch s ++ more) = .instr i rest →
    (fetch s).length < i.ilen → ∃ u, step s = .refused u

/-! ## What each instruction computes -/

/-- PMULLD (both rows) completes with four dword products in bits 127:0 of the destination, its bits from 128 to MAXVL-1
unchanged, the instruction pointer advanced, and nothing else changed, for a register or an aligned, admitted memory
source (R18, R26, R43, R87).
The instruction pointer advances modulo 2^64 (log 26). -/
def Obligations.PmulldResult : Prop :=
  ∀ (i : Instr) (o : LegacyOps) (s : State) (b : Vec), i = .pmulld o ∨ i = .pmulldRex o →
    Ready .pmulld s → SourceIs i s b →
    ∃ t, exec i s = .next t ∧
      (∀ j, j < 4 → elem 32 (t.readV o.dest) j = mullo (elem 32 (s.readV o.dest) j) (elem 32 b j)) ∧
      (∀ n, 128 ≤ n → n < maxvl s.cfg → (t.readV o.dest).getLsbD n = (s.readV o.dest).getLsbD n) ∧
      t.pc = s.pc + BitVec.ofNat 64 i.ilen ∧ FrameV o.dest s t

/-- VPMULLD xmm1, xmm2, xmm3/m128 (VEX.128) completes with four dword products and zeros above (R18, R44, R91).
The instruction pointer advances modulo 2^64 (log 26). -/
def Obligations.VpmulldVex128Result : Prop := VexResult .vpmulldVex128 128

/-- VPMULLD ymm1, ymm2, ymm3/m256 (VEX.256) completes with eight dword products and zeros above (R18, R44, R92).
The instruction pointer advances modulo 2^64 (log 26). -/
def Obligations.VpmulldVex256Result : Prop := VexResult .vpmulldVex256 256

/-- VPMULLD EVEX.128 completes with four masked dword products and zeros above (R18, R96, R97, R98, R101).
The instruction pointer advances modulo 2^64 (log 26). -/
def Obligations.VpmulldEvex128Result : Prop := EvexResult .vpmulldEvex128 128 32

/-- VPMULLD EVEX.256 completes with eight masked dword products and zeros above (R18, R96, R97, R98, R102).
The instruction pointer advances modulo 2^64 (log 26). -/
def Obligations.VpmulldEvex256Result : Prop := EvexResult .vpmulldEvex256 256 32

/-- VPMULLD EVEX.512 completes with sixteen masked dword products (R96, R97, R98, R103).
The instruction pointer advances modulo 2^64 (log 26). -/
def Obligations.VpmulldEvex512Result : Prop := EvexResult .vpmulldEvex512 512 32

/-- VPMULLQ EVEX.128 completes with two masked qword products and zeros above (R18, R96, R97, R98, R107).
The instruction pointer advances modulo 2^64 (log 26). -/
def Obligations.VpmullqEvex128Result : Prop := EvexResult .vpmullqEvex128 128 64

/-- VPMULLQ EVEX.256 completes with four masked qword products and zeros above (R18, R96, R97, R98, R108).
The instruction pointer advances modulo 2^64 (log 26). -/
def Obligations.VpmullqEvex256Result : Prop := EvexResult .vpmullqEvex256 256 64

/-- VPMULLQ EVEX.512 completes with eight masked qword products (R96, R97, R98, R109).
The instruction pointer advances modulo 2^64 (log 26). -/
def Obligations.VpmullqEvex512Result : Prop := EvexResult .vpmullqEvex512 512 64

/-- The element product is the product modulo 2^N, and equals the low N bits of the 2N-bit product whether the operands are
read as signed or as unsigned (R13). -/
def Obligations.MulloIsLowHalfSignedOrUnsigned : Prop :=
  ∀ (n : Nat) (a b : BitVec n),
    (mullo a b).toNat = (a.toNat * b.toNat) % 2 ^ n ∧
    mullo a b = (a.signExtend (2 * n) * b.signExtend (2 * n)).setWidth n ∧
    mullo a b = (a.setWidth (2 * n) * b.setWidth (2 * n)).setWidth n ∧
    mullo a b = BitVec.ofInt n (a.toInt * b.toInt)

/-- Every row of R18's table: what the bits above VL of the destination hold when an instruction completes. -/
def Obligations.UpperBitsOfDestination : Prop :=
  ∀ (i : Instr) (s t : State), exec i s = .next t → ∀ n, formVL (instrForm i) ≤ n → n < maxvl s.cfg →
    (t.readV (instrDest i)).getLsbD n =
      (match formKind (instrForm i) with
       | .legacy => (s.readV (instrDest i)).getLsbD n
       | .vex => false
       | .evex => false)

/-- An instruction with KL elements looks at bits KL-1:0 of its mask register and at no others: replacing every opmask register by
one that agrees with it on those bits changes neither the outcome nor what is written (R22). -/
def Obligations.MaskBitsFromKlUpAreIgnored : Prop :=
  ∀ (i : Instr) (s : State) (k' : Vector Word 8),
    (∀ (a : KReg) (j : Nat), j < formKL (instrForm i) →
      ({ s with k := k' }.readK a).getLsbD j = (s.readK a).getLsbD j) →
    exec i { s with k := k' } = mapNext (fun t => { t with k := k' }) (exec i s)

/-- With no mask, and a register source or full memory at the same address, the EVEX.128 and EVEX.256 forms of VPMULLD write the
same destination value as the VEX forms (R78, R101). -/
def Obligations.UnmaskedEvexEqualsVex : Prop :=
  ∀ (d s1 : VReg) (a b : Src2) (s t t' : State),
    (SameSource (.vpmulldVex128 ⟨d, s1, a⟩) (.vpmulldEvex128 ⟨d, s1, b, false, none, false⟩) s →
      exec (.vpmulldVex128 ⟨d, s1, a⟩) s = .next t →
      exec (.vpmulldEvex128 ⟨d, s1, b, false, none, false⟩) s = .next t' → t'.readV d = t.readV d) ∧
    (SameSource (.vpmulldVex256 ⟨d, s1, a⟩) (.vpmulldEvex256 ⟨d, s1, b, false, none, false⟩) s →
      exec (.vpmulldVex256 ⟨d, s1, a⟩) s = .next t →
      exec (.vpmulldEvex256 ⟨d, s1, b, false, none, false⟩) s = .next t' → t'.readV d = t.readV d)

/-- When every mask bit in KL-1:0 is 0, an EVEX instruction with a register source, or with FAULT_SUPPRESSION and any memory
operand, completes: under merging the low VL bits keep their value, under zeroing they are 0, and the bits above
VL are 0 either way (R18, R40, R97, R99).
The instruction pointer advances modulo 2^64 (log 26). -/
def Obligations.AllMaskedOffCompletes : Prop :=
  ∀ (i : Instr) (o : EvexOps) (s : State) (a : KReg), IsEvex i o → Ready (instrForm i) s → NotReserved o →
    o.mask = some a → (∀ j, j < formKL (instrForm i) → (s.readK a).getLsbD j = false) →
    ((∃ n, o.src2 = .reg n) ∨ s.cfg.faultSuppression = true) →
    ∃ t, exec i s = .next t ∧ t.pc = s.pc + BitVec.ofNat 64 i.ilen ∧ FrameV o.dest s t ∧
      (o.zeroing = true → t.readV o.dest = 0#512) ∧
      (o.zeroing = false → ∀ n, (t.readV o.dest).getLsbD n =
        (decide (n < formVL (instrForm i)) && (s.readV o.dest).getLsbD n))

/-- A memory operand is little-endian: byte i of the value is the byte at a + i modulo 2^64, nothing stands above; element j of
EW bits therefore lies at bytes a + (EW/8)*j and up; and a dword is the low or high half of its qword (R38, R41, R42). -/
def Obligations.MemoryOperandIsLittleEndian : Prop :=
  ∀ (s : State) (a : Word) (n : Nat), n ≤ 64 →
    (∀ i, i < n → (memValue s a n).extractLsb' (8 * i) 8 = s.mem.byte ((a.toNat + i) % 2 ^ 64)) ∧
    (∀ i, 8 * n ≤ i → (memValue s a n).getLsbD i = false) ∧
    (∀ j i, 4 * j + i < n → i < 4 →
      (elem 32 (memValue s a n) j).extractLsb' (8 * i) 8 = s.mem.byte ((a.toNat + (4 * j + i)) % 2 ^ 64)) ∧
    (∀ j i, 8 * j + i < n → i < 8 →
      (elem 64 (memValue s a n) j).extractLsb' (8 * i) 8 = s.mem.byte ((a.toNat + (8 * j + i)) % 2 ^ 64)) ∧
    (∀ j, elem 32 (memValue s a n) (2 * j) = (elem 64 (memValue s a n) j).extractLsb' 0 32 ∧
      elem 32 (memValue s a n) (2 * j + 1) = (elem 64 (memValue s a n) j).extractLsb' 32 32)

/-! ## The intrinsics -/

/-- The unmasked dword intrinsics compute what PMULLD, VPMULLD VEX.128 and VPMULLD VEX.256 leave in the destination, and
_mm_mullo_epi32 and _mm256_mullo_epi32 do not depend on the order of their arguments (R86, R88, R93). -/
def Obligations.UnmaskedDwordIntrinsicsAgree : Prop :=
  ∀ (d s1 n : VReg) (s : State),
    (Ready .pmulld s → ∃ t, exec (.pmulld ⟨d, .reg n⟩) s = .next t ∧
      (t.readV d).setWidth 128 = mm_mullo_epi32 ((s.readV d).setWidth 128) ((s.readV n).setWidth 128) ∧
      (t.readV d).setWidth 128 = mm_mullo_epi32 ((s.readV n).setWidth 128) ((s.readV d).setWidth 128)) ∧
    (Ready .vpmulldVex128 s → ∃ t, exec (.vpmulldVex128 ⟨d, s1, .reg n⟩) s = .next t ∧
      (t.readV d).setWidth 128 = mm_mullo_epi32 ((s.readV s1).setWidth 128) ((s.readV n).setWidth 128) ∧
      (t.readV d).setWidth 128 = mm_mullo_epi32 ((s.readV n).setWidth 128) ((s.readV s1).setWidth 128)) ∧
    (Ready .vpmulldVex256 s → ∃ t, exec (.vpmulldVex256 ⟨d, s1, .reg n⟩) s = .next t ∧
      (t.readV d).setWidth 256 = mm256_mullo_epi32 ((s.readV s1).setWidth 256) ((s.readV n).setWidth 256) ∧
      (t.readV d).setWidth 256 = mm256_mullo_epi32 ((s.readV n).setWidth 256) ((s.readV s1).setWidth 256))

/-- The seven intrinsics of the EVEX forms of VPMULLD compute what those forms leave in the low VL bits of the destination (R86,
R104). -/
def Obligations.EvexDwordIntrinsicsAgree : Prop :=
  ∀ (d s1 n : VReg) (a : KReg) (s : State),
    (Ready .vpmulldEvex512 s →
      (∃ t, exec (.vpmulldEvex512 ⟨d, s1, .reg n, false, none, false⟩) s = .next t ∧
        t.readV d = mm512_mullo_epi32 (s.readV s1) (s.readV n)) ∧
      (∃ t, exec (.vpmulldEvex512 ⟨d, s1, .reg n, false, some a, false⟩) s = .next t ∧
        t.readV d = mm512_mask_mullo_epi32 (s.readV d) ((s.readK a).setWidth 16) (s.readV s1) (s.readV n)) ∧
      (∃ t, exec (.vpmulldEvex512 ⟨d, s1, .reg n, false, some a, true⟩) s = .next t ∧
        t.readV d = mm512_maskz_mullo_epi32 ((s.readK a).setWidth 16) (s.readV s1) (s.readV n))) ∧
    (Ready .vpmulldEvex256 s →
      (∃ t, exec (.vpmulldEvex256 ⟨d, s1, .reg n, false, some a, false⟩) s = .next t ∧
        (t.readV d).setWidth 256 = mm256_mask_mullo_epi32 ((s.readV d).setWidth 256) ((s.readK a).setWidth 8)
          ((s.readV s1).setWidth 256) ((s.readV n).setWidth 256)) ∧
      (∃ t, exec (.vpmulldEvex256 ⟨d, s1, .reg n, false, some a, true⟩) s = .next t ∧
        (t.readV d).setWidth 256 = mm256_maskz_mullo_epi32 ((s.readK a).setWidth 8)
          ((s.readV s1).setWidth 256) ((s.readV n).setWidth 256))) ∧
    (Ready .vpmulldEvex128 s →
      (∃ t, exec (.vpmulldEvex128 ⟨d, s1, .reg n, false, some a, false⟩) s = .next t ∧
        (t.readV d).setWidth 128 = mm_mask_mullo_epi32 ((s.readV d).setWidth 128) ((s.readK a).setWidth 8)
          ((s.readV s1).setWidth 128) ((s.readV n).setWidth 128)) ∧
      (∃ t, exec (.vpmulldEvex128 ⟨d, s1, .reg n, false, some a, true⟩) s = .next t ∧
        (t.readV d).setWidth 128 = mm_maskz_mullo_epi32 ((s.readK a).setWidth 8)
          ((s.readV s1).setWidth 128) ((s.readV n).setWidth 128)))

/-- The nine intrinsics labelled VPMULLQ compute what its three forms leave in the low VL bits of the destination (R86, R110). -/
def Obligations.QwordIntrinsicsAgree : Prop :=
  ∀ (d s1 n : VReg) (a : KReg) (s : State),
    (Ready .vpmullqEvex512 s →
      (∃ t, exec (.vpmullqEvex512 ⟨d, s1, .reg n, false, none, false⟩) s = .next t ∧
        t.readV d = mm512_mullo_epi64 (s.readV s1) (s.readV n)) ∧
      (∃ t, exec (.vpmullqEvex512 ⟨d, s1, .reg n, false, some a, false⟩) s = .next t ∧
        t.readV d = mm512_mask_mullo_epi64 (s.readV d) ((s.readK a).setWidth 8) (s.readV s1) (s.readV n)) ∧
      (∃ t, exec (.vpmullqEvex512 ⟨d, s1, .reg n, false, some a, true⟩) s = .next t ∧
        t.readV d = mm512_maskz_mullo_epi64 ((s.readK a).setWidth 8) (s.readV s1) (s.readV n))) ∧
    (Ready .vpmullqEvex256 s →
      (∃ t, exec (.vpmullqEvex256 ⟨d, s1, .reg n, false, none, false⟩) s = .next t ∧
        (t.readV d).setWidth 256 = mm256_mullo_epi64 ((s.readV s1).setWidth 256) ((s.readV n).setWidth 256)) ∧
      (∃ t, exec (.vpmullqEvex256 ⟨d, s1, .reg n, false, some a, false⟩) s = .next t ∧
        (t.readV d).setWidth 256 = mm256_mask_mullo_epi64 ((s.readV d).setWidth 256) ((s.readK a).setWidth 8)
          ((s.readV s1).setWidth 256) ((s.readV n).setWidth 256)) ∧
      (∃ t, exec (.vpmullqEvex256 ⟨d, s1, .reg n, false, some a, true⟩) s = .next t ∧
        (t.readV d).setWidth 256 = mm256_maskz_mullo_epi64 ((s.readK a).setWidth 8)
          ((s.readV s1).setWidth 256) ((s.readV n).setWidth 256))) ∧
    (Ready .vpmullqEvex128 s →
      (∃ t, exec (.vpmullqEvex128 ⟨d, s1, .reg n, false, none, false⟩) s = .next t ∧
        (t.readV d).setWidth 128 = mm_mullo_epi64 ((s.readV s1).setWidth 128) ((s.readV n).setWidth 128)) ∧
      (∃ t, exec (.vpmullqEvex128 ⟨d, s1, .reg n, false, some a, false⟩) s = .next t ∧
        (t.readV d).setWidth 128 = mm_mask_mullo_epi64 ((s.readV d).setWidth 128) ((s.readK a).setWidth 8)
          ((s.readV s1).setWidth 128) ((s.readV n).setWidth 128)) ∧
      (∃ t, exec (.vpmullqEvex128 ⟨d, s1, .reg n, false, some a, true⟩) s = .next t ∧
        (t.readV d).setWidth 128 = mm_maskz_mullo_epi64 ((s.readK a).setWidth 8)
          ((s.readV s1).setWidth 128) ((s.readV n).setWidth 128)))

/-! ## Exceptions -/

/-- An instruction whose form is absent or not enabled raises #UD, whatever else holds (R30, R80, R117, R120). -/
def Obligations.UnusableFormRaisesUd : Prop :=
  ∀ (i : Instr) (s : State), ¬ Usable (instrForm i) s → exec i s = .fault (.ud s.pc)

/-- z = 1 with no mask, and b = 1 with a register, raise #UD, whatever else holds (R71, R73, R117, R120). -/
def Obligations.ReservedCombinationRaisesUd : Prop :=
  ∀ (i : Instr) (s : State), ¬ InstrNotReserved i → exec i s = .fault (.ud s.pc)

/-- #NM is raised when the form is present and enabled, its encoding not reserved, and CR0.TS is 1, before any alignment or memory
check; and never when TS is 0, as it is in the state a run starts from (R118, R120). -/
def Obligations.TaskSwitchedRaisesNm : Prop :=
  (∀ (i : Instr) (s : State), Usable (instrForm i) s → InstrNotReserved i → s.cr0.getLsbD 3 = true →
    exec i s = .fault (.nm s.pc)) ∧
  (∀ (i : Instr) (s : State) (r : Word), s.cr0.getLsbD 3 = false → exec i s ≠ .fault (.nm r)) ∧
  State.reset.cr0.getLsbD 3 = false

/-- The legacy form raises #GP(0) on a memory operand that is not 16-byte aligned, admitted or not; the VEX and EVEX
forms never raise the alignment #GP(0) (R43, R44, R120). -/
def Obligations.OnlyLegacyNeedsAlignment : Prop :=
  (∀ (i : Instr) (o : LegacyOps) (s : State) (m : MemOp), i = .pmulld o ∨ i = .pmulldRex o → Ready .pmulld s →
    o.src2 = .mem m → (operandAddr i s m).toNat % 16 ≠ 0 → exec i s = .fault (.gp0 s.pc)) ∧
  (∀ (i : Instr) (s : State) (r : Word), formKind (instrForm i) ≠ .legacy → exec i s ≠ .fault (.gp0 r))

/-- A memory operand of which a byte that must be admitted is not, and no byte is device memory, raises
MemFault with the operand's address and size (R40, R42, R119, R120; how the admitted bytes are given is the model's choice,
log 11). -/
def Obligations.InadmissibleOperandRaisesMemFault : Prop :=
  ∀ (i : Instr) (s : State) (m : MemOp), Ready (instrForm i) s → InstrNotReserved i → srcOf i = .mem m →
    Aligned i s m → ¬ OperandAdmitted i s m →
    (∀ j, j < operandBytes i → regionAt s.cfg ((operandAddr i s m).toNat + j) ≠ some .device) →
    ∃ r, exec i s = .fault (.memFault s.pc (operandAddr i s m) (operandBytes i) r)

/-- A memory operand that is not admitted only because some of its bytes are device memory is refused, not read: the model's
choice, log 13 (20_memory.md section 4, U15). -/
def Obligations.DeviceOperandIsRefused : Prop :=
  ∀ (i : Instr) (s : State) (m : MemOp), Ready (instrForm i) s → InstrNotReserved i → srcOf i = .mem m →
    Aligned i s m → ¬ OperandAdmitted i s m →
    (∀ j, j < operandBytes i →
      (operandAddr i s m).toNat + j < 2 ^ 64 ∧ canonical ((operandAddr i s m).toNat + j) = true ∧
      ∀ code, regionAt s.cfg ((operandAddr i s m).toNat + j) ≠ some (.pageFault code)) →
    exec i s = .refused .deviceMemory

/-- What a MemFault reports: #SS(0) or #GP(0) for a byte whose address is not canonical, by the operand's segment; #PF with CR2
at a byte of the operand whose translation fails, code bits W/R and I/D clear, and without fault suppression the first such
byte of an operand with no non-canonical byte; `wraps`, the model's name (log 12), only for an operand that reaches 2^64
(R75, R114, R119, R120). -/
def Obligations.MemFaultReportsTheCause : Prop :=
  ∀ (i : Instr) (s : State) (rip ea : Word) (n : Nat) (r : MemReport), exec i s = .fault (.memFault rip ea n r) →
    rip = s.pc ∧ n = operandBytes i ∧ ∃ m, srcOf i = .mem m ∧ ea = operandAddr i s m ∧
      match r with
      | .stackSegment => segmentOf m = .ss ∧ ∃ j, j < n ∧ canonical (ea.toNat + j) = false
      | .generalProtection => segmentOf m = .ds ∧ ∃ j, j < n ∧ canonical (ea.toNat + j) = false
      | .pageFault cr2 code =>
        code.getLsbD 1 = false ∧ code.getLsbD 4 = false ∧
        ∃ j b, j < n ∧ cr2 = BitVec.ofNat 64 (ea.toNat + j) ∧
          regionAt s.cfg (ea.toNat + j) = some (.pageFault b) ∧
          code.getLsbD 0 = b.p ∧ code.getLsbD 2 = b.us ∧ code.getLsbD 3 = b.rsvd ∧ code.getLsbD 5 = b.pk ∧
          (s.cfg.faultSuppression = false →
            (∀ j', j' < j → ∀ b', regionAt s.cfg (ea.toNat + j') ≠ some (.pageFault b')) ∧
            ∀ j', j' < n → canonical (ea.toNat + j') = true)
      | .wraps => 2 ^ 64 < ea.toNat + n

/-- A fault of a step names the address of the instruction the step began at (R26, R114, R121). -/
def Obligations.FaultNamesFaultingInstruction : Prop :=
  ∀ (s : State) (r : Fault), step s = .fault r → faultRip r = s.pc

/-- Vector numbers and error codes of the exceptions (R114). -/
def Obligations.ExceptionVectorsAndCodes : Prop :=
  ∀ (rip ea cr2 : Word) (n : Nat) (code : BitVec 6),
    (faultVector (.ud rip) = some 6 ∧ faultErrorCode (.ud rip) = none) ∧
    (faultVector (.nm rip) = some 7 ∧ faultErrorCode (.nm rip) = none) ∧
    (faultVector (.memFault rip ea n .stackSegment) = some 12 ∧
      faultErrorCode (.memFault rip ea n .stackSegment) = some 0#6) ∧
    (faultVector (.gp0 rip) = some 13 ∧ faultErrorCode (.gp0 rip) = some 0#6) ∧
    (faultVector (.memFault rip ea n .generalProtection) = some 13 ∧
      faultErrorCode (.memFault rip ea n .generalProtection) = some 0#6) ∧
    (faultVector (.memFault rip ea n (.pageFault cr2 code)) = some 14 ∧
      faultErrorCode (.memFault rip ea n (.pageFault cr2 code)) = some code)

/-- No form raises a SIMD floating-point exception (#XM, vector 19) or changes MXCSR (R112). -/
def Obligations.NoSimdFloatingPointException : Prop :=
  (∀ (i : Instr) (s : State) (r : Fault), exec i s = .fault r → faultVector r ≠ some 19) ∧
  (∀ (i : Instr) (s t : State), exec i s = .next t → t.mxcsr = s.mxcsr)

/-! ## What stays as it was -/

/-- Any instruction that completes changes its destination register and the instruction pointer and nothing else: in
particular no opmask register and no byte of memory (R37; R24). -/
def Obligations.ExecChangesOnlyDestination : Prop :=
  ∀ (i : Instr) (s t : State), exec i s = .next t → FrameV (instrDest i) s t

/-- The instruction pointer advances by the instruction's length when it completes (R26, R59), modulo 2^64 at the top of memory (the model's
choice, log 26). -/
def Obligations.PcAdvancesByIlen : Prop :=
  ∀ (i : Instr) (s t : State), exec i s = .next t → t.pc = s.pc + BitVec.ofNat 64 i.ilen

/-- No form reads or writes a status flag or MXCSR: with any other flags and MXCSR the outcome is the same and they are left as
they were (R27, R28). -/
def Obligations.FlagsNeitherReadNorWritten : Prop :=
  ∀ (i : Instr) (s : State) (fl : StatusFlags) (mx : BitVec 32),
    (∀ t, exec i s = .next t → flagsUntouched s t) ∧
    exec i { s with flags := fl, mxcsr := mx } =
      mapNext (fun t => { t with flags := fl, mxcsr := mx }) (exec i s)

/-- An instruction reads no byte of memory but those of its operand, and none at all when its last operand is a register: another
memory that agrees on those bytes gives the same outcome (R35, R46). -/
def Obligations.OnlyOperandBytesAreRead : Prop :=
  ∀ (i : Instr) (s : State) (mem' : Memory),
    (∀ m, srcOf i = .mem m → ∀ j, j < operandBytes i →
      mem'.byte (((operandAddr i s m).toNat + j) % 2 ^ 64) =
        s.mem.byte (((operandAddr i s m).toNat + j) % 2 ^ 64)) →
    exec i { s with mem := mem' } = mapNext (fun t => { t with mem := mem' }) (exec i s)

/-! ## Invariants and the constants of a run -/

/-- Every step keeps the invariant: canonical memory, no register bit at or above MAXVL or KW, nothing in registers that do
not exist (R11, R15, R16, R21, R36; the canonical form and the storage widths are the model's, logs 7 to 10). -/
def Obligations.StepKeepsInvariant : Prop :=
  ∀ s t : State, Inv s → step s = .next t → Inv t

/-- The launch state the model chose (logs 2 to 5 and 10) satisfies the invariant. -/
def Obligations.ResetSatisfiesInvariant : Prop := Inv State.reset

/-- However many steps a run takes, from any state, opmask and general registers, flags, control registers, the run's constants
and every byte of memory keep the values they had at launch (R24, R32, R37, R51). -/
def Obligations.RunKeepsLaunchValues : Prop :=
  ∀ (n : Nat) (s t : State), core.run n s = .next t → Untouched s t

/-- MAXVL is 128, 256 or 512, is at least VL for every form that is present, and is 512 whenever an EVEX form is present (R6). -/
def Obligations.MaxvlFitsEveryPresentForm : Prop :=
  ∀ s : State,
    (maxvl s.cfg = 128 ∨ maxvl s.cfg = 256 ∨ maxvl s.cfg = 512) ∧
    ∀ f : Form, present f s = true → formVL f ≤ maxvl s.cfg ∧ (formKind f = .evex → maxvl s.cfg = 512)

/-- Once software has done items 2 to 5 of R131, no instruction but one with a reserved combination raises #UD or #NM. -/
def Obligations.BootedMachineRaisesNoUdOrNm : Prop :=
  ∀ (i : Instr) (s : State) (r : Word),
    s.cfg.features = ⟨true, true, true, true, true, true⟩ →
    s.cr0.getLsbD 2 = false → s.cr4.getLsbD 9 = true → s.cr4.getLsbD 18 = true →
    s.xcr0.getLsbD 1 = true → s.xcr0.getLsbD 2 = true → s.xcr0.getLsbD 5 = true → s.xcr0.getLsbD 6 = true →
    s.xcr0.getLsbD 7 = true → s.cr0.getLsbD 3 = false → InstrNotReserved i →
    exec i s ≠ .fault (.ud r) ∧ exec i s ≠ .fault (.nm r)

/-- What `withFetchWord` stores is what the next step fetches, in any state with canonical memory whose instruction pointer leaves
room below 2^64 for the longest instruction (the model's way to place a program, log 19). -/
def Obligations.FetchWordIsFetched : Prop :=
  ∀ (s : State) (nbits w : Nat), s.mem.wf = true → s.pc.toNat + maxInstrBytes ≤ 2 ^ 64 →
    fetch (s.withFetchWord nbits w) = wordBytes nbits w

/-! ## Rows and programs -/

/-- The rows' masks and patterns say what the byte layouts of R61, R64 and R68 say, and the EVEX family pattern what R80 says: bytes
match exactly when their numbers are as those rules ask (R61, R64, R68, R78, R80). -/
def Obligations.RowsAreTheByteLayouts : Prop :=
  (∀ (r : Row) (bs : List Byte), r.fits bs = true ↔ RowPattern r bs) ∧
  ∀ bs : List Byte, evexFamily bs = true ↔ InFamily bs

/-- Running a program that is laid out in memory, in whichever encodings, is executing its instructions one after another
(R51, R132; a program that would go on at address 0 past the top of memory is not laid out, log 29). -/
def Obligations.ProgramRunExecutesItsInstructions : Prop :=
  ∀ (is : List Instr) (s : State), laidOut s.mem s.pc.toNat is → core.run is.length s = execAll is s

/-- The run of a laid-out program is final exactly when each of its instructions completes: then `pc` is the base plus the sum of
the lengths (modulo 2^64, log 26), and a run that stops in a fault or a refusal is not final (R132; a program has at least
one instruction, log 28, and is not laid out past the top of memory, log 29). -/
def Obligations.RunIsFinalWhenEveryInstructionCompletes : Prop :=
  ∀ (is : List Instr) (s : State), is ≠ [] → laidOut s.mem s.pc.toNat is →
    (∀ t, execAll is s = .next t → FinalRun is s t) ∧
    (∀ t, FinalRun is s t → execAll is s = .next t) ∧
    (∀ r, execAll is s = .fault r → core.run is.length s = .fault r ∧ ∀ t, ¬ FinalRun is s t) ∧
    (∀ r, execAll is s = .refused r → core.run is.length s = .refused r ∧ ∀ t, ¬ FinalRun is s t)
end

