-- ==== Sys2Proof/Laws/Lanes.lean ====
section
/-! SUPPORT. Bits and elements of vectors built from elements, and of the low part of a vector. -/

namespace Sys2Proof.Machine

/-- A bit of the low part of a vector word. -/
theorem getLsbD_lowBits (n : Nat) (e : Vec) (i : Nat) :
    (lowBits n e).getLsbD i = (decide (i < 512) && (decide (i < n) && e.getLsbD i)) := by
  simp [lowBits, BitVec.getLsbD_setWidth]

/-- A bit of an element is a bit of the vector. -/
theorem getLsbD_elem {w : Nat} (ew : Nat) (x : BitVec w) (j i : Nat) :
    (elem ew x j).getLsbD i = (decide (i < ew) && x.getLsbD (ew * j + i)) := by
  simp [elem]

/-- Bit `i` of a vector built from elements is bit `i mod ew` of element `i div ew`. -/
theorem getLsbD_lanes (w ew : Nat) (hew : 0 < ew) (kl : Nat) (f : Nat → BitVec ew) (i : Nat) :
    (lanes w ew kl f).getLsbD i =
      (decide (i < w) && (decide (i < ew * kl) && (f (i / ew)).getLsbD (i % ew))) := by
  induction kl with
  | zero => simp [lanes]
  | succ n ih =>
    simp only [lanes, BitVec.getLsbD_or, ih, BitVec.getLsbD_shiftLeft, BitVec.getLsbD_setWidth]
    by_cases hw : i < w
    · by_cases h1 : i < ew * n
      · have h2 : i < ew * (n + 1) := by rw [Nat.mul_succ]; omega
        simp [hw, h1, h2]
      · by_cases h2 : i < ew * (n + 1)
        · have hdiv : i / ew = n := by
            apply Nat.div_eq_of_lt_le
            · rw [Nat.mul_comm]; omega
            · rw [Nat.mul_comm]; exact h2
          have hmod : i % ew = i - ew * n := by
            have := Nat.div_add_mod i ew
            rw [hdiv] at this; omega
          have hsub : i - ew * n < w := by omega
          simp [hw, h1, h2, hdiv, hmod, hsub]
        · have hge : ew ≤ i - ew * n := by rw [Nat.mul_succ] at h2; omega
          simp [hw, h1, h2, BitVec.getLsbD_of_ge _ _ hge]
    · simp [hw]

/-- The elements of a vector built from elements. -/
theorem elem_lanes (w ew : Nat) (hew : 0 < ew) (kl : Nat) (f : Nat → BitVec ew) (j : Nat)
    (hj : j < kl) (hw : ew * kl ≤ w) : elem ew (lanes w ew kl f) j = f j := by
  apply BitVec.eq_of_getLsbD_eq
  intro i hi
  have hlt : ew * j + i < ew * kl := by
    calc ew * j + i < ew * j + ew := by omega
      _ = ew * (j + 1) := (Nat.mul_succ ew j).symm
      _ ≤ ew * kl := Nat.mul_le_mul_left ew hj
  have hdiv : (ew * j + i) / ew = j := by
    rw [Nat.mul_add_div hew, Nat.div_eq_of_lt hi, Nat.add_zero]
  have hmod : (ew * j + i) % ew = i := by rw [Nat.mul_add_mod, Nat.mod_eq_of_lt hi]
  have hw' : ew * j + i < w := by omega
  rw [getLsbD_elem, getLsbD_lanes w ew hew]
  simp [hi, hlt, hdiv, hmod, hw']

/-- An element that lies in the low part is an element of the whole. -/
theorem elem_lowBits (ew n : Nat) (e : Vec) (j : Nat) (h : ew * j + ew ≤ n) (hn : n ≤ 512) :
    elem ew (lowBits n e) j = elem ew e j := by
  apply BitVec.eq_of_getLsbD_eq
  intro i hi
  have h1 : ew * j + i < n := by omega
  have h2 : ew * j + i < 512 := by omega
  rw [getLsbD_elem, getLsbD_elem, getLsbD_lowBits]
  simp [h1, h2]

/-- Taking the low part twice is taking the smaller low part. -/
theorem lowBits_lowBits (m n : Nat) (h : n ≤ m) (e : Vec) : lowBits m (lowBits n e) = lowBits n e := by
  apply BitVec.eq_of_getLsbD_eq
  intro i hi
  rw [getLsbD_lowBits, getLsbD_lowBits]
  by_cases hn : i < n
  · have : i < m := by omega
    simp [hi, hn, this]
  · simp [hn]

/-- The element product is the product modulo 2^N (R13). -/
theorem toNat_mullo {n : Nat} (a b : BitVec n) : (mullo a b).toNat = (a.toNat * b.toNat) % 2 ^ n := by
  simp [mullo]

theorem mullo_comm {n : Nat} (a b : BitVec n) : mullo a b = mullo b a := by
  simp only [mullo, Nat.mul_comm]

theorem mullo_eq_mul {n : Nat} (a b : BitVec n) : mullo a b = a * b := by
  apply BitVec.eq_of_toNat_eq
  rw [toNat_mullo, BitVec.toNat_mul]

end Sys2Proof.Machine
end

