-- ==== Sys2Proof/Laws/Memory.lean ====
section
/-! SUPPORT. The laws of memory: a byte read after a write, the canonical form kept, and what a little-endian read returns. -/

namespace Sys2Proof.Machine

@[simp] theorem Memory.byte_nil (a : Nat) : Memory.byte [] a = unlistedByte := rfl

theorem Memory.byte_cons (c : Host.Cell) (m : Memory) (a : Nat) :
    Memory.byte (c :: m) a = if c.1 = a then c.2 else Memory.byte m a := rfl

/-- The canonical form from a higher bound implies it from a lower one. -/
theorem Memory.wfFrom_mono {lo lo' : Nat} (h : lo' ≤ lo) :
    ∀ {m : Memory}, Memory.wfFrom lo m = true → Memory.wfFrom lo' m = true
  | [], _ => rfl
  | c :: rest, hm => by
    simp only [Memory.wfFrom, Bool.and_eq_true, decide_eq_true_eq] at hm ⊢
    exact ⟨⟨⟨by omega, hm.1.1.2⟩, hm.1.2⟩, hm.2⟩

/-- Below the bound of a canonical memory nothing is listed. -/
theorem Memory.byte_below {lo a : Nat} (h : a < lo) :
    ∀ {m : Memory}, Memory.wfFrom lo m = true → Memory.byte m a = unlistedByte
  | [], _ => rfl
  | c :: rest, hm => by
    simp only [Memory.wfFrom, Bool.and_eq_true, decide_eq_true_eq] at hm
    have hne : c.1 ≠ a := by omega
    simp only [Memory.byte_cons, if_neg hne]
    exact Memory.byte_below (by omega) hm.2

/-- A write keeps the canonical form. -/
theorem Memory.wfFrom_write {lo a : Nat} {b : Byte} (hlo : lo ≤ a) (ha : a < 2 ^ 64) :
    ∀ {m : Memory}, Memory.wfFrom lo m = true → Memory.wfFrom lo (m.write a b) = true
  | [], _ => by
    simp only [Memory.write]
    split
    · rfl
    · next hb =>
      simp only [Memory.wfFrom, Bool.and_eq_true, decide_eq_true_eq, bne_iff_ne]
      exact ⟨⟨⟨hlo, ha⟩, hb⟩, trivial⟩
  | c :: rest, hm => by
    have hm' := hm
    simp only [Memory.wfFrom, Bool.and_eq_true, decide_eq_true_eq, bne_iff_ne] at hm'
    obtain ⟨⟨⟨h1, h2⟩, h3⟩, h4⟩ := hm'
    simp only [Memory.write]
    split
    · next hlt =>
      split
      · exact hm
      · next hb =>
        simp only [Memory.wfFrom, Bool.and_eq_true, decide_eq_true_eq, bne_iff_ne]
        exact ⟨⟨⟨hlo, ha⟩, hb⟩, ⟨⟨⟨by omega, h2⟩, h3⟩, h4⟩⟩
    · next hlt =>
      split
      · next heq =>
        split
        · exact Memory.wfFrom_mono (by omega) h4
        · next hb =>
          simp only [Memory.wfFrom, Bool.and_eq_true, decide_eq_true_eq, bne_iff_ne]
          exact ⟨⟨⟨hlo, ha⟩, hb⟩, heq ▸ h4⟩
      · next hne =>
        simp only [Memory.wfFrom, Bool.and_eq_true, decide_eq_true_eq, bne_iff_ne]
        exact ⟨⟨⟨h1, h2⟩, h3⟩, Memory.wfFrom_write (by omega) ha h4⟩

theorem Memory.wf_write {m : Memory} {a : Nat} {b : Byte} (ha : a < 2 ^ 64) (hm : m.wf = true) :
    (m.write a b).wf = true :=
  Memory.wfFrom_write (Nat.zero_le a) ha hm

/-- Storing a run of bytes keeps the canonical form. -/
theorem Memory.wf_writeBytes : ∀ (bs : List Byte) {m : Memory} {a : Nat},
    m.wf = true → (m.writeBytes a bs).wf = true
  | [], _, _, hm => hm
  | b :: bs, m, a, hm => by
    simp only [Memory.writeBytes]
    split
    · next ha => exact Memory.wf_writeBytes bs (Memory.wf_write ha hm)
    · exact hm

/-- Read after write: the byte written at its address, every other byte as before. -/
theorem Memory.byte_write {lo a : Nat} {b : Byte} (x : Nat) :
    ∀ {m : Memory}, Memory.wfFrom lo m = true →
      Memory.byte (m.write a b) x = if x = a then b else Memory.byte m x
  | [], _ => by
    simp only [Memory.write]
    split
    · next hb => by_cases hx : x = a <;> simp [hx, hb]
    · by_cases hx : x = a
      · simp [Memory.byte_cons, hx]
      · simp [Memory.byte_cons, hx, Ne.symm hx]
  | c :: rest, hm => by
    have hm' := hm
    simp only [Memory.wfFrom, Bool.and_eq_true, decide_eq_true_eq] at hm'
    obtain ⟨⟨⟨h1, h2⟩, h3⟩, h4⟩ := hm'
    simp only [Memory.write]
    split
    · next hlt =>
      have hbelow : Memory.byte (c :: rest) a = unlistedByte := by
        have hne : c.1 ≠ a := by omega
        simp only [Memory.byte_cons, if_neg hne]
        exact Memory.byte_below (by omega) h4
      split
      · next hb =>
        by_cases hx : x = a
        · subst hx; simp [hbelow, hb]
        · simp [hx]
      · by_cases hx : x = a
        · simp [Memory.byte_cons, hx]
        · simp [Memory.byte_cons (a, b), hx, Ne.symm hx]
    · next hlt =>
      split
      · next heq =>
        subst heq
        split
        · next hb =>
          by_cases hx : x = c.1
          · subst hx
            simp [hb, Memory.byte_below (Nat.lt_succ_self _) h4]
          · simp [Memory.byte_cons, hx, Ne.symm hx]
        · by_cases hx : x = c.1
          · simp [Memory.byte_cons, hx]
          · simp [Memory.byte_cons, hx, Ne.symm hx]
      · next hne =>
        simp only [Memory.byte_cons]
        split
        · next hcx =>
          have : x ≠ a := by omega
          simp [this]
        · exact Memory.byte_write x h4

/-- Bits 8i+7 to 8i of a little-endian read are the byte at a + i, modulo 2^64 (R41, R42). -/
theorem Memory.getLsbD_readLE (m : Memory) : ∀ (n a i : Nat), i < 8 * n →
    (m.readLE a n).getLsbD i = (m.byte ((a + i / 8) % 2 ^ 64)).getLsbD (i % 8)
  | 0, _, i, h => by omega
  | n + 1, a, i, h => by
    have happ : (m.readLE a (n + 1)).getLsbD i = (m.readLE (a + 1) n ++ m.byte (a % 2 ^ 64)).getLsbD i := rfl
    rw [happ, BitVec.getLsbD_append]
    by_cases h8 : i < 8
    · have : i / 8 = 0 := by omega
      have h' : i % 8 = i := by omega
      simp [h8, this, h']
    · rw [if_neg h8, Memory.getLsbD_readLE m n (a + 1) (i - 8) (by omega)]
      have h1 : a + 1 + (i - 8) / 8 = a + i / 8 := by omega
      have h2 : (i - 8) % 8 = i % 8 := by omega
      rw [h1, h2]

end Sys2Proof.Machine
end

