-- ==== Sys2Proof/Laws/State.lean ====
section
/-! SUPPORT. What each update of the state leaves in each field: one lemma per field per update, and the register reads
after each update. -/

namespace Sys2Proof.Machine

section
variable (s : State) (n : VReg) (e : Vec) (vl len nbits w : Nat)

@[simp] theorem State.writeV_k : (s.writeV n e).k = s.k := rfl
@[simp] theorem State.writeV_x : (s.writeV n e).x = s.x := rfl
@[simp] theorem State.writeV_pc : (s.writeV n e).pc = s.pc := rfl
@[simp] theorem State.writeV_flags : (s.writeV n e).flags = s.flags := rfl
@[simp] theorem State.writeV_mxcsr : (s.writeV n e).mxcsr = s.mxcsr := rfl
@[simp] theorem State.writeV_cr0 : (s.writeV n e).cr0 = s.cr0 := rfl
@[simp] theorem State.writeV_cr4 : (s.writeV n e).cr4 = s.cr4 := rfl
@[simp] theorem State.writeV_xcr0 : (s.writeV n e).xcr0 = s.xcr0 := rfl
@[simp] theorem State.writeV_mem : (s.writeV n e).mem = s.mem := rfl
@[simp] theorem State.writeV_cfg : (s.writeV n e).cfg = s.cfg := rfl

@[simp] theorem State.writeLowV_k : (s.writeLowV n vl e).k = s.k := rfl
@[simp] theorem State.writeLowV_x : (s.writeLowV n vl e).x = s.x := rfl
@[simp] theorem State.writeLowV_pc : (s.writeLowV n vl e).pc = s.pc := rfl
@[simp] theorem State.writeLowV_flags : (s.writeLowV n vl e).flags = s.flags := rfl
@[simp] theorem State.writeLowV_mxcsr : (s.writeLowV n vl e).mxcsr = s.mxcsr := rfl
@[simp] theorem State.writeLowV_cr0 : (s.writeLowV n vl e).cr0 = s.cr0 := rfl
@[simp] theorem State.writeLowV_cr4 : (s.writeLowV n vl e).cr4 = s.cr4 := rfl
@[simp] theorem State.writeLowV_xcr0 : (s.writeLowV n vl e).xcr0 = s.xcr0 := rfl
@[simp] theorem State.writeLowV_mem : (s.writeLowV n vl e).mem = s.mem := rfl
@[simp] theorem State.writeLowV_cfg : (s.writeLowV n vl e).cfg = s.cfg := rfl

@[simp] theorem State.writeZeroV_k : (s.writeZeroV n vl e).k = s.k := rfl
@[simp] theorem State.writeZeroV_x : (s.writeZeroV n vl e).x = s.x := rfl
@[simp] theorem State.writeZeroV_pc : (s.writeZeroV n vl e).pc = s.pc := rfl
@[simp] theorem State.writeZeroV_flags : (s.writeZeroV n vl e).flags = s.flags := rfl
@[simp] theorem State.writeZeroV_mxcsr : (s.writeZeroV n vl e).mxcsr = s.mxcsr := rfl
@[simp] theorem State.writeZeroV_cr0 : (s.writeZeroV n vl e).cr0 = s.cr0 := rfl
@[simp] theorem State.writeZeroV_cr4 : (s.writeZeroV n vl e).cr4 = s.cr4 := rfl
@[simp] theorem State.writeZeroV_xcr0 : (s.writeZeroV n vl e).xcr0 = s.xcr0 := rfl
@[simp] theorem State.writeZeroV_mem : (s.writeZeroV n vl e).mem = s.mem := rfl
@[simp] theorem State.writeZeroV_cfg : (s.writeZeroV n vl e).cfg = s.cfg := rfl

@[simp] theorem State.advance_v : (s.advance len).v = s.v := rfl
@[simp] theorem State.advance_k : (s.advance len).k = s.k := rfl
@[simp] theorem State.advance_x : (s.advance len).x = s.x := rfl
@[simp] theorem State.advance_pc : (s.advance len).pc = s.pc + BitVec.ofNat 64 len := rfl
@[simp] theorem State.advance_flags : (s.advance len).flags = s.flags := rfl
@[simp] theorem State.advance_mxcsr : (s.advance len).mxcsr = s.mxcsr := rfl
@[simp] theorem State.advance_cr0 : (s.advance len).cr0 = s.cr0 := rfl
@[simp] theorem State.advance_cr4 : (s.advance len).cr4 = s.cr4 := rfl
@[simp] theorem State.advance_xcr0 : (s.advance len).xcr0 = s.xcr0 := rfl
@[simp] theorem State.advance_mem : (s.advance len).mem = s.mem := rfl
@[simp] theorem State.advance_cfg : (s.advance len).cfg = s.cfg := rfl

@[simp] theorem State.withFetchWord_v : (s.withFetchWord nbits w).v = s.v := rfl
@[simp] theorem State.withFetchWord_k : (s.withFetchWord nbits w).k = s.k := rfl
@[simp] theorem State.withFetchWord_x : (s.withFetchWord nbits w).x = s.x := rfl
@[simp] theorem State.withFetchWord_pc : (s.withFetchWord nbits w).pc = s.pc := rfl
@[simp] theorem State.withFetchWord_flags : (s.withFetchWord nbits w).flags = s.flags := rfl
@[simp] theorem State.withFetchWord_mxcsr : (s.withFetchWord nbits w).mxcsr = s.mxcsr := rfl
@[simp] theorem State.withFetchWord_cr0 : (s.withFetchWord nbits w).cr0 = s.cr0 := rfl
@[simp] theorem State.withFetchWord_cr4 : (s.withFetchWord nbits w).cr4 = s.cr4 := rfl
@[simp] theorem State.withFetchWord_xcr0 : (s.withFetchWord nbits w).xcr0 = s.xcr0 := rfl
@[simp] theorem State.withFetchWord_mem :
    (s.withFetchWord nbits w).mem = s.mem.writeBytes s.pc.toNat (wordBytes nbits w) := rfl
@[simp] theorem State.withFetchWord_cfg : (s.withFetchWord nbits w).cfg = s.cfg := rfl

@[simp] theorem State.advance_readV (m : VReg) : (s.advance len).readV m = s.readV m := rfl
@[simp] theorem State.advance_readK (a : KReg) : (s.advance len).readK a = s.readK a := rfl
@[simp] theorem State.advance_readX (g : Gpr) : (s.advance len).readX g = s.readX g := rfl
@[simp] theorem State.writeV_readK (a : KReg) : (s.writeV n e).readK a = s.readK a := rfl
@[simp] theorem State.writeV_readX (g : Gpr) : (s.writeV n e).readX g = s.readX g := rfl
end

/-- Reading the register just written gives the low MAXVL bits of what was written (R11). -/
theorem State.readV_writeV_same (s : State) (n : VReg) (e : Vec) :
    (s.writeV n e).readV n = lowBits (maxvl s.cfg) e := by
  simp [State.readV, State.writeV]

/-- Writing one vector register leaves every other one as it was. -/
theorem State.readV_writeV_other (s : State) (n m : VReg) (e : Vec) (h : m ≠ n) :
    (s.writeV n e).readV m = s.readV m := by
  have hne : n.toNat ≠ m.toNat := fun h' => h (BitVec.eq_of_toNat_eq h'.symm)
  simp [State.readV, State.writeV, hne]

theorem State.readV_writeZeroV_same (s : State) (n : VReg) (vl : Nat) (e : Vec) :
    (s.writeZeroV n vl e).readV n = lowBits (maxvl s.cfg) (lowBits vl e) :=
  s.readV_writeV_same n _

theorem State.readV_writeZeroV_other (s : State) (n m : VReg) (vl : Nat) (e : Vec) (h : m ≠ n) :
    (s.writeZeroV n vl e).readV m = s.readV m :=
  s.readV_writeV_other n m _ h

theorem State.readV_writeLowV_same (s : State) (n : VReg) (vl : Nat) (e : Vec) :
    (s.writeLowV n vl e).readV n =
      lowBits (maxvl s.cfg) (((s.readV n >>> vl) <<< vl) ||| lowBits vl e) :=
  s.readV_writeV_same n _

theorem State.readV_writeLowV_other (s : State) (n m : VReg) (vl : Nat) (e : Vec) (h : m ≠ n) :
    (s.writeLowV n vl e).readV m = s.readV m :=
  s.readV_writeV_other n m _ h

end Sys2Proof.Machine
end

