-- ==== Sys2Proof/Laws/Ops.lean ====
section
/-! SUPPORT. What each shared operation can do, once: the checks, the operand reads, the three algorithms, and exec as a whole. -/

namespace Sys2Proof.Machine

/-! ## The checks -/

/-- A form passes the checks of R120's steps 1 and 2 exactly when nothing is reserved, it is present, enabled and has
its foundation, and TS is clear. -/
theorem checkUdNm_eq_none {f : Form} {r : Bool} {s : State} :
    checkUdNm f r s = none ↔
      r = false ∧ present f s = true ∧ enabled f s = true ∧ lacksFoundation f s = false ∧ taskSwitched s = false := by
  unfold checkUdNm
  cases r <;> cases present f s <;> cases enabled f s <;> cases lacksFoundation f s <;>
    cases taskSwitched s <;> simp

/-- The checks raise nothing but #UD and #NM. -/
theorem checkUdNm_eq_some {f : Form} {r : Bool} {s : State} {e : Exn} (h : checkUdNm f r s = some e) :
    e = .ud ∨ e = .nm := by
  unfold checkUdNm at h
  split at h
  · exact .inl (Option.some.inj h).symm
  · split at h
    · exact .inr (Option.some.inj h).symm
    · cases h

theorem byteAdmitted_iff {c : Config} {a : Nat} :
    byteAdmitted c a = true ↔ a < 2 ^ 64 ∧ canonical a = true ∧ regionAt c a = none := by
  simp only [byteAdmitted, Bool.and_eq_true, decide_eq_true_eq, Option.isNone_iff_eq_none, and_assoc]

/-- A byte of a region is either one where translation fails or device memory. -/
theorem regionAt_cases (c : Config) (a : Nat) :
    regionAt c a = none ∨ (∃ code, regionAt c a = some (.pageFault code)) ∨ regionAt c a = some .device := by
  rcases h : regionAt c a with _ | ⟨code⟩ | _
  · exact .inl rfl
  · exact .inr (.inl ⟨_, rfl⟩)
  · exact .inr (.inr rfl)

/-- An operand is read exactly when every checked byte is admitted. -/
theorem checkBytes_eq_none {c : Config} {seg : Segment} {ea : Word} {n : Nat} {offs : List Nat} :
    checkBytes c seg ea n offs = none ↔ ∀ i ∈ offs, byteAdmitted c (ea.toNat + i) = true := by
  simp only [byteAdmitted_iff]
  unfold checkBytes
  constructor
  · intro h i hi
    split at h
    · cases h
    next h1 =>
    split at h
    · cases h
    next h2 =>
    split at h
    · cases h
    next h3 =>
    split at h
    · cases h
    next h4 =>
    simp only [Bool.not_eq_true, List.any_eq_false, decide_eq_true_eq, Bool.not_eq_true', beq_iff_eq] at h1 h2 h4
    have h3' := List.findSome?_eq_none_iff.mp h3 i hi
    refine ⟨by have := h1 i hi; omega, by simpa using h2 i hi, ?_⟩
    rcases regionAt_cases c (ea.toNat + i) with h | ⟨code, h⟩ | h
    · exact h
    · simp [pageFaultAt, h] at h3'
    · exact absurd h (h4 i hi)
  · intro h
    have h1 : (offs.any fun i => decide (2 ^ 64 ≤ ea.toNat + i)) = false := by
      simp only [List.any_eq_false, decide_eq_true_eq]
      intro i hi; have := (h i hi).1; omega
    have h2 : (offs.any fun i => !canonical (ea.toNat + i)) = false := by
      simp only [List.any_eq_false, Bool.not_eq_true', Bool.not_eq_false]
      intro i hi; exact (h i hi).2.1
    have h3 : (offs.findSome? fun i => pageFaultAt c (ea.toNat + i)) = none := by
      rw [List.findSome?_eq_none_iff]
      intro i hi; simp [pageFaultAt, (h i hi).2.2]
    have h4 : (offs.any fun i => regionAt c (ea.toNat + i) == some .device) = false := by
      simp only [List.any_eq_false, beq_iff_eq]
      intro i hi; simp [(h i hi).2.2]
    simp only [h1, h2, h3, h4, Bool.false_eq_true, if_false]

/-- What stops an operand read: a memory fault that names the operand, or device memory. -/
theorem checkBytes_eq_some {c : Config} {seg : Segment} {ea : Word} {n : Nat} {offs : List Nat} {st : Stop}
    (h : checkBytes c seg ea n offs = some st) :
    (∃ r, st = .raise (.memFault ea n r)) ∨
      (st = .refuse .deviceMemory ∧ ∃ i ∈ offs, regionAt c (ea.toNat + i) = some .device) := by
  unfold checkBytes at h
  split at h
  · exact .inl ⟨_, (Option.some.inj h).symm⟩
  split at h
  · exact .inl ⟨_, (Option.some.inj h).symm⟩
  split at h
  · exact .inl ⟨_, (Option.some.inj h).symm⟩
  split at h
  · next h4 =>
    simp only [List.any_eq_true, beq_iff_eq] at h4
    exact .inr ⟨(Option.some.inj h).symm, h4⟩
  · cases h

theorem memRead_ok {s : State} {seg : Segment} {ea : Word} {n : Nat} {offs : List Nat}
    (h : ∀ i ∈ offs, byteAdmitted s.cfg (ea.toNat + i) = true) :
    memRead s seg ea n offs = .ok ((s.mem.readLE ea.toNat n).setWidth 512) := by
  simp [memRead, checkBytes_eq_none.mpr h]

/-! ## The algorithms: if one answers a next state, this is it -/

theorem stopWith_ne_next (st : Stop) (s t : State) : stopWith st s ≠ .next t := by
  cases st with
  | raise e => cases e <;> simp [stopWith, takeException]
  | refuse r => simp [stopWith]

theorem takeException_ne_next (e : Exn) (s t : State) : takeException e s ≠ .next t := by
  cases e <;> simp [takeException]

theorem legacyMullo_next {o : LegacyOps} {len : Nat} {s t : State} (h : legacyMullo o len s = .next t) :
    checkUdNm .pmulld false s = none ∧ ∃ b, legacySource s len o.src2 = .ok b ∧
      t = (s.writeLowV o.dest 128 (mulLanes 32 4 (s.readV o.dest) b)).advance len := by
  unfold legacyMullo at h
  split at h
  · exact absurd h (takeException_ne_next _ _ _)
  next hc =>
  split at h
  · exact absurd h (stopWith_ne_next _ _ _)
  next b hb => exact ⟨hc, b, hb, by simpa using h.symm⟩

theorem vexMullo_next {f : Form} {o : VexOps} {len : Nat} {s t : State} (h : vexMullo f o len s = .next t) :
    checkUdNm f false s = none ∧ ∃ b, vexSource f s len o.src2 = .ok b ∧
      t = (s.writeZeroV o.dest (formVL f) (mulLanes (formEW f) (formKL f) (s.readV o.src1) b)).advance len := by
  unfold vexMullo at h
  split at h
  · exact absurd h (takeException_ne_next _ _ _)
  next hc =>
  split at h
  · exact absurd h (stopWith_ne_next _ _ _)
  next b hb => exact ⟨hc, b, hb, by simpa using h.symm⟩

theorem evexMullo_next {f : Form} {o : EvexOps} {len : Nat} {s t : State} (h : evexMullo f o len s = .next t) :
    checkUdNm f (evexReserved o) s = none ∧ ∃ b, evexSource f s len o = .ok b ∧
      t = (s.writeZeroV o.dest (formVL f) (evexLanes f s o b)).advance len := by
  unfold evexMullo at h
  split at h
  · exact absurd h (takeException_ne_next _ _ _)
  next hc =>
  split at h
  · exact absurd h (stopWith_ne_next _ _ _)
  next b hb => exact ⟨hc, b, hb, by simpa using h.symm⟩

/-- Every instruction that completes writes its destination register, advances the instruction pointer, and does nothing
else; and its form passed the checks. -/
theorem exec_next {i : Instr} {s t : State} (h : exec i s = .next t) :
    (∃ r, checkUdNm (instrForm i) r s = none) ∧
      ∃ e, t = (s.writeV (instrDest i) e).advance i.ilen := by
  cases i with
  | pmulld o => obtain ⟨hc, b, -, rfl⟩ := legacyMullo_next h; exact ⟨⟨_, hc⟩, _, rfl⟩
  | pmulldRex o => obtain ⟨hc, b, -, rfl⟩ := legacyMullo_next h; exact ⟨⟨_, hc⟩, _, rfl⟩
  | vpmulldVex128 o => obtain ⟨hc, b, -, rfl⟩ := vexMullo_next h; exact ⟨⟨_, hc⟩, _, rfl⟩
  | vpmulldVex256 o => obtain ⟨hc, b, -, rfl⟩ := vexMullo_next h; exact ⟨⟨_, hc⟩, _, rfl⟩
  | vpmulldEvex128 o => obtain ⟨hc, b, -, rfl⟩ := evexMullo_next h; exact ⟨⟨_, hc⟩, _, rfl⟩
  | vpmulldEvex256 o => obtain ⟨hc, b, -, rfl⟩ := evexMullo_next h; exact ⟨⟨_, hc⟩, _, rfl⟩
  | vpmulldEvex512 o => obtain ⟨hc, b, -, rfl⟩ := evexMullo_next h; exact ⟨⟨_, hc⟩, _, rfl⟩
  | vpmullqEvex128 o => obtain ⟨hc, b, -, rfl⟩ := evexMullo_next h; exact ⟨⟨_, hc⟩, _, rfl⟩
  | vpmullqEvex256 o => obtain ⟨hc, b, -, rfl⟩ := evexMullo_next h; exact ⟨⟨_, hc⟩, _, rfl⟩
  | vpmullqEvex512 o => obtain ⟨hc, b, -, rfl⟩ := evexMullo_next h; exact ⟨⟨_, hc⟩, _, rfl⟩

/-! ## Faults name the faulting instruction -/

theorem takeException_fault {e : Exn} {s : State} {r : Fault} (h : takeException e s = .fault r) :
    faultRip r = s.pc := by
  cases e <;> simp only [takeException, Host.Outcome.fault.injEq] at h <;> subst h <;> rfl

theorem stopWith_fault {st : Stop} {s : State} {r : Fault} (h : stopWith st s = .fault r) :
    faultRip r = s.pc := by
  cases st with
  | raise e => exact takeException_fault h
  | refuse q => simp [stopWith] at h

theorem exec_fault {i : Instr} {s : State} {r : Fault} (h : exec i s = .fault r) : faultRip r = s.pc := by
  cases i <;>
    simp only [exec, execPmulld, execPmulldRex, execVpmulldVex128, execVpmulldVex256, execVpmulldEvex128,
      execVpmulldEvex256, execVpmulldEvex512, execVpmullqEvex128, execVpmullqEvex256, execVpmullqEvex512,
      legacyMullo, vexMullo, evexMullo] at h <;>
    (split at h <;> first
      | exact takeException_fault h
      | (split at h <;> first
          | exact stopWith_fault h
          | cases h))

/-- A form that is present fits in MAXVL (R6). -/
theorem formVL_le_maxvl {f : Form} {s : State} (h : present f s = true) : formVL f ≤ maxvl s.cfg := by
  have : formVL f ≤ neededVL s.cfg.features := by
    cases f <;> simp [present, formFlags, formVL, neededVL, evexPresent] at h ⊢ <;>
      first
      | (split <;> first | omega | (split <;> omega))
      | simp [h]
  exact le_trans this (le_max_right _ _)

end Sys2Proof.Machine
end

