-- ==== Sys2Proof/Laws/PerInstr.lean ====
section
/-! SUPPORT. Statements about every instruction as syntax, one lemma per constructor. -/

namespace Sys2Proof.Laws.Length

/-- An instruction has 5 to 11 bytes, fewer than the 15 the architecture allows (R58, R59). -/
def Statement (i : Instr) : Prop := 5 ≤ i.ilen ∧ i.ilen ≤ 11 ∧ i.ilen ≤ maxInstrBytes

/-- At most five bytes follow ModRM: a SIB byte and four displacement bytes. -/
theorem tailLen_le (s : Src2) : s.tailLen ≤ 5 := by
  rcases s with n | m
  · simp [Src2.tailLen]
  · rcases m with ⟨b, d⟩ | d | ⟨b, ix, d⟩ | ⟨ix, d⟩ <;> (try cases d) <;> simp [Src2.tailLen, MemOp.tailLen, Disp.len]

theorem pmulld (o : LegacyOps) : Statement (.pmulld o) := by
  have := tailLen_le o.src2
  simp only [Statement, Instr.ilen, maxInstrBytes]; omega

theorem pmulldRex (o : LegacyOps) : Statement (.pmulldRex o) := by
  have := tailLen_le o.src2
  simp only [Statement, Instr.ilen, maxInstrBytes]; omega

theorem vpmulldVex128 (o : VexOps) : Statement (.vpmulldVex128 o) := by
  have := tailLen_le o.src2
  simp only [Statement, Instr.ilen, maxInstrBytes]; omega

theorem vpmulldVex256 (o : VexOps) : Statement (.vpmulldVex256 o) := by
  have := tailLen_le o.src2
  simp only [Statement, Instr.ilen, maxInstrBytes]; omega

theorem vpmulldEvex128 (o : EvexOps) : Statement (.vpmulldEvex128 o) := by
  have := tailLen_le o.src2
  simp only [Statement, Instr.ilen, maxInstrBytes]; omega

theorem vpmulldEvex256 (o : EvexOps) : Statement (.vpmulldEvex256 o) := by
  have := tailLen_le o.src2
  simp only [Statement, Instr.ilen, maxInstrBytes]; omega

theorem vpmulldEvex512 (o : EvexOps) : Statement (.vpmulldEvex512 o) := by
  have := tailLen_le o.src2
  simp only [Statement, Instr.ilen, maxInstrBytes]; omega

theorem vpmullqEvex128 (o : EvexOps) : Statement (.vpmullqEvex128 o) := by
  have := tailLen_le o.src2
  simp only [Statement, Instr.ilen, maxInstrBytes]; omega

theorem vpmullqEvex256 (o : EvexOps) : Statement (.vpmullqEvex256 o) := by
  have := tailLen_le o.src2
  simp only [Statement, Instr.ilen, maxInstrBytes]; omega

theorem vpmullqEvex512 (o : EvexOps) : Statement (.vpmullqEvex512 o) := by
  have := tailLen_le o.src2
  simp only [Statement, Instr.ilen, maxInstrBytes]; omega

end Sys2Proof.Laws.Length
end

