-- ==== Sys2Proof/Laws/Program.lean ====
section
/-! SUPPORT. The small laws of programs, and what an instruction that completes leaves for the rest of its program. -/

namespace Sys2Proof.Machine

@[simp] theorem programLength_nil : programLength [] = 0 := rfl

@[simp] theorem programLength_cons (i : Instr) (is : List Instr) :
    programLength (i :: is) = i.ilen + programLength is := by
  simp [programLength]

@[simp] theorem laidOut_nil (m : Memory) (base : Nat) : laidOut m base [] := trivial

@[simp] theorem laidOut_cons (m : Memory) (base : Nat) (i : Instr) (is : List Instr) :
    laidOut m base (i :: is) ↔
      (∃ rest, decode (fetchBytes m base maxInstrBytes) = .instr i rest) ∧ laidOut m (base + i.ilen) is := Iff.rfl

@[simp] theorem execAll_nil (s : State) : execAll [] s = .next s := rfl

/-- A program goes on from an instruction that completes. -/
theorem execAll_cons_next {i : Instr} {is : List Instr} {s t : State} (h : exec i s = .next t) :
    execAll (i :: is) s = execAll is t := by
  simp [execAll, h]

/-- A program stops where an instruction faults. -/
theorem execAll_cons_fault {i : Instr} {is : List Instr} {s : State} {r : Fault} (h : exec i s = .fault r) :
    execAll (i :: is) s = .fault r := by
  simp [execAll, h]

/-- A program stops where an instruction is refused. -/
theorem execAll_cons_refused {i : Instr} {is : List Instr} {s : State} {r : Refusal} (h : exec i s = .refused r) :
    execAll (i :: is) s = .refused r := by
  simp [execAll, h]

/-- An instruction that completes leaves memory, and with it the rest of the program, as it was. -/
theorem exec_next_mem {i : Instr} {s t : State} (h : exec i s = .next t) : t.mem = s.mem := by
  obtain ⟨-, e, rfl⟩ := exec_next h
  rfl

/-- An instruction that completes advances the instruction pointer by its length, modulo 2^64. -/
theorem exec_next_pc {i : Instr} {s t : State} (h : exec i s = .next t) : t.pc = s.pc + BitVec.ofNat 64 i.ilen := by
  obtain ⟨-, e, rfl⟩ := exec_next h
  rfl

/-- What is fetched for an instruction never reaches past 2^64. -/
theorem fetchBytes_length_le (m : Memory) : ∀ (n a : Nat), a < 2 ^ 64 → a + (fetchBytes m a n).length ≤ 2 ^ 64
  | 0, a, h => by simp only [fetchBytes, List.length_nil]; omega
  | n + 1, a, h => by
    simp only [fetchBytes, if_pos h, List.length_cons]
    by_cases h' : a + 1 < 2 ^ 64
    · have := fetchBytes_length_le m n (a + 1) h'; omega
    · have : fetchBytes m (a + 1) n = [] := by
        cases n with
        | zero => rfl
        | succ n => simp only [fetchBytes, if_neg h']
      simp only [this, List.length_nil]; omega

end Sys2Proof.Machine
end

