-- ==== Sys2Proof/Laws/Vocabulary.lean ====
section
/-! SUPPORT. The statements' words against the machine's own operations: when the checks pass, when an operand can be had,
and what each algorithm then answers. -/

namespace Sys2Proof.Machine

/-! ## Checks -/

theorem xcr0_low {x : Word} :
    x.extractLsb' 1 2 = 3#2 ↔ x.getLsbD 1 = true ∧ x.getLsbD 2 = true := by
  constructor
  · intro h
    have h0 := congrArg (·.getLsbD 0) h
    have h1 := congrArg (·.getLsbD 1) h
    simp only [BitVec.getLsbD_extractLsb'] at h0 h1
    exact ⟨by simpa using h0, by simpa using h1⟩
  · rintro ⟨h1, h2⟩
    apply BitVec.eq_of_getLsbD_eq
    intro i hi
    have : i = 0 ∨ i = 1 := by omega
    rcases this with rfl | rfl <;> simp [h1, h2]

theorem xcr0_high {x : Word} :
    x.extractLsb' 5 3 = 7#3 ↔ x.getLsbD 5 = true ∧ x.getLsbD 6 = true ∧ x.getLsbD 7 = true := by
  constructor
  · intro h
    have h0 := congrArg (·.getLsbD 0) h
    have h1 := congrArg (·.getLsbD 1) h
    have h2 := congrArg (·.getLsbD 2) h
    simp only [BitVec.getLsbD_extractLsb'] at h0 h1 h2
    exact ⟨by simpa using h0, by simpa using h1, by simpa using h2⟩
  · rintro ⟨h1, h2, h3⟩
    apply BitVec.eq_of_getLsbD_eq
    intro i hi
    have : i = 0 ∨ i = 1 ∨ i = 2 := by omega
    rcases this with rfl | rfl | rfl <;> simp [h1, h2, h3]

theorem enabled_iff {f : Form} {s : State} : enabled f s = true ↔ EnabledBits f s := by
  cases f <;>
    simp only [enabled, EnabledBits, formKind, Bool.and_eq_true, Bool.not_eq_true', beq_iff_eq, xcr0_low, xcr0_high,
      and_assoc]

theorem features_iff {f : Form} {s : State} :
    (present f s = true ∧ lacksFoundation f s = false) ↔ HasFeatures f s.cfg.features := by
  cases f <;>
    simp [present, lacksFoundation, HasFeatures, formFlags, formKind, and_assoc]

/-- The checks of R120's steps 1 and 2, in the statements' words. -/
theorem checkUdNm_none_iff {f : Form} {r : Bool} {s : State} :
    checkUdNm f r s = none ↔ r = false ∧ Ready f s := by
  rw [checkUdNm_eq_none, Ready, Usable, ← features_iff, ← enabled_iff]
  simp only [taskSwitched]
  tauto

theorem checkUdNm_unusable {f : Form} {r : Bool} {s : State} (h : ¬ Usable f s) : checkUdNm f r s = some .ud := by
  rw [Usable, ← features_iff, ← enabled_iff] at h
  unfold checkUdNm
  rw [if_pos]
  cases h1 : present f s <;> cases h2 : enabled f s <;> cases h3 : lacksFoundation f s <;> simp_all

theorem checkUdNm_reserved {f : Form} {s : State} : checkUdNm f true s = some .ud := by
  simp [checkUdNm]

theorem checkUdNm_ts {f : Form} {s : State} (h : Usable f s) (ht : s.cr0.getLsbD 3 = true) :
    checkUdNm f false s = some .nm := by
  rw [Usable, ← features_iff, ← enabled_iff] at h
  simp only [checkUdNm, h.1.1, h.1.2, h.2, taskSwitched, ht]
  rfl

theorem evexReserved_iff {o : EvexOps} : evexReserved o = false ↔ NotReserved o := by
  unfold evexReserved NotReserved
  cases hz : o.zeroing <;> cases hm : o.mask <;> cases hb : o.bcst <;> cases hs : o.src2 <;> simp

theorem evexReserved_true {o : EvexOps} (h : ¬ NotReserved o) : evexReserved o = true := by
  rw [← evexReserved_iff] at h
  simpa using h

/-! ## Operands -/

theorem accessible_iff {c : Config} {a : Word} {n : Nat} :
    accessible c a n = true ↔ ∀ i, i < n → byteAdmitted c (a.toNat + i) = true := by
  simp [accessible]

/-- The bytes an EVEX form checks are admitted exactly when R40 is met. -/
theorem evexOffsets_admitted {f : Form} {s : State} {o : EvexOps} {ea : Word} (hw : 0 < formEW f / 8)
    (hv : formVL f / 8 = formEW f / 8 * formKL f) :
    (∀ i ∈ evexOffsets f s o, byteAdmitted s.cfg (ea.toNat + i) = true) ↔
      MaskedAccessible s o (formEW f / 8) (formKL f) ea := by
  unfold evexOffsets MaskedAccessible
  by_cases hf : s.cfg.faultSuppression = true
  · rw [if_pos hf, if_pos hf]
    by_cases hb : o.bcst = true
    · rw [if_pos hb, if_pos hb]
      by_cases ha : ((List.range (formKL f)).any (maskOn s o.mask)) = true
      · rw [if_pos ha, accessible_iff]
        have hex : ∃ j, j < formKL f ∧ maskOn s o.mask j = true := by
          simpa only [List.any_eq_true, List.mem_range] using ha
        simp only [List.mem_range]
        exact ⟨fun h _ => h, fun h => h hex⟩
      · rw [if_neg ha]
        have hne : ¬ ∃ j, j < formKL f ∧ maskOn s o.mask j = true := by
          simpa only [List.any_eq_true, List.mem_range] using ha
        exact ⟨fun _ h => absurd h hne, fun _ i hi => absurd hi (List.not_mem_nil)⟩
    · rw [if_neg hb, if_neg hb]
      simp only [List.mem_filter, List.mem_range]
      constructor
      · intro h j hj hm b hb'
        apply h
        have hd : (formEW f / 8 * j + b) / (formEW f / 8) = j := by
          rw [Nat.mul_add_div hw, Nat.div_eq_of_lt hb', Nat.add_zero]
        refine ⟨?_, by rw [hd]; exact hm⟩
        rw [hv]
        calc formEW f / 8 * j + b < formEW f / 8 * j + formEW f / 8 := by omega
          _ = formEW f / 8 * (j + 1) := (Nat.mul_succ _ _).symm
          _ ≤ formEW f / 8 * formKL f := Nat.mul_le_mul_left _ hj
      · rintro h i ⟨hi, hm⟩
        have hj : i / (formEW f / 8) < formKL f := by
          rw [hv] at hi
          exact Nat.div_lt_of_lt_mul hi
        have := h _ hj hm (i % (formEW f / 8)) (Nat.mod_lt _ hw)
        rwa [Nat.div_add_mod] at this
  · rw [if_neg hf, if_neg hf, accessible_iff]
    simp only [List.mem_range, evexBytes]
    cases o.bcst <;> simp [hv]

/-! ## The algorithms on operands that can be had -/

theorem legacyMullo_eq {o : LegacyOps} {len : Nat} {s : State} {b : Vec} (h : Ready .pmulld s)
    (hb : legacySource s len o.src2 = .ok b) :
    legacyMullo o len s =
      .next ((s.writeLowV o.dest 128 (mulLanes 32 4 (s.readV o.dest) b)).advance len) := by
  simp [legacyMullo, checkUdNm_none_iff.mpr ⟨rfl, h⟩, hb]

theorem vexMullo_eq {f : Form} {o : VexOps} {len : Nat} {s : State} {b : Vec} (h : Ready f s)
    (hb : vexSource f s len o.src2 = .ok b) :
    vexMullo f o len s =
      .next ((s.writeZeroV o.dest (formVL f) (mulLanes (formEW f) (formKL f) (s.readV o.src1) b)).advance len) := by
  simp [vexMullo, checkUdNm_none_iff.mpr ⟨rfl, h⟩, hb]

theorem evexMullo_eq {f : Form} {o : EvexOps} {len : Nat} {s : State} {b : Vec} (h : Ready f s)
    (hr : NotReserved o) (hb : evexSource f s len o = .ok b) :
    evexMullo f o len s = .next ((s.writeZeroV o.dest (formVL f) (evexLanes f s o b)).advance len) := by
  simp [evexMullo, checkUdNm_none_iff.mpr ⟨evexReserved_iff.mpr hr, h⟩, hb]

end Sys2Proof.Machine
end

