-- ==== Sys2Proof/Machine/Asm.lean ====
section
/-! DEFINITION. The assembler text of an instruction (R83, R84): Intel operand order, destination first, with the mask and the
zeroing mark after the destination and the repeat count after a broadcast operand; and the AT&T order, reversed, with % on
registers. How numbers and addresses are spelled is log 21. -/

namespace Sys2Proof.Machine

/-- The vector register prefix for a vector length (R14). -/
def vecPrefix (vl : Nat) : String := if vl = 128 then "xmm" else if vl = 256 then "ymm" else "zmm"

/-- A vector register's name. -/
def vecName (vl : Nat) (n : VReg) : String := vecPrefix vl ++ toString n.toNat

/-- The general registers' names, in the order of R25, in the lower case of R83's examples. -/
def gprNames : List String :=
  ["rax", "rcx", "rdx", "rbx", "rsp", "rbp", "rsi", "rdi", "r8", "r9", "r10", "r11", "r12", "r13", "r14", "r15"]

/-- A general register's name (R25). -/
def gprName (g : Gpr) : String := gprNames.getD g.toNat ""

/-- The text in braces. -/
def braced (t : String) : String := String.singleton (Char.ofNat 123) ++ t ++ String.singleton (Char.ofNat 125)

/-- The factor a scale multiplies the index by. -/
def scaleFactor (sc : Scale) : Nat := 2 ^ sc.bits.toNat

/-- A displacement after a register: "+16", "-16", or nothing. -/
def dispText (d : Int) : String := if d < 0 then "-" ++ toString d.natAbs else "+" ++ toString d.natAbs

/-- The value of a displacement as a signed number, a 1-byte one scaled by `n` (R76). -/
def dispInt (n : Nat) : Disp → Option Int
  | .none => none
  | .d8 d => some (d.toInt * n)
  | .d32 d => some d.toInt

/-- "+16" or nothing. -/
def dispSuffix (n : Nat) (d : Disp) : String :=
  match dispInt n d with
  | none => ""
  | some v => dispText v

/-- "rcx*4". -/
def indexText (i : Index) : String := gprName i.reg ++ "*" ++ toString (scaleFactor i.scale)

/-- "+rcx*4" or nothing. -/
def indexSuffix : Option Index → String
  | none => ""
  | some i => "+" ++ indexText i

/-- A memory operand in Intel syntax, a 1-byte displacement shown scaled by `n` (R76, R83). -/
def intelMem (n : Nat) : MemOp → String
  | .base b d => "[" ++ gprName b ++ dispSuffix n d ++ "]"
  | .rip d => "[rip" ++ dispText d.toInt ++ "]"
  | .sib b ix d => "[" ++ gprName b ++ indexSuffix ix ++ dispSuffix n d ++ "]"
  | .sibNoBase none d => "[" ++ toString d.toInt ++ "]"
  | .sibNoBase (some i) d => "[" ++ indexText i ++ dispText d.toInt ++ "]"

/-- A number before an AT&T address, or nothing. -/
def attDisp (n : Nat) (d : Disp) : String :=
  match dispInt n d with
  | none => ""
  | some v => toString v

/-- ",%rcx,4" or nothing. -/
def attIndex : Option Index → String
  | none => ""
  | some i => ",%" ++ gprName i.reg ++ "," ++ toString (scaleFactor i.scale)

/-- A memory operand in AT&T syntax (R84). -/
def attMem (n : Nat) : MemOp → String
  | .base b d => attDisp n d ++ "(%" ++ gprName b ++ ")"
  | .rip d => toString d.toInt ++ "(%rip)"
  | .sib b ix d => attDisp n d ++ "(%" ++ gprName b ++ attIndex ix ++ ")"
  | .sibNoBase none d => toString d.toInt
  | .sibNoBase (some i) d => toString d.toInt ++ "(" ++ attIndex (some i) ++ ")"

/-- The mnemonic of a form (R2). -/
def mnemonic : Form → String
  | .pmulld => "PMULLD"
  | .vpmulldVex128 | .vpmulldVex256 => "VPMULLD"
  | .vpmulldEvex128 | .vpmulldEvex256 | .vpmulldEvex512 => "VPMULLD"
  | .vpmullqEvex128 | .vpmullqEvex256 | .vpmullqEvex512 => "VPMULLQ"

/-- The mnemonic in the lower case R84 shows. -/
def mnemonicLower : Form → String
  | .pmulld => "pmulld"
  | .vpmulldVex128 | .vpmulldVex256 => "vpmulld"
  | .vpmulldEvex128 | .vpmulldEvex256 | .vpmulldEvex512 => "vpmulld"
  | .vpmullqEvex128 | .vpmullqEvex256 | .vpmullqEvex512 => "vpmullq"

/-- The write mask after the destination: nothing without one, else k and its number in braces, with the zeroing mark
if it is set; `pre` is what stands before a register name. -/
def maskText (pre : String) (o : EvexOps) : String :=
  match o.mask with
  | none => ""
  | some a => braced (pre ++ "k" ++ toString a.toNat) ++ if o.zeroing then braced "z" else ""

/-- The size word of a broadcast operand: dword or qword (R83). -/
def bcstSize (f : Form) : String := if formEW f = 32 then "dword " else "qword "

/-- The repeat count of a broadcast operand (R39, R83). -/
def repeatText (f : Form) : String := braced ("1to" ++ toString (formKL f))

/-- The last source operand in Intel syntax; legacy and VEX displacements are not scaled (R76). -/
def intelSrc (f : Form) : Src2 → String
  | .reg n => vecName (formVL f) n
  | .mem m => intelMem 1 m

/-- The last source operand of an EVEX form in Intel syntax (R83). -/
def intelEvexSrc (f : Form) (o : EvexOps) : String :=
  match o.src2 with
  | .reg n => vecName (formVL f) n
  | .mem m =>
    if o.bcst then bcstSize f ++ intelMem (evexBytes f true) m ++ repeatText f else intelMem (evexBytes f false) m

/-- The Intel text of an EVEX instruction (R83). -/
def intelEvex (f : Form) (o : EvexOps) : String :=
  mnemonic f ++ " " ++ vecName (formVL f) o.dest ++
    (if o.mask.isSome then " " ++ maskText "" o else "") ++ ", " ++
    vecName (formVL f) o.src1 ++ ", " ++ intelEvexSrc f o

/-- The Intel text of a VEX instruction (R83). -/
def intelVex (f : Form) (o : VexOps) : String :=
  mnemonic f ++ " " ++ vecName (formVL f) o.dest ++ ", " ++ vecName (formVL f) o.src1 ++ ", " ++ intelSrc f o.src2

/-- The Intel text of a legacy instruction (R83). -/
def intelLegacy (o : LegacyOps) : String :=
  mnemonic .pmulld ++ " " ++ vecName 128 o.dest ++ ", " ++ intelSrc .pmulld o.src2

/-- The Intel text of an instruction (R83). -/
def intelText : Instr → String
  | .pmulld o => intelLegacy o
  | .pmulldRex o => intelLegacy o
  | .vpmulldVex128 o => intelVex .vpmulldVex128 o
  | .vpmulldVex256 o => intelVex .vpmulldVex256 o
  | .vpmulldEvex128 o => intelEvex .vpmulldEvex128 o
  | .vpmulldEvex256 o => intelEvex .vpmulldEvex256 o
  | .vpmulldEvex512 o => intelEvex .vpmulldEvex512 o
  | .vpmullqEvex128 o => intelEvex .vpmullqEvex128 o
  | .vpmullqEvex256 o => intelEvex .vpmullqEvex256 o
  | .vpmullqEvex512 o => intelEvex .vpmullqEvex512 o

/-- The last source operand in AT&T syntax (R84). -/
def attSrc (f : Form) : Src2 → String
  | .reg n => "%" ++ vecName (formVL f) n
  | .mem m => attMem 1 m

/-- The last source operand of an EVEX form in AT&T syntax (R84). -/
def attEvexSrc (f : Form) (o : EvexOps) : String :=
  match o.src2 with
  | .reg n => "%" ++ vecName (formVL f) n
  | .mem m => if o.bcst then attMem (evexBytes f true) m ++ repeatText f else attMem (evexBytes f false) m

/-- The AT&T text of an EVEX instruction (R84). -/
def attEvex (f : Form) (o : EvexOps) : String :=
  mnemonicLower f ++ " " ++ attEvexSrc f o ++ ", %" ++ vecName (formVL f) o.src1 ++ ", %" ++
    vecName (formVL f) o.dest ++ maskText "%" o

/-- The AT&T text of a VEX instruction (R84). -/
def attVex (f : Form) (o : VexOps) : String :=
  mnemonicLower f ++ " " ++ attSrc f o.src2 ++ ", %" ++ vecName (formVL f) o.src1 ++ ", %" ++ vecName (formVL f) o.dest

/-- The AT&T text of a legacy instruction (R84). -/
def attLegacy (o : LegacyOps) : String :=
  mnemonicLower .pmulld ++ " " ++ attSrc .pmulld o.src2 ++ ", %" ++ vecName 128 o.dest

/-- The AT&T text of an instruction: operands reversed, registers marked (R84). -/
def attText : Instr → String
  | .pmulld o => attLegacy o
  | .pmulldRex o => attLegacy o
  | .vpmulldVex128 o => attVex .vpmulldVex128 o
  | .vpmulldVex256 o => attVex .vpmulldVex256 o
  | .vpmulldEvex128 o => attEvex .vpmulldEvex128 o
  | .vpmulldEvex256 o => attEvex .vpmulldEvex256 o
  | .vpmulldEvex512 o => attEvex .vpmulldEvex512 o
  | .vpmullqEvex128 o => attEvex .vpmullqEvex128 o
  | .vpmullqEvex256 o => attEvex .vpmullqEvex256 o
  | .vpmullqEvex512 o => attEvex .vpmullqEvex512 o

end Sys2Proof.Machine
end

