-- ==== Sys2Proof/Tests/Slice0.lean ====
section
/-! SUPPORT. Tests on fixed values: what WellFormed refuses, what written-out words decode to, what single steps answer, and for
every statement with hypotheses a state and operands that meet them. Expected values come from
spec/95_test_vectors.md, where a test names its row, or from the rule the test names. -/

namespace Sys2Proof.Tests

open Sys2Proof.Machine

/-! ## Helpers -/

/-- A vector word from its dwords, element 0 first. -/
def dwords (l : List (BitVec 32)) : Vec := l.foldr (fun d acc => (acc <<< 32) ||| d.setWidth 512) 0#512

/-- A vector word from its qwords, element 0 first. -/
def qwords (l : List (BitVec 64)) : Vec := l.foldr (fun d acc => (acc <<< 64) ||| d.setWidth 512) 0#512

/-- All bits from `n` up. -/
def onesFrom (n : Nat) : Vec := BitVec.allOnes 512 <<< n

/-- The reset state with `code` at 0x1000 and the instruction pointer there. -/
def codeAt (code : List Byte) : State :=
  { State.reset with pc := 0x1000#64, mem := Memory.writeBytes [] 0x1000 code }

/-- A state with bytes stored at an address. -/
def withMem (s : State) (a : Nat) (bs : List Byte) : State := { s with mem := s.mem.writeBytes a bs }

/-- A state with a general register set. -/
def withX (s : State) (g : Gpr) (w : Word) : State := { s with x := s.x.set g.toNat w g.isLt }

/-- A state with an opmask register set. -/
def withK (s : State) (a : KReg) (w : Word) : State := { s with k := s.k.set a.toNat w a.isLt }

/-- A state with one excluded region. -/
def withRegion (s : State) (r : Region) : State := { s with cfg := { s.cfg with regions := [r] } }

/-- A state with other CPUID flags. -/
def withFeatures (s : State) (c : Features) : State := { s with cfg := { s.cfg with features := c } }

/-- A state with fault suppression. -/
def suppressing (s : State) : State := { s with cfg := { s.cfg with faultSuppression := true } }

/-- A register of the next state. -/
def nextV (o : Out) (n : VReg) : Option Vec :=
  match o with
  | .next t => some (t.readV n)
  | .fault _ => none
  | .refused _ => none

/-- The instruction pointer of the next state. -/
def nextPc (o : Out) : Option Word :=
  match o with
  | .next t => some t.pc
  | .fault _ => none
  | .refused _ => none

/-- The fault. -/
def faultOf (o : Out) : Option Fault :=
  match o with
  | .next _ => none
  | .fault r => some r
  | .refused _ => none

/-- The refusal. -/
def refusalOf (o : Out) : Option Refusal :=
  match o with
  | .next _ => none
  | .fault _ => none
  | .refused r => some r

/-! ## WellFormed refuses -/

/-- RSP is no index register (R75). -/
theorem test_wf_rsp_index :
    (Instr.vpmulldVex128 ⟨1#5, 2#5, .mem (.sib 0#4 (some ⟨4#4, .x1⟩) .none)⟩).wellFormed = false := by decide

/-- RSP is no index register without a base either (R75). -/
theorem test_wf_rsp_index_no_base :
    (Instr.vpmulldVex128 ⟨1#5, 2#5, .mem (.sibNoBase (some ⟨4#4, .x8⟩) 0#32)⟩).wellFormed = false := by decide

/-- Without a REX byte there is no R8 base (R62). -/
theorem test_wf_gpr_limit : (Instr.pmulld ⟨1#5, .mem (.base 8#4 .none)⟩).wellFormed = false := by decide

/-- Without a REX byte there is no R9 index (R62). -/
theorem test_wf_index_limit :
    (Instr.pmulld ⟨1#5, .mem (.sib 0#4 (some ⟨9#4, .x2⟩) .none)⟩).wellFormed = false := by decide

/-- A base whose low bits are 100 needs SIB (R74). -/
theorem test_wf_base_100 : (Instr.pmulldRex ⟨1#5, .mem (.base 12#4 .none)⟩).wellFormed = false := by decide

/-- A base whose low bits are 101 needs a displacement (R75). -/
theorem test_wf_base_101 : (Instr.pmulldRex ⟨1#5, .mem (.base 13#4 .none)⟩).wellFormed = false := by decide

/-- The same with SIB (R75). -/
theorem test_wf_sib_base_101 : (Instr.pmulld ⟨1#5, .mem (.sib 5#4 none .none)⟩).wellFormed = false := by decide

/-- The legacy form without REX names registers 0 to 7 (R62). -/
theorem test_wf_legacy_dest : (Instr.pmulld ⟨8#5, .reg 0#5⟩).wellFormed = false := by decide

/-- The legacy form with REX names registers 0 to 15 (R16). -/
theorem test_wf_legacyRex_src : (Instr.pmulldRex ⟨0#5, .reg 16#5⟩).wellFormed = false := by decide

/-- The VEX forms name registers 0 to 15: destination (R16). -/
theorem test_wf_vex_dest : (Instr.vpmulldVex256 ⟨16#5, 0#5, .reg 0#5⟩).wellFormed = false := by decide

/-- First source (R16). -/
theorem test_wf_vex_src1 : (Instr.vpmulldVex128 ⟨0#5, 16#5, .reg 0#5⟩).wellFormed = false := by decide

/-- Second source (R16). -/
theorem test_wf_vex_src2 : (Instr.vpmulldVex128 ⟨0#5, 0#5, .reg 31#5⟩).wellFormed = false := by decide

/-- k0 is no write mask (R23). -/
theorem test_wf_evex_k0 :
    (Instr.vpmullqEvex512 ⟨31#5, 31#5, .reg 31#5, false, some 0#3, false⟩).wellFormed = false := by decide

/-- The same operands with k7 are expressible. -/
theorem test_wf_evex_k7 :
    (Instr.vpmullqEvex512 ⟨31#5, 31#5, .reg 31#5, false, some 7#3, false⟩).wellFormed = true := by decide

/-! ## Words written out from the spec decode to their instruction -/

/-- L-1. -/
theorem test_decode_pmulld :
    decode [0x66#8, 0x0F#8, 0x38#8, 0x40#8, 0xCA#8] = .instr (.pmulld ⟨1#5, .reg 2#5⟩) [] := by decide

/-- L-7: RIP-relative. -/
theorem test_decode_pmulld_rip :
    decode [0x66#8, 0x0F#8, 0x38#8, 0x40#8, 0x15#8, 0x00#8, 0x01#8, 0x00#8, 0x00#8] =
      .instr (.pmulld ⟨2#5, .mem (.rip 0x100#32)⟩) [] := by decide

/-- L-6: RSP as base takes SIB with no index. -/
theorem test_decode_pmulld_rsp :
    decode [0x66#8, 0x0F#8, 0x38#8, 0x40#8, 0x5C#8, 0x24#8, 0x10#8] =
      .instr (.pmulld ⟨3#5, .mem (.sib 4#4 none (.d8 0x10#8))⟩) [] := by decide

/-- L-3. -/
theorem test_decode_pmulldRex :
    decode [0x66#8, 0x45#8, 0x0F#8, 0x38#8, 0x40#8, 0xCC#8] = .instr (.pmulldRex ⟨9#5, .reg 12#5⟩) [] := by decide

/-- L-8. -/
theorem test_decode_pmulldRex_sib :
    decode [0x66#8, 0x45#8, 0x0F#8, 0x38#8, 0x40#8, 0x84#8, 0x8D#8, 0x00#8, 0x10#8, 0x00#8, 0x00#8] =
      .instr (.pmulldRex ⟨8#5, .mem (.sib 13#4 (some ⟨1#4, .x4⟩) (.d32 0x1000#32))⟩) [] := by decide

/-- V-1. -/
theorem test_decode_vpmulldVex128 :
    decode [0xC4#8, 0xE2#8, 0x69#8, 0x40#8, 0xCB#8] = .instr (.vpmulldVex128 ⟨1#5, 2#5, .reg 3#5⟩) [] := by decide

/-- V-6. -/
theorem test_decode_vpmulldVex256 :
    decode [0xC4#8, 0x42#8, 0x05#8, 0x40#8, 0x54#8, 0xD8#8, 0x20#8] =
      .instr (.vpmulldVex256 ⟨10#5, 15#5, .mem (.sib 8#4 (some ⟨3#4, .x8⟩) (.d8 0x20#8))⟩) [] := by decide

/-- E-2. -/
theorem test_decode_vpmulldEvex128 :
    decode [0x62#8, 0xF2#8, 0x6D#8, 0x0A#8, 0x40#8, 0xCB#8] =
      .instr (.vpmulldEvex128 ⟨1#5, 2#5, .reg 3#5, false, some 2#3, false⟩) [] := by decide

/-- E-4. -/
theorem test_decode_vpmulldEvex256 :
    decode [0x62#8, 0xF2#8, 0x6D#8, 0xB9#8, 0x40#8, 0x08#8] =
      .instr (.vpmulldEvex256 ⟨1#5, 2#5, .mem (.base 0#4 .none), true, some 1#3, true⟩) [] := by decide

/-- E-7: the fifth bits of all three register numbers. -/
theorem test_decode_vpmulldEvex512 :
    decode [0x62#8, 0x82#8, 0x0D#8, 0x40#8, 0x40#8, 0xC9#8] =
      .instr (.vpmulldEvex512 ⟨17#5, 30#5, .reg 25#5, false, none, false⟩) [] := by decide

/-- Q-5: a scaled displacement of -1. -/
theorem test_decode_vpmullqEvex128 :
    decode [0x62#8, 0xC2#8, 0xD5#8, 0x00#8, 0x40#8, 0x61#8, 0xFF#8] =
      .instr (.vpmullqEvex128 ⟨20#5, 21#5, .mem (.base 9#4 (.d8 0xFF#8)), false, none, false⟩) [] := by decide

/-- Q-2. -/
theorem test_decode_vpmullqEvex256 :
    decode [0x62#8, 0xF2#8, 0xE5#8, 0xAA#8, 0x40#8, 0xE3#8] =
      .instr (.vpmullqEvex256 ⟨4#5, 3#5, .reg 3#5, false, some 2#3, true⟩) [] := by decide

/-- Q-3. -/
theorem test_decode_vpmullqEvex512 :
    decode [0x62#8, 0xF2#8, 0xCD#8, 0x5F#8, 0x40#8, 0x6A#8, 0x01#8] =
      .instr (.vpmullqEvex512 ⟨5#5, 6#5, .mem (.base 2#4 (.d8 1#8)), true, some 7#3, false⟩) [] := by decide

/-- SIB with base 101 and mod 00 has no base register (R75): [rcx*4 + 0x10]. -/
theorem test_decode_no_base :
    decode [0xC4#8, 0xE2#8, 0x69#8, 0x40#8, 0x0C#8, 0x8D#8, 0x10#8, 0x00#8, 0x00#8, 0x00#8, 0x90#8] =
      .instr (.vpmulldVex128 ⟨1#5, 2#5, .mem (.sibNoBase (some ⟨1#4, .x4⟩) 0x10#32)⟩) [0x90#8] := by decide

/-- The table's numbering: the first byte is the least significant. -/
theorem test_decodeTableWord : decodeTableWord 40 0xCB4069E2C4 = some (.vpmulldVex128 ⟨1#5, 2#5, .reg 3#5⟩) := by decide

/-- X-1, X-4, X-5: reserved EVEX fields. -/
theorem test_decode_reserved :
    decode [0x62#8, 0xF2#8, 0x6D#8, 0x68#8, 0x40#8, 0xCB#8] = .invalidOpcode ∧
    decode [0x62#8, 0xF2#8, 0x69#8, 0x48#8, 0x40#8, 0xCB#8] = .invalidOpcode ∧
    decode [0x62#8, 0xF6#8, 0x6D#8, 0x48#8, 0x40#8, 0xCB#8] = .invalidOpcode := by decide

/-- X-6, X-7: one illegal prefix byte. -/
theorem test_decode_illegal_prefix :
    decode [0xF0#8, 0x66#8, 0x0F#8, 0x38#8, 0x40#8, 0x00#8] = .invalidOpcode ∧
    decode [0x66#8, 0xC4#8, 0xE2#8, 0x69#8, 0x40#8, 0xCB#8] = .invalidOpcode := by decide

/-- X-11, X-12, X-13: unlisted. -/
theorem test_decode_unlisted :
    decode [0x0F#8, 0x38#8, 0x40#8, 0xCA#8] = .unlisted .missing66 ∧
    decode [0x67#8, 0x66#8, 0x0F#8, 0x38#8, 0x40#8, 0x00#8] = .unlisted .addressSize ∧
    decode [0xC5#8, 0xE9#8, 0x40#8, 0xCB#8] = .unlisted .twoByteVex := by decide

/-! ## Single steps -/

/-- L-1: upper bits kept. -/
theorem test_pmulld_reg :
    nextV (step (((codeAt [0x66#8, 0x0F#8, 0x38#8, 0x40#8, 0xCA#8]).writeV 1#5
        (dwords [0x2, 0xFFFFFFFF, 0x80000000, 0x10000] ||| onesFrom 128)).writeV 2#5
        (dwords [0x3, 0xFFFFFFFF, 0x80000000, 0x10000]))) 1#5 =
      some (dwords [0x6, 0x1, 0x0, 0x0] ||| onesFrom 128) := by decide +kernel

/-- L-4. -/
theorem test_pmulld_mem :
    nextV (step (withMem (withX ((codeAt [0x66#8, 0x0F#8, 0x38#8, 0x40#8, 0x00#8]).writeV 0#5 (dwords [2, 2, 2, 2]))
        0#4 0x2000#64) 0x2000
        [0x01, 0x00, 0x00, 0x00, 0x00, 0x00, 0x00, 0x80, 0xFF, 0xFF, 0xFF, 0xFF, 0x78, 0x56, 0x34, 0x12])) 0#5 =
      some (dwords [2, 0, 0xFFFFFFFE, 0x2468ACF0]) := by decide +kernel

/-- L-3, with 6 bytes. -/
theorem test_pmulldRex_reg :
    nextV (step (((codeAt [0x66#8, 0x45#8, 0x0F#8, 0x38#8, 0x40#8, 0xCC#8]).writeV 9#5 (dwords [1, 1, 1, 1])).writeV 12#5
        (dwords [0xDEADBEEF, 0, 0x80000000, 7]))) 9#5 = some (dwords [0xDEADBEEF, 0, 0x80000000, 7]) ∧
      nextPc (step (codeAt [0x66#8, 0x45#8, 0x0F#8, 0x38#8, 0x40#8, 0xCC#8])) = some 0x1006#64 := by decide +kernel

/-- L-5 with a REX byte: #GP(0) on a misaligned operand. -/
theorem test_pmulldRex_misaligned :
    faultOf (step (withX (codeAt [0x66#8, 0x40#8, 0x0F#8, 0x38#8, 0x40#8, 0x00#8]) 0#4 0x1004#64)) =
      some (.gp0 0x1000#64) := by decide +kernel

/-- V-1: upper bits zeroed. -/
theorem test_vpmulldVex128_reg :
    nextV (step ((((codeAt [0xC4#8, 0xE2#8, 0x69#8, 0x40#8, 0xCB#8]).writeV 1#5 (onesFrom 0)).writeV 2#5
        (dwords [0x7FFFFFFF, 0x12345678, 0, 0xFFFFFFFE])).writeV 3#5 (dwords [0x2, 0x9ABCDEF0, 0xDEADBEEF, 0xFFFFFFFD])))
        1#5 = some (dwords [0xFFFFFFFE, 0x242D2080, 0, 6]) := by decide +kernel

/-- V-5: a misaligned 32-byte operand. -/
theorem test_vpmulldVex256_mem :
    nextV (step (withMem (withX (((codeAt [0xC4#8, 0xE2#8, 0x7D#8, 0x40#8, 0x10#8]).writeV 0#5
        (dwords [7, 2, 0xFFFFFFFF, 0xFFFF, 0x1999999A, 3, 2, 0x12345678])).writeV 2#5 (onesFrom 0)) 0#4 0x2004#64) 0x2004
        [0x01, 0, 0, 0, 0, 0, 0, 0x80, 0xFF, 0xFF, 0xFF, 0xFF, 0x01, 0, 0x01, 0,
         0x0A, 0, 0, 0, 0xFE, 0xFF, 0xFF, 0xFF, 0xFF, 0xFF, 0xFF, 0x7F, 0, 0, 0, 0])) 2#5 =
      some (dwords [7, 0, 1, 0xFFFFFFFF, 4, 0xFFFFFFFA, 0xFFFFFFFE, 0]) := by decide +kernel

/-- E-2: merging; the bits above 127 zeroed; mask bits from 4 up ignored. -/
theorem test_vpmulldEvex128_merge :
    nextV (step (withK ((((codeAt [0x62#8, 0xF2#8, 0x6D#8, 0x0A#8, 0x40#8, 0xCB#8]).writeV 1#5
        (dwords [0x11111111, 0x22222222, 0x33333333, 0x44444444] ||| onesFrom 128)).writeV 2#5 (dwords [2, 3, 4, 5])).writeV
        3#5 (dwords [10, 10, 10, 10])) 2#3 0xFFF5#64)) 1#5 =
      some (dwords [0x14, 0x22222222, 0x28, 0x44444444]) := by decide +kernel

/-- E-3: zeroing. -/
theorem test_vpmulldEvex128_zero :
    nextV (step (withK ((((codeAt [0x62#8, 0xF2#8, 0x6D#8, 0x8A#8, 0x40#8, 0xCB#8]).writeV 1#5
        (onesFrom 0)).writeV 2#5 (dwords [2, 3, 4, 5])).writeV 3#5 (dwords [10, 10, 10, 10])) 2#3 0xFFF5#64)) 1#5 =
      some (dwords [0x14, 0, 0x28, 0]) := by decide +kernel

/-- E-4: broadcast with zeroing. -/
theorem test_vpmulldEvex256_bcst :
    nextV (step (withMem (withX (withK (((codeAt [0x62#8, 0xF2#8, 0x6D#8, 0xB9#8, 0x40#8, 0x08#8]).writeV 1#5
        (onesFrom 0)).writeV 2#5 (dwords [1, 2, 3, 4, 5, 6, 7, 8])) 1#3 0xAA#64) 0#4 0x2000#64) 0x2000 [0x64#8])) 1#5 =
      some (dwords [0, 0xC8, 0, 0x190, 0, 0x258, 0, 0x320]) := by decide +kernel

/-- E-7: registers above 15. -/
theorem test_vpmulldEvex512_reg :
    nextV (step (((codeAt [0x62#8, 0x82#8, 0x0D#8, 0x40#8, 0x40#8, 0xC9#8]).writeV 30#5
        (dwords [3, 3, 3, 3, 3, 3, 3, 3, 3, 3, 3, 3, 3, 3, 3, 3])).writeV 25#5
        (dwords [0, 1, 2, 3, 4, 5, 6, 7, 8, 9, 10, 11, 12, 13, 14, 15]))) 17#5 =
      some (dwords [0, 3, 6, 9, 12, 15, 18, 21, 24, 27, 30, 33, 36, 39, 42, 45]) := by decide +kernel

/-- E-8: a 1-byte displacement of 1 is 64 bytes; the operand's first dword is at rax + 64. -/
theorem test_vpmulldEvex512_disp8 :
    nextV (step (withMem (withX ((codeAt [0x62#8, 0xF2#8, 0x6D#8, 0x48#8, 0x40#8, 0x48#8, 0x01#8]).writeV 2#5
        (dwords [5])) 0#4 0x3000#64) 0x3040 [7#8])) 1#5 = some (dwords [35]) := by decide +kernel

/-- Q-1: VPMULLQ, a carry across the dword boundary. -/
theorem test_vpmullqEvex128_reg :
    nextV (step (((codeAt [0x62#8, 0xF2#8, 0xED#8, 0x08#8, 0x40#8, 0xCB#8]).writeV 2#5
        (qwords [0x123456789ABCDEF0, 0x00000000FFFFFFFF])).writeV 3#5 (qwords [0x0FEDCBA987654321, 0x100000001]))) 1#5 =
      some (qwords [0x2236D88FE5618CF0, 0xFFFFFFFFFFFFFFFF]) := by decide +kernel

/-- Q-5: sixteen bytes at r9 - 16. -/
theorem test_vpmullqEvex128_mem :
    nextV (step (withMem (withX ((codeAt [0x62#8, 0xC2#8, 0xD5#8, 0x00#8, 0x40#8, 0x61#8, 0xFF#8]).writeV 21#5
        (qwords [3, 3])) 9#4 0x5010#64) 0x5000 [2, 0, 0, 0, 0, 0, 0, 0, 0, 0, 0, 0, 0, 0, 0, 1])) 20#5 =
      some (qwords [6, 0x0300000000000000]) := by decide +kernel

/-- Q-2: zeroing with the same register as both sources. -/
theorem test_vpmullqEvex256_zero :
    nextV (step (withK (((codeAt [0x62#8, 0xF2#8, 0xE5#8, 0xAA#8, 0x40#8, 0xE3#8]).writeV 4#5 (onesFrom 0)).writeV 3#5
        (qwords [3, 0x100000000, 0xFFFFFFFFFFFFFFFF, 0x186A0])) 2#3 0xD#64)) 4#5 =
      some (qwords [9, 0, 1, 0x2540BE400]) := by decide +kernel

/-- Q-3: broadcast of eight bytes, merging. -/
theorem test_vpmullqEvex512_bcst :
    nextV (step (withMem (withX (withK (((codeAt [0x62#8, 0xF2#8, 0xCD#8, 0x5F#8, 0x40#8, 0x6A#8, 0x01#8]).writeV 5#5
        (BitVec.ofNat 512 (0xAA * ((2 ^ 512 - 1) / 255)))).writeV 6#5 (qwords [0, 1, 2, 3, 4, 5, 6, 7])) 7#3 0x0F#64)
        2#4 0x2000#64) 0x2008 [0xFF, 0xFF, 0xFF, 0xFF, 0xFF, 0xFF, 0xFF, 0xFF])) 5#5 =
      some (qwords [0, 0xFFFFFFFFFFFFFFFF, 0xFFFFFFFFFFFFFFFE, 0xFFFFFFFFFFFFFFFD,
        0xAAAAAAAAAAAAAAAA, 0xAAAAAAAAAAAAAAAA, 0xAAAAAAAAAAAAAAAA, 0xAAAAAAAAAAAAAAAA]) := by decide +kernel

/-- X-2, X-3: the reserved combinations raise #UD. -/
theorem test_reserved_combinations :
    faultOf (step (codeAt [0x62#8, 0xF2#8, 0x6D#8, 0x88#8, 0x40#8, 0xCB#8])) = some (.ud 0x1000#64) ∧
    faultOf (step (codeAt [0x62#8, 0xF2#8, 0x6D#8, 0x58#8, 0x40#8, 0xCB#8])) = some (.ud 0x1000#64) := by decide +kernel

/-- X-8, X-9, X-10: missing CPUID flags raise #UD. -/
theorem test_missing_features :
    faultOf (step (withFeatures (codeAt [0xC4#8, 0xE2#8, 0x6D#8, 0x40#8, 0xCB#8])
      ⟨true, true, false, true, true, true⟩)) = some (.ud 0x1000#64) ∧
    faultOf (step (withFeatures (codeAt [0x62#8, 0xF2#8, 0xED#8, 0x48#8, 0x40#8, 0xCB#8])
      ⟨true, true, true, true, true, false⟩)) = some (.ud 0x1000#64) ∧
    faultOf (step (withFeatures (codeAt [0x62#8, 0xF2#8, 0x6D#8, 0x08#8, 0x40#8, 0xCB#8])
      ⟨true, true, true, true, false, true⟩)) = some (.ud 0x1000#64) := by decide +kernel

/-- X-14: #NM. -/
theorem test_task_switched :
    faultOf (step { codeAt [0xC4#8, 0xE2#8, 0x6D#8, 0x40#8, 0xCB#8] with cr0 := 8#64 }) = some (.nm 0x1000#64) := by decide +kernel

/-- A page fault at the second page of an operand: CR2 is the first failing byte, code 4 is U/S alone (R114). -/
theorem test_page_fault :
    faultOf (step (withRegion (withX (codeAt [0xC4#8, 0xE2#8, 0x7D#8, 0x40#8, 0x10#8]) 0#4 0x2FF0#64)
      ⟨0x3000, 0x1000, .pageFault ⟨false, true, false, false⟩⟩)) =
      some (.memFault 0x1000#64 0x2FF0#64 32 (.pageFault 0x3000#64 4#6)) := by decide +kernel

/-- A non-canonical address: #SS(0) with RSP as base, #GP(0) with RAX (R75, R119). -/
theorem test_non_canonical :
    faultOf (step (withX (codeAt [0xC4#8, 0xE2#8, 0x79#8, 0x40#8, 0x04#8, 0x24#8]) 4#4 0x800000000000#64)) =
      some (.memFault 0x1000#64 0x800000000000#64 16 .stackSegment) ∧
    faultOf (step (withX (codeAt [0xC4#8, 0xE2#8, 0x79#8, 0x40#8, 0x00#8]) 0#4 0x800000000000#64)) =
      some (.memFault 0x1000#64 0x800000000000#64 16 .generalProtection) := by decide +kernel

/-- An instruction that would cross 2^64 is refused (R26). -/
theorem test_crossing_top :
    refusalOf (step (withMem { State.reset with pc := 0xFFFFFFFFFFFFFFFC#64 } 0xFFFFFFFFFFFFFFFC
      [0xC4, 0xE2, 0x6D, 0x40])) = some .crossesTop := by decide +kernel

/-- A word placed at reset runs as the first instruction. -/
theorem test_first_instruction :
    nextPc (step (State.reset.withFetchWord 40 0xCB4069E2C4)) = some 5#64 := by decide +kernel

/-! ## Assembler text (R83, R84) -/

theorem test_intel_text :
    intelText (.vpmulldVex256 ⟨1#5, 2#5, .reg 3#5⟩) = "VPMULLD ymm1, ymm2, ymm3" ∧
    intelText (.pmulld ⟨3#5, .mem (.sib 4#4 none (.d8 0x10#8))⟩) = "PMULLD xmm3, [rsp+16]" ∧
    intelText (.vpmullqEvex128 ⟨20#5, 21#5, .mem (.base 9#4 (.d8 0xFF#8)), false, none, false⟩) =
      "VPMULLQ xmm20, xmm21, [r9-16]" := by decide

/-- E-4 and R83: mask, zeroing and the repeat count. -/
theorem test_intel_text_bcst :
    intelText (.vpmulldEvex256 ⟨1#5, 2#5, .mem (.base 0#4 .none), true, some 1#3, true⟩) =
      "VPMULLD ymm1 " ++ braced "k1" ++ braced "z" ++ ", ymm2, dword [rax]" ++ braced "1to8" := by decide

/-- The three examples of R84. -/
theorem test_att_text :
    attText (.pmulld ⟨1#5, .reg 2#5⟩) = "pmulld %xmm2, %xmm1" ∧
    attText (.vpmulldVex128 ⟨1#5, 2#5, .reg 3#5⟩) = "vpmulld %xmm3, %xmm2, %xmm1" ∧
    attText (.vpmulldEvex512 ⟨1#5, 2#5, .mem (.base 0#4 .none), true, some 1#3, true⟩) =
      "vpmulld (%rax)" ++ braced "1to16" ++ ", %zmm2, %zmm1" ++ braced "%k1" ++ braced "z" := by decide

/-! ## Witnesses: states and operands that meet the hypotheses of each statement -/

/-- Two CPUID sets: everything, and SSE4.1 only. -/
def allFeatures : Features := ⟨true, true, true, true, true, true⟩

/-- SSE4.1 alone. -/
def sseOnly : Features := ⟨true, false, false, false, false, false⟩

/-- The reset state with excluded bytes 0x3000 to 0x3FFF, whose translation fails. -/
def pageGap : State := withRegion State.reset ⟨0x3000, 0x1000, .pageFault ⟨false, true, false, false⟩⟩

/-- The reset state with device memory at 0x3000 to 0x3FFF. -/
def deviceGap : State := withRegion State.reset ⟨0x3000, 0x1000, .device⟩

/-- An instruction with a 32-byte memory operand at RAX. -/
def loadRax : Instr := .vpmulldVex256 ⟨2#5, 0#5, .mem (.base 0#4 .none)⟩

/-- An EVEX instruction with mask k2 and a 16-byte memory operand at RAX. -/
def maskedLoad : Instr := .vpmulldEvex128 ⟨2#5, 0#5, .mem (.base 0#4 .none), false, some 2#3, false⟩

/-- Fault suppression, RAX = 0x2FF8, k2 = 0011: the first two dwords are admitted, the last two lie in the gap. -/
def halfMasked : State := suppressing (withK (withX pageGap 0#4 0x2FF8#64) 2#3 3#64)

theorem witness_DecodeOfEncodeIsIdentity :
    (Instr.pmulld ⟨7#5, .mem (.sib 7#4 (some ⟨3#4, .x8⟩) (.d8 0xFF#8))⟩).wellFormed = true ∧
    (Instr.pmulldRex ⟨15#5, .mem (.base 15#4 (.d32 0x80000000#32))⟩).wellFormed = true ∧
    (Instr.vpmulldVex128 ⟨15#5, 15#5, .mem (.rip 0xFFFFFFFF#32)⟩).wellFormed = true ∧
    (Instr.vpmulldVex256 ⟨0#5, 15#5, .mem (.sibNoBase (some ⟨15#4, .x8⟩) 0#32)⟩).wellFormed = true ∧
    (Instr.vpmulldEvex128 ⟨31#5, 31#5, .reg 31#5, true, none, true⟩).wellFormed = true ∧
    (Instr.vpmulldEvex256 ⟨0#5, 16#5, .mem (.sib 13#4 none (.d8 0#8)), true, some 7#3, true⟩).wellFormed = true ∧
    (Instr.vpmulldEvex512 ⟨16#5, 0#5, .mem (.base 7#4 .none), false, some 1#3, false⟩).wellFormed = true ∧
    (Instr.vpmullqEvex128 ⟨31#5, 15#5, .mem (.sibNoBase none 1#32), false, none, false⟩).wellFormed = true ∧
    (Instr.vpmullqEvex256 ⟨31#5, 0#5, .reg 0#5, false, some 7#3, true⟩).wellFormed = true ∧
    (Instr.vpmullqEvex512 ⟨0#5, 31#5, .mem (.rip 0#32), true, none, false⟩).wellFormed = true := by decide

theorem witness_DecodedIsWellFormedOfItsLength :
    decode [0xC4#8, 0xE2#8, 0x69#8, 0x40#8, 0xCB#8, 0x90#8] = .instr (.vpmulldVex128 ⟨1#5, 2#5, .reg 3#5⟩) [0x90#8] := by
  decide

theorem witness_OpcodeRowsNeverOverlap : Row.legacy.fits [0x66#8, 0x0F#8, 0x38#8, 0x40#8] = true := by decide

theorem witness_FirstByteDecidesKind :
    decode [0x66#8, 0x0F#8, 0x38#8, 0x40#8, 0xCA#8] = .instr (.pmulld ⟨1#5, .reg 2#5⟩) [] ∧
    decode [0xC4#8, 0xE2#8, 0x69#8, 0x40#8, 0xCB#8] = .instr (.vpmulldVex128 ⟨1#5, 2#5, .reg 3#5⟩) [] ∧
    decode [0x62#8, 0xF2#8, 0x6D#8, 0x0A#8, 0x40#8, 0xCB#8] =
      .instr (.vpmulldEvex128 ⟨1#5, 2#5, .reg 3#5, false, some 2#3, false⟩) [] := by decide

/-- A register source (ModRM CA, 11 001 010) and a memory source (ModRM 00), without and with REX (45 and 4F); and bytes with ignored
bits set: REX.W (48), and REX.B of a RIP-relative operand (49). -/
theorem witness_LegacyFieldsReadRight :
    decode [0x66#8, 0x0F#8, 0x38#8, 0x40#8, 0xCA#8] = .instr (.pmulld ⟨1#5, .reg 2#5⟩) [] ∧
    decode [0x66#8, 0x0F#8, 0x38#8, 0x40#8, 0x00#8] = .instr (.pmulld ⟨0#5, .mem (.base 0#4 .none)⟩) [] ∧
    decode [0x66#8, 0x45#8, 0x0F#8, 0x38#8, 0x40#8, 0xCC#8] = .instr (.pmulldRex ⟨9#5, .reg 12#5⟩) [] ∧
    decode [0x66#8, 0x4F#8, 0x0F#8, 0x38#8, 0x40#8, 0x3F#8] = .instr (.pmulldRex ⟨15#5, .mem (.base 15#4 .none)⟩) [] ∧
    ((0x48#8).toNat / 16 = 4 ∧ rawTail (0xCA#8).toNat [] ≤ 0) ∧
    ((0x49#8).toNat / 16 = 4 ∧ rawTail (0x05#8).toNat [0x00#8, 0x01#8, 0x00#8, 0x00#8] ≤ 4) := by decide

/-- W = 1 is the same instruction in the legacy form too (R61). -/
theorem test_decode_rexW :
    decode [0x66#8, 0x48#8, 0x0F#8, 0x38#8, 0x40#8, 0xCA#8] = .instr (.pmulldRex ⟨1#5, .reg 2#5⟩) [] := by decide

theorem witness_VexFieldsReadRight :
    decode [0xC4#8, 0xE2#8, 0x6D#8, 0x40#8, 0xCB#8] = .instr (.vpmulldVex256 ⟨1#5, 2#5, .reg 3#5⟩) [] ∧
    decode [0xC4#8, 0x02#8, 0x01#8, 0x40#8, 0x3C#8, 0x7F#8] =
      .instr (.vpmulldVex128 ⟨15#5, 15#5, .mem (.sib 15#4 (some ⟨15#4, .x2⟩) .none)⟩) [] ∧
    ((0xE2#8).toNat % 32 = 2 ∧ (0xFD#8).toNat % 4 = 1 ∧ rawTail (0x44#8).toNat [0x24#8, 0x10#8] ≤ 2) := by decide

theorem witness_EvexFieldsReadRight :
    decode [0x62#8, 0x82#8, 0x0D#8, 0x40#8, 0x40#8, 0xC9#8] =
      .instr (.vpmulldEvex512 ⟨17#5, 30#5, .reg 25#5, false, none, false⟩) [] ∧
    decode [0x62#8, 0x02#8, 0x85#8, 0x97#8, 0x40#8, 0x7C#8, 0xFD#8, 0x80#8] =
      .instr (.vpmullqEvex128 ⟨31#5, 31#5, .mem (.sib 13#4 (some ⟨15#4, .x8⟩) (.d8 0x80#8)), true, some 7#3, true⟩) [] ∧
    ((0xD2#8).toNat % 16 = 2 ∧ (0x6D#8).toNat % 8 = 5 ∧ (0x48#8).toNat / 32 % 4 ≠ 3 ∧
      rawTail (0x84#8).toNat [0x25#8, 0#8, 0#8, 0#8, 0#8] ≤ 5) := by
  decide

theorem witness_VexWIsIgnored :
    decode (0xC4#8 :: [0xE2#8, 0xE9#8, 0x40#8, 0xCB#8]) = .instr (.vpmulldVex128 ⟨1#5, 2#5, .reg 3#5⟩) [] := by decide

theorem witness_StepRunsDecodedInstruction : ∃ rest, decode (fetch (codeAt [0xC4#8, 0xE2#8, 0x69#8, 0x40#8, 0xCB#8])) =
    .instr (.vpmulldVex128 ⟨1#5, 2#5, .reg 3#5⟩) rest := ⟨_, rfl⟩

/-- F0 before a row and before the family; 66 and 4F before a VEX row and before the family. -/
theorem witness_IllegalPrefixRaisesUd_one :
    (∃ bs, fetch (codeAt [0xF0#8, 0x66#8, 0x0F#8, 0x38#8, 0x40#8]) = 0xF0#8 :: bs ∧ Row.legacy.fits bs = true) ∧
    (∃ bs, fetch (codeAt [0xF0#8, 0x62#8, 0xF2#8, 0x6D#8, 0x68#8, 0x40#8]) = 0xF0#8 :: bs ∧ evexFamily bs = true) ∧
    (∃ bs, fetch (codeAt [0x66#8, 0xC4#8, 0xE2#8, 0x69#8, 0x40#8]) = 0x66#8 :: bs ∧
      Row.vex128.kind ≠ .legacy ∧ Row.vex128.fits bs = true) ∧
    (∃ bs, fetch (codeAt [0x4F#8, 0x62#8, 0xF2#8, 0x6D#8, 0x68#8, 0x40#8]) = 0x4F#8 :: bs ∧ evexFamily bs = true) :=
  ⟨⟨_, rfl, rfl⟩, ⟨_, rfl, rfl⟩, ⟨_, rfl, by decide, rfl⟩, ⟨_, rfl, rfl⟩⟩

/-- F2 before the legacy row; F2 and F3 before a VEX row; 66, 40 and F0 before an EVEX family pattern. -/
theorem witness_IllegalPrefixRaisesUd_refused :
    (∃ bs, fetch (codeAt [0xF2#8, 0x66#8, 0x0F#8, 0x38#8, 0x40#8]) = 0xF2#8 :: bs ∧
      Row.legacy.kind = .legacy ∧ Row.legacy.fits bs = true) ∧
    (∃ cs, fetch (codeAt [0xF2#8, 0xF3#8, 0xC4#8, 0xE2#8, 0x69#8, 0x40#8]) = [0xF2#8, 0xF3#8] ++ cs ∧
      Row.vex128.fits cs = true) ∧
    (∃ cs, fetch (codeAt [0x66#8, 0x40#8, 0xF0#8, 0x62#8, 0xF2#8, 0x6D#8, 0x68#8, 0x40#8]) =
      [0x66#8, 0x40#8, 0xF0#8] ++ cs ∧ evexFamily cs = true) := ⟨⟨_, rfl, rfl, rfl⟩, ⟨_, rfl, rfl⟩, ⟨_, rfl, rfl⟩⟩

/-- P0 bits 3:2 = 01; P1 bit 2 = 0; L'L = 11; and none of the three. -/
theorem witness_EvexReservedFieldRaisesUd :
    (∃ bs, fetch (codeAt [0x62#8, 0xF6#8, 0x6D#8, 0x48#8, 0x40#8]) =
      0x62#8 :: 0xF6#8 :: 0x6D#8 :: 0x48#8 :: 0x40#8 :: bs ∧ (0xF6#8).toNat / 4 % 4 ≠ 0) ∧
    (∃ bs, fetch (codeAt [0x62#8, 0xF2#8, 0x69#8, 0x48#8, 0x40#8]) =
      0x62#8 :: 0xF2#8 :: 0x69#8 :: 0x48#8 :: 0x40#8 :: bs ∧ (0x69#8).toNat / 4 % 2 = 0) ∧
    (∃ bs, fetch (codeAt [0x62#8, 0xF2#8, 0x6D#8, 0x68#8, 0x40#8]) =
      0x62#8 :: 0xF2#8 :: 0x6D#8 :: 0x68#8 :: 0x40#8 :: bs ∧ (0x68#8).toNat / 32 % 4 = 3) ∧
    (∃ bs, fetch (codeAt [0x62#8, 0xF2#8, 0x6D#8, 0x48#8, 0x40#8]) =
      0x62#8 :: 0xF2#8 :: 0x6D#8 :: 0x48#8 :: 0x40#8 :: bs ∧ (0xF2#8).toNat % 4 = 2 ∧ (0x6D#8).toNat % 4 = 1 ∧
        (0xF2#8).toNat / 4 % 4 = 0 ∧ (0x6D#8).toNat / 4 % 2 = 1 ∧ (0x48#8).toNat / 32 % 4 ≠ 3) :=
  ⟨⟨_, rfl, by decide⟩, ⟨_, rfl, by decide⟩, ⟨_, rfl, by decide⟩, ⟨_, rfl, by decide⟩⟩

/-- Bytes that begin no row, and the legacy row behind a REX byte, which R79 does not make #UD. -/
theorem witness_UnlistedBytesAreRefused_other :
    ((∀ r : Row, ¬ RowPattern r [0x90#8]) ∧ ¬ InFamily [0x90#8]) ∧
    ∀ bs, (∀ r : Row, ¬ RowPattern r (0x48#8 :: 0x66#8 :: 0x0F#8 :: 0x38#8 :: 0x40#8 :: bs)) ∧
      ¬ InFamily (0x48#8 :: 0x66#8 :: 0x0F#8 :: 0x38#8 :: 0x40#8 :: bs) ∧
      (∀ r : Row, r.kind ≠ .legacy → ¬ RowPattern r (0x66#8 :: 0x0F#8 :: 0x38#8 :: 0x40#8 :: bs)) ∧
      ¬ InFamily (0x66#8 :: 0x0F#8 :: 0x38#8 :: 0x40#8 :: bs) := by
  refine ⟨⟨fun r => ?_, ?_⟩, fun bs => ⟨fun r => ?_, ?_, fun r hr => ?_, ?_⟩⟩ <;>
    (try cases r) <;>
    simp_all [RowPattern, RowPattern.VexPattern, RowPattern.EvexPattern, InFamily, Row.kind]

/-- The second of those, as fetched; the instruction pointer's first byte is 48. -/
theorem witness_UnlistedBytesAreRefused_fetched :
    ∃ bs, fetch (codeAt [0x48#8, 0x66#8, 0x0F#8, 0x38#8, 0x40#8]) =
      0x48#8 :: 0x66#8 :: 0x0F#8 :: 0x38#8 :: 0x40#8 :: bs ∧ (0x48#8).toNat / 16 = 4 ∧ 0x48#8 ≠ 0xF0#8 :=
  ⟨_, rfl, by decide⟩

/-- One state for each named clause. -/
theorem witness_UnlistedBytesAreRefused_named :
    (∃ bs, fetch (codeAt [0x65#8, 0x66#8, 0x0F#8, 0x38#8, 0x40#8]) = 0x65#8 :: bs ∧
      0x65#8 ∈ [0x2E#8, 0x36#8, 0x3E#8, 0x26#8, 0x64#8, 0x65#8]) ∧
    (∃ bs, fetch (codeAt [0x67#8, 0x66#8, 0x0F#8, 0x38#8, 0x40#8]) = 0x67#8 :: bs) ∧
    (∃ bs, fetch (codeAt [0xC5#8, 0xE9#8, 0x40#8, 0xCB#8]) = 0xC5#8 :: bs) ∧
    (∃ bs, fetch (codeAt [0x0F#8, 0x38#8, 0x40#8, 0xCA#8]) = 0x0F#8 :: bs ∧ bs.take 2 = [0x38#8, 0x40#8]) :=
  ⟨⟨_, rfl, by decide⟩, ⟨_, rfl⟩, ⟨_, rfl⟩, ⟨_, rfl, rfl⟩⟩

/-- Four of the five bytes of VPMULLD ymm1, ymm2, ymm3, with W = 1, at the top of the address space. -/
theorem witness_CrossingTopIsRefused :
    decode (fetch (withMem { State.reset with pc := 0xFFFFFFFFFFFFFFFC#64 } 0xFFFFFFFFFFFFFFFC [0xC4, 0xE2, 0xED, 0x40]) ++
        [0xCB#8]) = .instr (.vpmulldVex256 ⟨1#5, 2#5, .reg 3#5⟩) [] ∧
    (fetch (withMem { State.reset with pc := 0xFFFFFFFFFFFFFFFC#64 } 0xFFFFFFFFFFFFFFFC [0xC4, 0xE2, 0xED, 0x40])).length <
      (Instr.vpmulldVex256 ⟨1#5, 2#5, .reg 3#5⟩).ilen := by decide

/-- The reset state is ready for every form. -/
theorem reset_ready (f : Form) : Ready f State.reset := by
  cases f <;> simp only [Ready, Usable, HasFeatures, EnabledBits, formKind, State.reset] <;> decide

theorem witness_PmulldResult :
    Ready .pmulld State.reset ∧
    SourceIs (.pmulld ⟨1#5, .reg 1#5⟩) State.reset (State.reset.readV 1#5) ∧
    SourceIs (.pmulldRex ⟨9#5, .mem (.base 0#4 .none)⟩) State.reset (memValue State.reset 0#64 16) :=
  ⟨reset_ready _, rfl, fun _ => rfl, by simp only [OperandAdmitted]; decide, rfl⟩

theorem witness_VpmulldVex128Result :
    Ready .vpmulldVex128 State.reset ∧
    SourceIs (.vpmulldVex128 ⟨1#5, 1#5, .reg 1#5⟩) State.reset (State.reset.readV 1#5) ∧
    SourceIs (.vpmulldVex128 ⟨1#5, 2#5, .mem (.base 0#4 (.d8 1#8))⟩) State.reset (memValue State.reset 1#64 16) :=
  ⟨reset_ready _, rfl, (fun h => nomatch h), by simp only [OperandAdmitted]; decide, rfl⟩

theorem witness_VpmulldVex256Result :
    Ready .vpmulldVex256 State.reset ∧
    SourceIs (.vpmulldVex256 ⟨1#5, 1#5, .reg 1#5⟩) State.reset (State.reset.readV 1#5) ∧
    SourceIs (.vpmulldVex256 ⟨1#5, 2#5, .mem (.base 0#4 (.d8 1#8))⟩) State.reset (memValue State.reset 1#64 32) :=
  ⟨reset_ready _, rfl, (fun h => nomatch h), by simp only [OperandAdmitted]; decide, rfl⟩

/-- A register source with merging; a broadcast operand with zeroing. -/
theorem witness_VpmulldEvex128Result :
    Ready .vpmulldEvex128 State.reset ∧
    NotReserved ⟨1#5, 1#5, .reg 1#5, false, some 1#3, false⟩ ∧
    NotReserved ⟨1#5, 2#5, .mem (.base 0#4 (.d8 1#8)), true, some 1#3, true⟩ ∧
    SourceIs (.vpmulldEvex128 ⟨1#5, 1#5, .reg 1#5, false, some 1#3, false⟩) State.reset (State.reset.readV 1#5) ∧
    SourceIs (.vpmulldEvex128 ⟨1#5, 2#5, .mem (.base 0#4 (.d8 1#8)), true, some 1#3, true⟩) State.reset
      (memValue State.reset 4#64 4) :=
  ⟨reset_ready _, by simp [NotReserved], by simp [NotReserved], rfl, (fun h => nomatch h), by simp only [OperandAdmitted, MaskedAccessible]; decide, rfl⟩

theorem witness_VpmulldEvex256Result :
    Ready .vpmulldEvex256 State.reset ∧
    NotReserved ⟨1#5, 1#5, .reg 1#5, false, some 1#3, false⟩ ∧
    NotReserved ⟨31#5, 2#5, .mem (.base 0#4 (.d8 1#8)), false, none, false⟩ ∧
    SourceIs (.vpmulldEvex256 ⟨1#5, 1#5, .reg 1#5, false, some 1#3, false⟩) State.reset (State.reset.readV 1#5) ∧
    SourceIs (.vpmulldEvex256 ⟨31#5, 2#5, .mem (.base 0#4 (.d8 1#8)), false, none, false⟩) State.reset
      (memValue State.reset 32#64 32) :=
  ⟨reset_ready _, by simp [NotReserved], by simp [NotReserved], rfl, (fun h => nomatch h), by simp only [OperandAdmitted, MaskedAccessible]; decide, rfl⟩

theorem witness_VpmulldEvex512Result :
    Ready .vpmulldEvex512 State.reset ∧
    NotReserved ⟨1#5, 1#5, .reg 1#5, false, some 1#3, false⟩ ∧
    NotReserved ⟨1#5, 2#5, .mem (.base 0#4 (.d8 1#8)), true, some 1#3, true⟩ ∧
    SourceIs (.vpmulldEvex512 ⟨1#5, 1#5, .reg 1#5, false, some 1#3, false⟩) State.reset (State.reset.readV 1#5) ∧
    SourceIs (.vpmulldEvex512 ⟨1#5, 2#5, .mem (.base 0#4 (.d8 1#8)), true, some 1#3, true⟩) State.reset
      (memValue State.reset 4#64 4) :=
  ⟨reset_ready _, by simp [NotReserved], by simp [NotReserved], rfl, (fun h => nomatch h), by simp only [OperandAdmitted, MaskedAccessible]; decide, rfl⟩

theorem witness_VpmullqEvex128Result :
    Ready .vpmullqEvex128 State.reset ∧
    NotReserved ⟨1#5, 1#5, .reg 1#5, false, some 1#3, false⟩ ∧
    NotReserved ⟨1#5, 2#5, .mem (.base 0#4 (.d8 1#8)), true, some 1#3, true⟩ ∧
    SourceIs (.vpmullqEvex128 ⟨1#5, 1#5, .reg 1#5, false, some 1#3, false⟩) State.reset (State.reset.readV 1#5) ∧
    SourceIs (.vpmullqEvex128 ⟨1#5, 2#5, .mem (.base 0#4 (.d8 1#8)), true, some 1#3, true⟩) State.reset
      (memValue State.reset 8#64 8) :=
  ⟨reset_ready _, by simp [NotReserved], by simp [NotReserved], rfl, (fun h => nomatch h), by simp only [OperandAdmitted, MaskedAccessible]; decide, rfl⟩

theorem witness_VpmullqEvex256Result :
    Ready .vpmullqEvex256 State.reset ∧
    NotReserved ⟨1#5, 1#5, .reg 1#5, false, some 1#3, false⟩ ∧
    NotReserved ⟨31#5, 2#5, .mem (.base 0#4 (.d8 1#8)), false, none, false⟩ ∧
    SourceIs (.vpmullqEvex256 ⟨1#5, 1#5, .reg 1#5, false, some 1#3, false⟩) State.reset (State.reset.readV 1#5) ∧
    SourceIs (.vpmullqEvex256 ⟨31#5, 2#5, .mem (.base 0#4 (.d8 1#8)), false, none, false⟩) State.reset
      (memValue State.reset 32#64 32) :=
  ⟨reset_ready _, by simp [NotReserved], by simp [NotReserved], rfl, (fun h => nomatch h), by simp only [OperandAdmitted, MaskedAccessible]; decide, rfl⟩

theorem witness_VpmullqEvex512Result :
    Ready .vpmullqEvex512 State.reset ∧
    NotReserved ⟨1#5, 1#5, .reg 1#5, false, some 1#3, false⟩ ∧
    NotReserved ⟨1#5, 2#5, .mem (.base 0#4 (.d8 1#8)), true, some 1#3, true⟩ ∧
    SourceIs (.vpmullqEvex512 ⟨1#5, 1#5, .reg 1#5, false, some 1#3, false⟩) State.reset (State.reset.readV 1#5) ∧
    SourceIs (.vpmullqEvex512 ⟨1#5, 2#5, .mem (.base 0#4 (.d8 1#8)), true, some 1#3, true⟩) State.reset
      (memValue State.reset 8#64 8) :=
  ⟨reset_ready _, by simp [NotReserved], by simp [NotReserved], rfl, (fun h => nomatch h), by simp only [OperandAdmitted, MaskedAccessible]; decide, rfl⟩

/-- Under fault suppression an operand half of whose bytes are excluded can be had, since its last two elements are masked
off. -/
theorem witness_VpmulldEvex128Result_suppressed :
    Ready .vpmulldEvex128 halfMasked ∧
    SourceIs maskedLoad halfMasked (memValue halfMasked 0x2FF8#64 16) :=
  ⟨by simp only [Ready, Usable, HasFeatures, EnabledBits, formKind]; decide, (fun h => nomatch h),
   by simp only [OperandAdmitted, MaskedAccessible, maskedLoad]; decide, rfl⟩

/-- A completing instruction of each kind, with a bit number at the edges of R18's range. -/
theorem witness_UpperBitsOfDestination :
    (∃ t, exec (.pmulld ⟨1#5, .reg 2#5⟩) State.reset = .next t) ∧
    (∃ t, exec (.vpmulldVex256 ⟨1#5, 2#5, .reg 3#5⟩) State.reset = .next t) ∧
    (∃ t, exec (.vpmullqEvex128 ⟨1#5, 2#5, .reg 3#5, false, none, false⟩) State.reset = .next t) ∧
    formVL .pmulld ≤ 128 ∧ 511 < maxvl State.reset.cfg ∧ formVL .vpmulldVex256 ≤ 256 ∧ formVL .vpmullqEvex128 ≤ 128 :=
  ⟨⟨_, rfl⟩, ⟨_, rfl⟩, ⟨_, rfl⟩, by decide⟩

/-- Mask bit 4 differs, and VPMULLD xmm has four elements. -/
theorem witness_MaskBitsFromKlUpAreIgnored :
    (∀ (a : KReg) (j : Nat), j < formKL (instrForm maskedLoad) →
      ((withK State.reset 2#3 0x10#64).readK a).getLsbD j = (State.reset.readK a).getLsbD j) ∧
    (withK State.reset 2#3 0x10#64).k ≠ State.reset.k := by
  constructor
  · change ∀ (a : KReg) (j : Nat), j < 4 →
      ((withK State.reset 2#3 0x10#64).readK a).getLsbD j = (State.reset.readK a).getLsbD j
    decide
  · decide

theorem witness_UnmaskedEvexEqualsVex :
    SameSource (.vpmulldVex128 ⟨1#5, 2#5, .reg 3#5⟩)
      (.vpmulldEvex128 ⟨1#5, 2#5, .reg 3#5, false, none, false⟩) State.reset ∧
    SameSource (.vpmulldVex256 ⟨1#5, 2#5, .mem (.base 0#4 (.d8 32#8))⟩)
      (.vpmulldEvex256 ⟨1#5, 2#5, .mem (.base 0#4 (.d8 1#8)), false, none, false⟩) State.reset ∧
    (∃ t, exec (.vpmulldVex128 ⟨1#5, 2#5, .reg 3#5⟩) State.reset = .next t) ∧
    (∃ t, exec (.vpmulldEvex128 ⟨1#5, 2#5, .reg 3#5, false, none, false⟩) State.reset = .next t) ∧
    (∃ t, exec (.vpmulldVex256 ⟨1#5, 2#5, .mem (.base 0#4 (.d8 32#8))⟩) State.reset = .next t) ∧
    (∃ t, exec (.vpmulldEvex256 ⟨1#5, 2#5, .mem (.base 0#4 (.d8 1#8)), false, none, false⟩) State.reset = .next t) :=
  ⟨rfl, rfl, ⟨_, rfl⟩, ⟨_, rfl⟩, ⟨_, rfl⟩, ⟨_, rfl⟩⟩

/-- k1 is 0 at reset: a register source with merging, and a wholly excluded operand under fault suppression with zeroing. -/
theorem witness_AllMaskedOffCompletes :
    (Ready .vpmulldEvex128 State.reset ∧
      IsEvex (.vpmulldEvex128 ⟨1#5, 2#5, .reg 3#5, false, some 1#3, false⟩) ⟨1#5, 2#5, .reg 3#5, false, some 1#3, false⟩ ∧
      NotReserved ⟨1#5, 2#5, .reg 3#5, false, some 1#3, false⟩) ∧
    (IsEvex (.vpmullqEvex512 ⟨1#5, 2#5, .mem (.sibNoBase none 0x3000#32), false, some 1#3, true⟩)
        ⟨1#5, 2#5, .mem (.sibNoBase none 0x3000#32), false, some 1#3, true⟩ ∧
      NotReserved ⟨1#5, 2#5, .mem (.sibNoBase none 0x3000#32), false, some 1#3, true⟩ ∧
      Ready .vpmullqEvex512 (suppressing pageGap) ∧ (suppressing pageGap).cfg.faultSuppression = true) ∧
    (∀ j, j < 16 → (State.reset.readK 1#3).getLsbD j = false) ∧
    ∀ j, j < 16 → ((suppressing pageGap).readK 1#3).getLsbD j = false := by
  refine ⟨⟨reset_ready _, .inl rfl, by simp [NotReserved]⟩,
    ⟨.inr (.inr (.inr (.inr (.inr rfl)))), by simp [NotReserved], ?_, rfl⟩, by decide, by decide⟩
  simp only [Ready, Usable, HasFeatures, EnabledBits, formKind]
  decide

/-- A 64-byte operand at the last address, so that all but its first byte wrap. -/
theorem witness_MemoryOperandIsLittleEndian :
    (64 : Nat) ≤ 64 ∧ (0xFFFFFFFFFFFFFFFF#64).toNat + 1 = 2 ^ 64 ∧ (63 : Nat) < 64 ∧ 8 * 64 ≤ 512 ∧
    4 * 15 + 3 < 64 ∧ 8 * 7 + 7 < 64 := by decide

/-- The premises of the three statements about intrinsics. -/
theorem witness_UnmaskedDwordIntrinsicsAgree :
    Ready .pmulld State.reset ∧ Ready .vpmulldVex128 State.reset ∧ Ready .vpmulldVex256 State.reset :=
  ⟨reset_ready _, reset_ready _, reset_ready _⟩

theorem witness_EvexDwordIntrinsicsAgree :
    Ready .vpmulldEvex512 State.reset ∧ Ready .vpmulldEvex256 State.reset ∧ Ready .vpmulldEvex128 State.reset :=
  ⟨reset_ready _, reset_ready _, reset_ready _⟩

theorem witness_QwordIntrinsicsAgree :
    Ready .vpmullqEvex512 State.reset ∧ Ready .vpmullqEvex256 State.reset ∧ Ready .vpmullqEvex128 State.reset :=
  ⟨reset_ready _, reset_ready _, reset_ready _⟩

/-- Absent, and not enabled, for each kind. -/
theorem witness_UnusableFormRaisesUd :
    ¬ Usable .pmulld { State.reset with cr0 := 4#64 } ∧
    ¬ Usable .vpmulldVex256 (withFeatures State.reset sseOnly) ∧
    ¬ Usable .vpmulldEvex512 { State.reset with xcr0 := 0x66#64 } := by
  simp only [Usable, HasFeatures, EnabledBits, formKind]
  decide

theorem witness_ReservedCombinationRaisesUd :
    ¬ InstrNotReserved (.vpmulldEvex128 ⟨1#5, 2#5, .reg 3#5, false, none, true⟩) ∧
    ¬ InstrNotReserved (.vpmullqEvex512 ⟨1#5, 2#5, .reg 3#5, true, some 1#3, false⟩) := by
  simp [InstrNotReserved, NotReserved]

theorem witness_TaskSwitchedRaisesNm :
    Usable (instrForm loadRax) { State.reset with cr0 := 8#64 } ∧ InstrNotReserved loadRax ∧
    ({ State.reset with cr0 := 8#64 } : State).cr0.getLsbD 3 = true ∧ State.reset.cr0.getLsbD 3 = false := by
  simp only [Usable, HasFeatures, EnabledBits, formKind, instrForm, loadRax, InstrNotReserved]
  decide

/-- A misaligned legacy operand, without and with REX, and a VEX form. -/
theorem witness_OnlyLegacyNeedsAlignment :
    Ready .pmulld State.reset ∧
    (operandAddr (.pmulldRex ⟨1#5, .mem (.base 8#4 (.d8 1#8))⟩) State.reset (.base 8#4 (.d8 1#8))).toNat % 16 ≠ 0 ∧
    (operandAddr (.pmulld ⟨1#5, .mem (.base 0#4 (.d8 15#8))⟩) State.reset (.base 0#4 (.d8 15#8))).toNat % 16 ≠ 0 ∧
    formKind (instrForm loadRax) ≠ .legacy := ⟨reset_ready _, by decide⟩

/-- A translation failure. -/
theorem witness_InadmissibleOperandRaisesMemFault :
    Ready (instrForm loadRax) (withX pageGap 0#4 0x2FF0#64) ∧ InstrNotReserved loadRax ∧
    srcOf loadRax = .mem (.base 0#4 .none) ∧ Aligned loadRax (withX pageGap 0#4 0x2FF0#64) (.base 0#4 .none) ∧
    ¬ OperandAdmitted loadRax (withX pageGap 0#4 0x2FF0#64) (.base 0#4 .none) ∧
    ∀ j, j < operandBytes loadRax →
      regionAt (withX pageGap 0#4 0x2FF0#64).cfg
        ((operandAddr loadRax (withX pageGap 0#4 0x2FF0#64) (.base 0#4 .none)).toNat + j) ≠ some .device := by
  simp only [Ready, Usable, HasFeatures, EnabledBits, formKind, instrForm, OperandAdmitted, Aligned, InstrNotReserved, loadRax]
  decide

/-- Under fault suppression: an active element, the third, is excluded. -/
theorem witness_InadmissibleOperandRaisesMemFault_suppressed :
    Ready (instrForm maskedLoad) (suppressing (withK (withX pageGap 0#4 0x2FF8#64) 2#3 4#64)) ∧
    ¬ OperandAdmitted maskedLoad (suppressing (withK (withX pageGap 0#4 0x2FF8#64) 2#3 4#64)) (.base 0#4 .none) := by
  simp only [Ready, Usable, HasFeatures, EnabledBits, formKind, instrForm, OperandAdmitted, MaskedAccessible, maskedLoad]
  decide

theorem witness_DeviceOperandIsRefused :
    Ready (instrForm loadRax) (withX deviceGap 0#4 0x3000#64) ∧ InstrNotReserved loadRax ∧
    srcOf loadRax = .mem (.base 0#4 .none) ∧ Aligned loadRax (withX deviceGap 0#4 0x3000#64) (.base 0#4 .none) ∧
    ¬ OperandAdmitted loadRax (withX deviceGap 0#4 0x3000#64) (.base 0#4 .none) ∧
    ∀ j, j < 32 → 0x3000 + j < 2 ^ 64 ∧ canonical (0x3000 + j) = true ∧
      regionAt deviceGap.cfg (0x3000 + j) = some .device := by
  simp only [Ready, Usable, HasFeatures, EnabledBits, formKind, instrForm, OperandAdmitted, Aligned, InstrNotReserved, loadRax]
  decide

/-- Each of the four reports. -/
theorem witness_MemFaultReportsTheCause :
    faultOf (exec loadRax (withX pageGap 0#4 0x2FF0#64)) =
      some (.memFault 0#64 0x2FF0#64 32 (.pageFault 0x3000#64 4#6)) ∧
    faultOf (exec loadRax (withX State.reset 0#4 0x7FFFFFFFFFFF#64)) =
      some (.memFault 0#64 0x7FFFFFFFFFFF#64 32 .generalProtection) ∧
    faultOf (exec (.vpmulldVex128 ⟨2#5, 0#5, .mem (.base 5#4 (.d8 0#8))⟩) (withX State.reset 5#4 0x800000000000#64)) =
      some (.memFault 0#64 0x800000000000#64 16 .stackSegment) ∧
    faultOf (exec loadRax (withX State.reset 0#4 0xFFFFFFFFFFFFFFF0#64)) =
      some (.memFault 0#64 0xFFFFFFFFFFFFFFF0#64 32 .wraps) := by decide +kernel

theorem witness_FaultNamesFaultingInstruction :
    faultOf (step (codeAt [0x62#8, 0xF2#8, 0x6D#8, 0x68#8, 0x40#8, 0xCB#8])) = some (.ud 0x1000#64) := by decide

/-- One completing instruction and one that faults. -/
theorem witness_NoSimdFloatingPointException :
    (∃ t, exec (.pmulldRex ⟨1#5, .reg 2#5⟩) State.reset = .next t) ∧
    exec (.pmulld ⟨1#5, .reg 2#5⟩) { State.reset with cr0 := 4#64 } = .fault (.ud 0#64) := ⟨⟨_, rfl⟩, rfl⟩

/-- Every instruction completes at reset. -/
theorem witness_ExecChangesOnlyDestination :
    (∃ t, exec (.pmulld ⟨1#5, .reg 2#5⟩) State.reset = .next t) ∧
    (∃ t, exec (.pmulldRex ⟨1#5, .reg 2#5⟩) State.reset = .next t) ∧
    (∃ t, exec (.vpmulldVex128 ⟨1#5, 2#5, .reg 3#5⟩) State.reset = .next t) ∧
    (∃ t, exec (.vpmulldVex256 ⟨1#5, 2#5, .reg 3#5⟩) State.reset = .next t) ∧
    (∃ t, exec (.vpmulldEvex128 ⟨1#5, 2#5, .reg 3#5, false, none, false⟩) State.reset = .next t) ∧
    (∃ t, exec (.vpmulldEvex256 ⟨1#5, 2#5, .reg 3#5, false, none, false⟩) State.reset = .next t) ∧
    (∃ t, exec (.vpmulldEvex512 ⟨1#5, 2#5, .reg 3#5, false, none, false⟩) State.reset = .next t) ∧
    (∃ t, exec (.vpmullqEvex128 ⟨1#5, 2#5, .reg 3#5, false, none, false⟩) State.reset = .next t) ∧
    (∃ t, exec (.vpmullqEvex256 ⟨1#5, 2#5, .reg 3#5, false, none, false⟩) State.reset = .next t) ∧
    (∃ t, exec (.vpmullqEvex512 ⟨1#5, 2#5, .reg 3#5, false, none, false⟩) State.reset = .next t) :=
  ⟨⟨_, rfl⟩, ⟨_, rfl⟩, ⟨_, rfl⟩, ⟨_, rfl⟩, ⟨_, rfl⟩, ⟨_, rfl⟩, ⟨_, rfl⟩, ⟨_, rfl⟩, ⟨_, rfl⟩, ⟨_, rfl⟩⟩

/-- A memory operand. -/
theorem witness_PcAdvancesByIlen : ∃ t, exec loadRax State.reset = .next t := ⟨_, rfl⟩

theorem witness_FlagsNeitherReadNorWritten : ∃ t, exec maskedLoad State.reset = .next t := ⟨_, rfl⟩

/-- Another memory that differs just outside the operand's 32 bytes. -/
theorem witness_OnlyOperandBytesAreRead :
    srcOf loadRax = .mem (.base 0#4 .none) ∧
    (∀ j, j < 32 → Memory.byte [(32, 7#8)] ((0 + j) % 2 ^ 64) = State.reset.mem.byte ((0 + j) % 2 ^ 64)) ∧
    (operandAddr loadRax State.reset (.base 0#4 .none)).toNat = 0 := by decide

/-- A state with code, that satisfies the invariant and takes a step. -/
theorem witness_StepKeepsInvariant :
    Inv (codeAt [0xC4#8, 0xE2#8, 0x69#8, 0x40#8, 0xCB#8]) ∧
    ∃ t, step (codeAt [0xC4#8, 0xE2#8, 0x69#8, 0x40#8, 0xCB#8]) = .next t := by
  refine ⟨⟨by decide, fun n i _ => ?_, fun n _ => ?_, fun a i _ => ?_⟩, ⟨_, rfl⟩⟩ <;>
    simp [codeAt, State.readV, State.readK, State.reset]

theorem witness_RunKeepsLaunchValues :
    ∃ t, Sys2Proof.core.run 1 (codeAt [0xC4#8, 0xE2#8, 0x69#8, 0x40#8, 0xCB#8]) = .next t := ⟨_, rfl⟩

/-- A present EVEX form, and a machine with SSE4.1 alone. -/
theorem witness_MaxvlFitsEveryPresentForm :
    present .vpmullqEvex512 State.reset = true ∧ formKind .vpmullqEvex512 = .evex ∧
    present .pmulld (withFeatures State.reset sseOnly) = true := by decide

theorem witness_BootedMachineRaisesNoUdOrNm :
    State.reset.cfg.features = allFeatures ∧ State.reset.cr0.getLsbD 2 = false ∧ State.reset.cr4.getLsbD 9 = true ∧
    State.reset.cr4.getLsbD 18 = true ∧ State.reset.xcr0.getLsbD 1 = true ∧ State.reset.xcr0.getLsbD 2 = true ∧
    State.reset.xcr0.getLsbD 5 = true ∧ State.reset.xcr0.getLsbD 6 = true ∧ State.reset.xcr0.getLsbD 7 = true ∧
    State.reset.cr0.getLsbD 3 = false ∧ InstrNotReserved loadRax :=
  ⟨rfl, by decide, by decide, by decide, by decide, by decide, by decide, by decide, by decide, by decide, trivial⟩

theorem witness_FetchWordIsFetched :
    (codeAt [0x90#8]).mem.wf = true ∧ (codeAt [0x90#8]).pc.toNat + maxInstrBytes ≤ 2 ^ 64 ∧
    (0xFFFFFFFFFFFFFFF1#64).toNat + maxInstrBytes = 2 ^ 64 := by decide

/-- Two instructions, VPMULLD xmm1, xmm2, xmm3 with VEX.W = 1 (R66) and PMULLD xmm1, xmm2, at 0x1000. -/
def twoInstrs : List Instr := [.vpmulldVex128 ⟨1#5, 2#5, .reg 3#5⟩, .pmulld ⟨1#5, .reg 2#5⟩]

/-- Their bytes. -/
def twoInstrBytes : List Byte := [0xC4#8, 0xE2#8, 0xE9#8, 0x40#8, 0xCB#8, 0x66#8, 0x0F#8, 0x38#8, 0x40#8, 0xCA#8]

theorem witness_ProgramRunExecutesItsInstructions :
    laidOut (codeAt twoInstrBytes).mem (codeAt twoInstrBytes).pc.toNat twoInstrs := ⟨⟨_, rfl⟩, ⟨_, rfl⟩, trivial⟩

/-- The run of the two is final; and with the forms not enabled the first one faults. -/
theorem witness_RunIsFinalWhenEveryInstructionCompletes :
    twoInstrs ≠ [] ∧ (∃ t, execAll twoInstrs (codeAt twoInstrBytes) = .next t) ∧
    (∃ t, FinalRun twoInstrs (codeAt twoInstrBytes) t) ∧
    laidOut { codeAt twoInstrBytes with cr4 := 0#64 }.mem 0x1000 twoInstrs ∧
    execAll twoInstrs { codeAt twoInstrBytes with cr4 := 0#64 } = .fault (.ud 0x1000#64) :=
  ⟨by decide, ⟨_, rfl⟩, ⟨_, by decide, ⟨⟨_, rfl⟩, ⟨_, rfl⟩, trivial⟩, rfl, rfl⟩, ⟨⟨_, rfl⟩, ⟨_, rfl⟩, trivial⟩, rfl⟩

/-- A one-instruction program that a device-memory operand stops in a refusal. -/
theorem witness_RunIsFinal_refused :
    laidOut { codeAt [0xC4#8, 0xE2#8, 0x7D#8, 0x40#8, 0x10#8] with cfg := deviceGap.cfg }.mem 0x1000 [loadRax] ∧
    execAll [loadRax] (withX { codeAt [0xC4#8, 0xE2#8, 0x7D#8, 0x40#8, 0x10#8] with cfg := deviceGap.cfg } 0#4 0x3000#64) =
      .refused .deviceMemory := ⟨⟨⟨_, rfl⟩, trivial⟩, rfl⟩

end Sys2Proof.Tests
end

/-! The rules about the machine's updates, checks and operands that the statements of this family (the invariant, the results
of the ten instructions, the element product and MAXVL) are settled from, and those statements. -/

namespace Sys2Proof.Machine

/-! ## MAXVL and the register counts (R6, R16) -/

theorem widthBits_cases (w : RegWidth) : widthBits w = 128 ∨ widthBits w = 256 ∨ widthBits w = 512 := by
  cases w with
  | w128 => exact .inl rfl
  | w256 => exact .inr (.inl rfl)
  | w512 => exact .inr (.inr rfl)

theorem neededVL_cases (c : Features) : neededVL c = 128 ∨ neededVL c = 256 ∨ neededVL c = 512 := by
  unfold neededVL
  split
  · exact .inr (.inr rfl)
  · split
    · exact .inr (.inl rfl)
    · exact .inl rfl

theorem maxvl_cases (c : Config) : maxvl c = 128 ∨ maxvl c = 256 ∨ maxvl c = 512 := by
  rcases max_choice (widthBits c.baseWidth) (neededVL c.features) with h | h
  · rw [maxvl, h]; exact widthBits_cases _
  · rw [maxvl, h]; exact neededVL_cases _

theorem maxvl_le (c : Config) : maxvl c ≤ 512 := by
  have := maxvl_cases c
  omega

theorem maxvl_of_evexPresent {c : Config} (h : evexPresent c.features = true) : maxvl c = 512 := by
  have hneeded : neededVL c.features = 512 := by simp [neededVL, h]
  have hge : neededVL c.features ≤ maxvl c := le_max_right _ _
  have hle := maxvl_le c
  omega

theorem nvreg_of_evexPresent {c : Config} (h : evexPresent c.features = true) : nvreg c = 32 := by
  simp [nvreg, h]

theorem le_nvreg (c : Config) : 16 ≤ nvreg c := by
  unfold nvreg
  split <;> omega

/-- Every EVEX form's CPUID cell names AVX512F or AVX512DQ (R3). -/
theorem evexPresent_of_present {f : Form} {s : State} (h : present f s = true) (hk : formKind f = .evex) :
    evexPresent s.cfg.features = true := by
  cases f <;> simp only [formKind, reduceCtorEq] at hk <;>
    simp only [present, formFlags, Bool.and_eq_true] at h <;> simp [evexPresent, h]

theorem present_of_ready {f : Form} {s : State} (h : Ready f s) : present f s = true :=
  (features_iff.mpr h.1.1).1

theorem formVL_le_maxvl_of_ready {f : Form} {s : State} (h : Ready f s) : formVL f ≤ maxvl s.cfg :=
  formVL_le_maxvl (present_of_ready h)

/-! ## Reads of a register after a write to its low part (R11, R18) -/

section
variable {s : State} {n : VReg} {vl : Nat} (e : Vec)

/-- A zeroing write of no more than MAXVL bits stores them all. -/
theorem readV_writeZeroV_of_le (h : vl ≤ maxvl s.cfg) : (s.writeZeroV n vl e).readV n = lowBits vl e := by
  rw [State.readV_writeZeroV_same, lowBits_lowBits _ _ h]

theorem elem_readV_writeZeroV {ew j : Nat} (hvl : vl ≤ maxvl s.cfg) (hj : ew * j + ew ≤ vl) :
    elem ew ((s.writeZeroV n vl e).readV n) j = elem ew e j := by
  rw [readV_writeZeroV_of_le e hvl, elem_lowBits _ _ _ _ hj (hvl.trans (maxvl_le _))]

theorem getLsbD_readV_writeZeroV_of_ge {i : Nat} (hvl : vl ≤ maxvl s.cfg) (hi : vl ≤ i) :
    ((s.writeZeroV n vl e).readV n).getLsbD i = false := by
  rw [readV_writeZeroV_of_le e hvl, getLsbD_lowBits]
  simp [Nat.not_lt.mpr hi]

/-- After a merging write the bits below VL are the new ones and the bits from VL to MAXVL-1 the old ones. -/
theorem getLsbD_readV_writeLowV {i : Nat} (hi : i < maxvl s.cfg) :
    ((s.writeLowV n vl e).readV n).getLsbD i = if i < vl then e.getLsbD i else (s.readV n).getLsbD i := by
  have h512 : i < 512 := hi.trans_le (maxvl_le _)
  rw [State.readV_writeLowV_same, getLsbD_lowBits, BitVec.getLsbD_or, BitVec.getLsbD_shiftLeft,
    BitVec.getLsbD_ushiftRight, getLsbD_lowBits]
  by_cases hlow : i < vl
  · simp [hi, h512, hlow]
  · simp [hi, h512, hlow, Nat.add_sub_cancel' (Nat.not_lt.mp hlow)]

theorem elem_readV_writeLowV {ew j : Nat} (hvl : vl ≤ maxvl s.cfg) (hj : ew * j + ew ≤ vl) :
    elem ew ((s.writeLowV n vl e).readV n) j = elem ew e j := by
  apply BitVec.eq_of_getLsbD_eq
  intro i hi
  have hlow : ew * j + i < vl := by omega
  rw [getLsbD_elem, getLsbD_elem, getLsbD_readV_writeLowV e (hlow.trans_le hvl), if_pos hlow]

end

/-! ## What a completed instruction leaves unchanged -/

/-- Writing a vector register and advancing the instruction pointer changes nothing else. -/
theorem frameV_writeV_advance (s : State) (n : VReg) (e : Vec) (len : Nat) :
    FrameV n s ((s.writeV n e).advance len) :=
  ⟨⟨rfl, rfl, ⟨rfl, rfl⟩, rfl, rfl, rfl, rfl, fun _ => rfl⟩, fun m hm => State.readV_writeV_other s n m e hm⟩

/-- The state after a zeroing write of `vl / ew` elements, which fill the low `vl` bits. -/
theorem writesZeroing_writeZeroV_lanes {i : Instr} {dest : VReg} {vl ew : Nat} {s : State} (f : Nat → BitVec ew)
    (hew : 0 < ew) (hvl : vl ≤ maxvl s.cfg) :
    WritesZeroing i dest vl ew f s ((s.writeZeroV dest vl (lanes 512 ew (vl / ew) f)).advance i.ilen) := by
  refine ⟨fun j hj => ?_, fun n hn => ?_, rfl, frameV_writeV_advance s dest _ _⟩
  · have hfit : ew * (vl / ew) ≤ vl := Nat.mul_div_le vl ew
    have hlast : ew * j + ew ≤ ew * (vl / ew) := by
      rw [← Nat.mul_succ]
      exact Nat.mul_le_mul_left ew hj
    calc elem ew (((s.writeZeroV dest vl (lanes 512 ew (vl / ew) f)).advance i.ilen).readV dest) j
        = elem ew (lanes 512 ew (vl / ew) f) j := elem_readV_writeZeroV _ hvl (hlast.trans hfit)
      _ = f j := elem_lanes 512 ew hew _ f j hj (hfit.trans (hvl.trans (maxvl_le _)))
  · exact getLsbD_readV_writeZeroV_of_ge _ hvl hn

/-! ## The invariant (R11, R15, R16, R21, R36) -/

/-- A write to a register that exists, and an advance of the instruction pointer, keep the invariant. -/
theorem inv_writeV_advance {s : State} {n : VReg} (e : Vec) (len : Nat) (hs : Inv s) (hn : n.toNat < nvreg s.cfg) :
    Inv ((s.writeV n e).advance len) := by
  obtain ⟨hmem, hhigh, habsent, hmask⟩ := hs
  refine ⟨hmem, fun m i hi => ?_, fun m hm => ?_, hmask⟩
  · by_cases hmn : m = n
    · subst hmn
      have hi' : ¬ i < maxvl s.cfg := Nat.not_lt.mpr hi
      simp [State.readV_writeV_same, getLsbD_lowBits, hi']
    · rw [State.advance_readV, State.readV_writeV_other s n m e hmn]
      exact hhigh m i hi
  · have hmn : m ≠ n := by
      rintro rfl
      exact absurd hn (Nat.not_lt.mpr hm)
    rw [State.advance_readV, State.readV_writeV_other s n m e hmn]
    exact habsent m hm

end Sys2Proof.Machine

/-! ## The registers the decoder names (R16, R62, R65) -/

namespace Sys2Proof

open Sys2Proof.Machine

/-- What the decoder answers as an instruction is what the decoder of some row answers. -/
theorem decodeRow_of_decode {bs rest : List Byte} {i : Instr} (h : decode bs = .instr i rest) :
    ∃ r, decodeRow r bs = some (i, rest) := by
  unfold decode at h
  split at h
  · next r _ =>
    split at h
    · next o ho =>
      obtain ⟨rfl, rfl⟩ := Decoded.instr.inj h
      exact ⟨r, ho⟩
    · cases h
  · split at h <;> cases h

/-- Without bit 4 a register number is below 16. -/
theorem regNumber_false_lt (r : Bool) (modrm : Byte) : (regNumber false r modrm).toNat < 16 := by
  have hlow := (BitVec.ofBool r ++ modrm.extractLsb' 3 3).isLt
  rw [regNumber, BitVec.toNat_append]
  simpa using hlow

theorem decodeLegacyOps_dest_lt {r x b : Bool} {modrm : Byte} {bs rest : List Byte} {o : LegacyOps}
    (h : decodeLegacyOps r x b modrm bs = some (o, rest)) : o.dest.toNat < 16 := by
  simp only [decodeLegacyOps, Option.map_eq_some_iff] at h
  obtain ⟨a, -, ha⟩ := h
  obtain ⟨rfl, -⟩ := Prod.mk.inj ha
  exact regNumber_false_lt r modrm

theorem decodeVexOps_dest_lt {b1 b2 modrm : Byte} {bs rest : List Byte} {o : VexOps}
    (h : decodeVexOps b1 b2 modrm bs = some (o, rest)) : o.dest.toNat < 16 := by
  simp only [decodeVexOps, Option.map_eq_some_iff] at h
  obtain ⟨a, -, ha⟩ := h
  obtain ⟨rfl, -⟩ := Prod.mk.inj ha
  exact regNumber_false_lt _ modrm

theorem decodeLegacyRow_dest_lt {bs rest : List Byte} {i : Instr} (h : decodeLegacyRow bs = some (i, rest)) :
    (instrDest i).toNat < 16 := by
  unfold decodeLegacyRow at h
  split at h
  · obtain ⟨o, ho, heq⟩ := Option.map_eq_some_iff.mp h
    obtain ⟨rfl, -⟩ := Prod.mk.inj heq
    exact decodeLegacyOps_dest_lt ho
  · cases h

theorem decodeLegacyRexRow_dest_lt {bs rest : List Byte} {i : Instr} (h : decodeLegacyRexRow bs = some (i, rest)) :
    (instrDest i).toNat < 16 := by
  unfold decodeLegacyRexRow at h
  split at h
  · obtain ⟨o, ho, heq⟩ := Option.map_eq_some_iff.mp h
    obtain ⟨rfl, -⟩ := Prod.mk.inj heq
    exact decodeLegacyOps_dest_lt ho
  · cases h

theorem decodeVexRow_dest_lt {mk : VexOps → Instr} {bs rest : List Byte} {i : Instr}
    (hmk : ∀ o, instrDest (mk o) = o.dest) (h : decodeVexRow mk bs = some (i, rest)) : (instrDest i).toNat < 16 := by
  unfold decodeVexRow at h
  split at h
  · obtain ⟨o, ho, heq⟩ := Option.map_eq_some_iff.mp h
    obtain ⟨rfl, -⟩ := Prod.mk.inj heq
    rw [hmk]
    exact decodeVexOps_dest_lt ho
  · cases h

theorem decodeEvexRow_eq_mk {mk : EvexOps → Instr} {bs rest : List Byte} {i : Instr}
    (h : decodeEvexRow mk bs = some (i, rest)) : ∃ o, i = mk o := by
  unfold decodeEvexRow at h
  split at h
  · obtain ⟨o, -, heq⟩ := Option.map_eq_some_iff.mp h
    exact ⟨o.1, (Prod.mk.inj heq).1.symm⟩
  · cases h

/-- A decoded instruction is of an EVEX form, or its destination is one of the first 16 registers. -/
theorem decode_evex_or_dest_lt {bs rest : List Byte} {i : Instr} (h : decode bs = .instr i rest) :
    formKind (instrForm i) = .evex ∨ (instrDest i).toNat < 16 := by
  obtain ⟨r, hr⟩ := decodeRow_of_decode h
  cases r with
  | legacy => exact .inr (decodeLegacyRow_dest_lt hr)
  | legacyRex => exact .inr (decodeLegacyRexRow_dest_lt hr)
  | vex128 => exact .inr (decodeVexRow_dest_lt (fun _ => rfl) hr)
  | vex256 => exact .inr (decodeVexRow_dest_lt (fun _ => rfl) hr)
  | evexD128 => obtain ⟨o, rfl⟩ := decodeEvexRow_eq_mk hr; exact .inl rfl
  | evexD256 => obtain ⟨o, rfl⟩ := decodeEvexRow_eq_mk hr; exact .inl rfl
  | evexD512 => obtain ⟨o, rfl⟩ := decodeEvexRow_eq_mk hr; exact .inl rfl
  | evexQ128 => obtain ⟨o, rfl⟩ := decodeEvexRow_eq_mk hr; exact .inl rfl
  | evexQ256 => obtain ⟨o, rfl⟩ := decodeEvexRow_eq_mk hr; exact .inl rfl
  | evexQ512 => obtain ⟨o, rfl⟩ := decodeEvexRow_eq_mk hr; exact .inl rfl

end Sys2Proof

namespace Sys2Proof.Machine

/-- A step that goes on has executed the instruction it decoded. -/
theorem step_next {s t : State} (h : step s = .next t) :
    ∃ i rest, decode (fetch s) = .instr i rest ∧ exec i s = .next t := by
  unfold step at h
  split at h
  · next i rest hd => exact ⟨i, rest, hd, h⟩
  · exact absurd h (takeException_ne_next _ _ _)
  · cases h
  · cases h

/-- An instruction that completes keeps the invariant if its destination register exists. -/
theorem exec_keeps_inv {i : Instr} {s t : State} (hs : Inv s) (hdest : (instrDest i).toNat < nvreg s.cfg)
    (h : exec i s = .next t) : Inv t := by
  obtain ⟨-, e, rfl⟩ := exec_next h
  exact inv_writeV_advance e _ hs hdest

/-- The destination of a decoded instruction that completes exists: its form is present, and only an EVEX form can name a register
above 15. -/
theorem dest_lt_nvreg_of_decode {bs rest : List Byte} {i : Instr} {s t : State} (hd : decode bs = .instr i rest)
    (h : exec i s = .next t) : (instrDest i).toNat < nvreg s.cfg := by
  rcases decode_evex_or_dest_lt hd with hevex | hlt
  · obtain ⟨⟨r, hcheck⟩, -⟩ := exec_next h
    obtain ⟨-, hpresent, -⟩ := checkUdNm_eq_none.mp hcheck
    rw [nvreg_of_evexPresent (evexPresent_of_present hpresent hevex)]
    exact (instrDest i).isLt
  · exact hlt.trans_le (le_nvreg _)

/-- Settles O48: the destination of what was decoded exists, and a write to a register that exists keeps the invariant. -/
theorem stepKeepsInvariant : Obligations.StepKeepsInvariant := by
  intro s t hs h
  obtain ⟨i, rest, hd, hexec⟩ := step_next h
  exact exec_keeps_inv hs (dest_lt_nvreg_of_decode hd hexec) hexec

/-! ## Source operands that can be had (R35, R40, R42, R43) -/

/-- Memory whose bytes are all admitted is read as its value. -/
theorem memRead_of_accessible {s : State} {seg : Segment} {ea : Word} {n : Nat}
    (h : accessible s.cfg ea n = true) : memRead s seg ea n (List.range n) = .ok (memValue s ea n) :=
  memRead_ok fun i hi => accessible_iff.mp h i (List.mem_range.mp hi)

theorem legacySource_mem {s : State} {len : Nat} {m : MemOp} (halign : (effAddr s 1 len m).toNat % 16 = 0)
    (hacc : accessible s.cfg (effAddr s 1 len m) 16 = true) :
    legacySource s len (.mem m) = .ok (memValue s (effAddr s 1 len m) 16) := by
  rw [legacySource, if_pos halign, memRead_of_accessible hacc]

theorem vexSource_mem {f : Form} {s : State} {len : Nat} {m : MemOp}
    (hacc : accessible s.cfg (effAddr s 1 len m) (formVL f / 8) = true) :
    vexSource f s len (.mem m) = .ok (memValue s (effAddr s 1 len m) (formVL f / 8)) :=
  memRead_of_accessible hacc

theorem formEW_bytes_pos (f : Form) : 0 < formEW f / 8 := by
  cases f <;> decide

/-- The elements of a form fill its vector. -/
theorem formVL_bytes (f : Form) : formVL f / 8 = formEW f / 8 * formKL f := by
  cases f <;> rfl

theorem evexSource_mem {f : Form} {s : State} {len : Nat} {o : EvexOps} {m : MemOp} (hm : o.src2 = .mem m)
    (hacc : MaskedAccessible s o (formEW f / 8) (formKL f) (effAddr s (evexBytes f o.bcst) len m)) :
    evexSource f s len o =
      .ok (memValue s (effAddr s (evexBytes f o.bcst) len m) (evexBytes f o.bcst)) := by
  rw [evexSource, hm]
  exact memRead_ok ((evexOffsets_admitted (formEW_bytes_pos f) (formVL_bytes f)).mpr hacc)

theorem sourceIs_reg {i : Instr} {s : State} {b : Vec} {n : VReg} (h : srcOf i = .reg n) :
    SourceIs i s b ↔ b = s.readV n := by
  rw [SourceIs, h]

theorem sourceIs_mem {i : Instr} {s : State} {b : Vec} {m : MemOp} (h : srcOf i = .mem m) :
    SourceIs i s b ↔
      Aligned i s m ∧ OperandAdmitted i s m ∧ b = memValue s (operandAddr i s m) (operandBytes i) := by
  rw [SourceIs, h]

/-! ## The instructions of each kind: what an instruction's constructor fixes (R35, R76, R78) -/

/-- `i` is one of the two legacy instructions with operands `o`. -/
def IsLegacy (i : Instr) (o : LegacyOps) : Prop := i = .pmulld o ∨ i = .pmulldRex o

/-- `i` is one of the two VEX instructions with operands `o`. -/
def IsVex (i : Instr) (o : VexOps) : Prop := i = .vpmulldVex128 o ∨ i = .vpmulldVex256 o

section
variable {i : Instr} {o : LegacyOps} (h : IsLegacy i o) (s : State)
include h

theorem IsLegacy.exec_eq : exec i s = legacyMullo o i.ilen s := by
  rcases h with rfl | rfl <;> rfl

theorem IsLegacy.srcOf_eq : srcOf i = o.src2 := by
  rcases h with rfl | rfl <;> rfl

theorem IsLegacy.operandBytes_eq : operandBytes i = 16 := by
  rcases h with rfl | rfl <;> rfl

theorem IsLegacy.operandAddr_eq (m : MemOp) : operandAddr i s m = effAddr s 1 i.ilen m := by
  rcases h with rfl | rfl <;> rfl

theorem IsLegacy.aligned_iff (m : MemOp) : Aligned i s m ↔ (operandAddr i s m).toNat % 16 = 0 := by
  rcases h with rfl | rfl <;> simp [Aligned, instrForm, formKind]

theorem IsLegacy.operandAdmitted_iff (m : MemOp) :
    OperandAdmitted i s m ↔ accessible s.cfg (operandAddr i s m) 16 = true := by
  rcases h with rfl | rfl <;> exact Iff.rfl

end

section
variable {i : Instr} {o : VexOps} (h : IsVex i o) (s : State)
include h

theorem IsVex.exec_eq : exec i s = vexMullo (instrForm i) o i.ilen s := by
  rcases h with rfl | rfl <;> rfl

theorem IsVex.srcOf_eq : srcOf i = o.src2 := by
  rcases h with rfl | rfl <;> rfl

theorem IsVex.operandBytes_eq : operandBytes i = formVL (instrForm i) / 8 := by
  rcases h with rfl | rfl <;> simp [operandBytes, instrForm, formVL]

theorem IsVex.operandAddr_eq (m : MemOp) : operandAddr i s m = effAddr s 1 i.ilen m := by
  rcases h with rfl | rfl <;> rfl

theorem IsVex.operandAdmitted_iff (m : MemOp) :
    OperandAdmitted i s m ↔ accessible s.cfg (operandAddr i s m) (formVL (instrForm i) / 8) = true := by
  rcases h with rfl | rfl <;> simp [OperandAdmitted, instrForm, formVL]

end

section
variable {i : Instr} {o : EvexOps} (h : IsEvex i o) (s : State)
include h

theorem IsEvex.exec_eq : exec i s = evexMullo (instrForm i) o i.ilen s := by
  rcases h with rfl | rfl | rfl | rfl | rfl | rfl <;> rfl

theorem IsEvex.srcOf_eq : srcOf i = o.src2 := by
  rcases h with rfl | rfl | rfl | rfl | rfl | rfl <;> rfl

theorem IsEvex.formKind_eq : formKind (instrForm i) = .evex := by
  rcases h with rfl | rfl | rfl | rfl | rfl | rfl <;> rfl

theorem IsEvex.operandBytes_eq : operandBytes i = evexBytes (instrForm i) o.bcst := by
  rcases h with rfl | rfl | rfl | rfl | rfl | rfl <;>
    simp [operandBytes, evexBytes, instrForm, formEW, formVL]

theorem IsEvex.operandAddr_eq (m : MemOp) :
    operandAddr i s m = effAddr s (evexBytes (instrForm i) o.bcst) i.ilen m := by
  rw [operandAddr, dispScale, if_pos h.formKind_eq, h.operandBytes_eq]

theorem IsEvex.operandAdmitted_iff (m : MemOp) :
    OperandAdmitted i s m ↔
      MaskedAccessible s o (formEW (instrForm i) / 8) (formKL (instrForm i)) (operandAddr i s m) := by
  rcases h with rfl | rfl | rfl | rfl | rfl | rfl <;>
    simp [OperandAdmitted, instrForm, formKL, formEW, formVL]

end

/-! ## An instruction that is ready and has its operand completes -/

theorem IsLegacy.legacySource_eq {i : Instr} {o : LegacyOps} {s : State} {b : Vec} (h : IsLegacy i o)
    (hb : SourceIs i s b) : legacySource s i.ilen o.src2 = .ok b := by
  have hsrc := h.srcOf_eq
  cases hop : o.src2 with
  | reg n =>
    rw [(sourceIs_reg (hsrc.trans hop)).mp hb, legacySource]
  | mem m =>
    obtain ⟨halign, hadm, rfl⟩ := (sourceIs_mem (hsrc.trans hop)).mp hb
    rw [h.aligned_iff, h.operandAddr_eq] at halign
    rw [h.operandAdmitted_iff, h.operandAddr_eq] at hadm
    rw [h.operandBytes_eq, h.operandAddr_eq, legacySource_mem halign hadm]

theorem IsVex.vexSource_eq {i : Instr} {o : VexOps} {s : State} {b : Vec} (h : IsVex i o) (hb : SourceIs i s b) :
    vexSource (instrForm i) s i.ilen o.src2 = .ok b := by
  have hsrc := h.srcOf_eq
  cases hop : o.src2 with
  | reg n =>
    rw [(sourceIs_reg (hsrc.trans hop)).mp hb, vexSource]
  | mem m =>
    obtain ⟨-, hadm, rfl⟩ := (sourceIs_mem (hsrc.trans hop)).mp hb
    rw [h.operandAdmitted_iff, h.operandAddr_eq] at hadm
    rw [h.operandBytes_eq, h.operandAddr_eq, vexSource_mem hadm]

theorem IsEvex.evexSource_eq {i : Instr} {o : EvexOps} {s : State} {b : Vec} (h : IsEvex i o) (hb : SourceIs i s b) :
    evexSource (instrForm i) s i.ilen o = .ok b := by
  have hsrc := h.srcOf_eq
  cases hop : o.src2 with
  | reg n =>
    rw [(sourceIs_reg (hsrc.trans hop)).mp hb, evexSource, hop]
  | mem m =>
    obtain ⟨-, hadm, rfl⟩ := (sourceIs_mem (hsrc.trans hop)).mp hb
    rw [h.operandAdmitted_iff, h.operandAddr_eq] at hadm
    rw [h.operandBytes_eq, h.operandAddr_eq, evexSource_mem hop hadm]

theorem IsLegacy.exec_completes {i : Instr} {o : LegacyOps} {s : State} {b : Vec} (h : IsLegacy i o)
    (hr : Ready .pmulld s) (hb : SourceIs i s b) :
    exec i s = .next ((s.writeLowV o.dest 128 (mulLanes 32 4 (s.readV o.dest) b)).advance i.ilen) := by
  rw [h.exec_eq, legacyMullo_eq hr (h.legacySource_eq hb)]

theorem IsVex.exec_completes {i : Instr} {o : VexOps} {s : State} {b : Vec} (h : IsVex i o)
    (hr : Ready (instrForm i) s) (hb : SourceIs i s b) :
    exec i s = .next ((s.writeZeroV o.dest (formVL (instrForm i))
      (mulLanes (formEW (instrForm i)) (formKL (instrForm i)) (s.readV o.src1) b)).advance i.ilen) := by
  rw [h.exec_eq, vexMullo_eq hr (h.vexSource_eq hb)]

theorem IsEvex.exec_completes {i : Instr} {o : EvexOps} {s : State} {b : Vec} (h : IsEvex i o)
    (hr : Ready (instrForm i) s) (hn : NotReserved o) (hb : SourceIs i s b) :
    exec i s = .next ((s.writeZeroV o.dest (formVL (instrForm i))
      (evexLanes (instrForm i) s o b)).advance i.ilen) := by
  rw [h.exec_eq, evexMullo_eq hr hn (h.evexSource_eq hb)]

/-! ## What each instruction computes -/

theorem formEW_pos (f : Form) : 0 < formEW f := by
  cases f <;> decide

/-- A VEX instruction of a form with dword elements writes the products of R91 and R92. -/
theorem vexResult_of_form {mk : VexOps → Instr} {f : Form} (hmk : ∀ o, IsVex (mk o) o)
    (hf : ∀ o, instrForm (mk o) = f) (hew : formEW f = 32) : VexResult mk (formVL f) := by
  intro o s b hr hb
  have hexec := (hmk o).exec_completes hr hb
  rw [hf] at hr hexec
  rw [formKL, hew] at hexec
  exact ⟨_, hexec, writesZeroing_writeZeroV_lanes _ (by decide) (formVL_le_maxvl_of_ready hr)⟩

/-- An EVEX instruction writes the masked products of R96, R97 and R98. -/
theorem evexResult_of_form {mk : EvexOps → Instr} {f : Form} (hmk : ∀ o, IsEvex (mk o) o)
    (hf : ∀ o, instrForm (mk o) = f) : EvexResult mk (formVL f) (formEW f) := by
  intro o s b hr hn hb
  have hexec := (hmk o).exec_completes hr hn hb
  rw [hf] at hr hexec
  exact ⟨_, hexec, writesZeroing_writeZeroV_lanes _ (formEW_pos f) (formVL_le_maxvl_of_ready hr)⟩

theorem elem_mulLanes {ew kl j : Nat} (a b : Vec) (hew : 0 < ew) (hj : j < kl) (hfit : ew * kl ≤ 512) :
    elem ew (mulLanes ew kl a b) j = mullo (elem ew a j) (elem ew b j) :=
  elem_lanes 512 ew hew kl _ j hj hfit

/-- Settles O16: the merging write of four dword products. -/
theorem pmulldResult : Obligations.PmulldResult := by
  intro i o s b hi hr hb
  have hvl : 128 ≤ maxvl s.cfg := formVL_le_maxvl_of_ready hr
  refine ⟨_, IsLegacy.exec_completes hi hr hb, fun j hj => ?_, fun n hlo hhi => ?_, rfl,
    frameV_writeV_advance s o.dest _ _⟩
  · rw [State.advance_readV, elem_readV_writeLowV _ hvl (by omega), elem_mulLanes _ _ (by decide) hj (by decide)]
  · rw [State.advance_readV, getLsbD_readV_writeLowV _ hhi, if_neg (Nat.not_lt.mpr hlo)]

/-- Settles O17, from the result of a VEX form. -/
theorem vpmulldVex128Result : Obligations.VpmulldVex128Result :=
  vexResult_of_form (f := .vpmulldVex128) (fun _ => .inl rfl) (fun _ => rfl) rfl

/-- Settles O18, from the result of a VEX form. -/
theorem vpmulldVex256Result : Obligations.VpmulldVex256Result :=
  vexResult_of_form (f := .vpmulldVex256) (fun _ => .inr rfl) (fun _ => rfl) rfl

/-- Settles O19, from the result of an EVEX form. -/
theorem vpmulldEvex128Result : Obligations.VpmulldEvex128Result :=
  evexResult_of_form (f := .vpmulldEvex128) (fun _ => .inl rfl) (fun _ => rfl)

/-- Settles O20, from the result of an EVEX form. -/
theorem vpmulldEvex256Result : Obligations.VpmulldEvex256Result :=
  evexResult_of_form (f := .vpmulldEvex256) (fun _ => .inr (.inl rfl)) (fun _ => rfl)

/-- Settles O21, from the result of an EVEX form. -/
theorem vpmulldEvex512Result : Obligations.VpmulldEvex512Result :=
  evexResult_of_form (f := .vpmulldEvex512) (fun _ => .inr (.inr (.inl rfl))) (fun _ => rfl)

/-- Settles O22, from the result of an EVEX form. -/
theorem vpmullqEvex128Result : Obligations.VpmullqEvex128Result :=
  evexResult_of_form (f := .vpmullqEvex128) (fun _ => .inr (.inr (.inr (.inl rfl)))) (fun _ => rfl)

/-- Settles O23, from the result of an EVEX form. -/
theorem vpmullqEvex256Result : Obligations.VpmullqEvex256Result :=
  evexResult_of_form (f := .vpmullqEvex256) (fun _ => .inr (.inr (.inr (.inr (.inl rfl))))) (fun _ => rfl)

/-- Settles O24, from the result of an EVEX form. -/
theorem vpmullqEvex512Result : Obligations.VpmullqEvex512Result :=
  evexResult_of_form (f := .vpmullqEvex512) (fun _ => .inr (.inr (.inr (.inr (.inr rfl))))) (fun _ => rfl)

/-! ## The element product (R13) -/

/-- The low half of a double-width product of extended words is the product of the words, however they were extended. -/
theorem setWidth_mul_eq_mullo {n : Nat} {a b : BitVec n} {x y : BitVec (2 * n)} (hx : x.setWidth n = a)
    (hy : y.setWidth n = b) : (x * y).setWidth n = mullo a b := by
  rw [BitVec.setWidth_mul _ _ (by omega), hx, hy, mullo_eq_mul]

/-- The low bits of a sign-extended word are the word. -/
theorem setWidth_signExtend_double {n : Nat} (a : BitVec n) : (a.signExtend (2 * n)).setWidth n = a := by
  apply BitVec.eq_of_getLsbD_eq
  intro i hi
  have h2 : i < 2 * n := by omega
  simp [BitVec.getElem_signExtend, hi, h2]

/-- Settles O25: truncation commutes with multiplication, and undoes either extension. -/
theorem mulloIsLowHalfSignedOrUnsigned : Obligations.MulloIsLowHalfSignedOrUnsigned := by
  intro n a b
  have hsetWidth (c : BitVec n) : (c.setWidth (2 * n)).setWidth n = c := by
    rw [BitVec.setWidth_setWidth_of_le _ (by omega), BitVec.setWidth_eq]
  refine ⟨toNat_mullo a b, ?_, ?_, ?_⟩
  · exact (setWidth_mul_eq_mullo (setWidth_signExtend_double a) (setWidth_signExtend_double b)).symm
  · exact (setWidth_mul_eq_mullo (hsetWidth a) (hsetWidth b)).symm
  · rw [mullo_eq_mul, BitVec.ofInt_mul, BitVec.ofInt_toInt, BitVec.ofInt_toInt]

/-- Settles O51: a maximum of two of the widths, and 512 where the EVEX cells ask for it. -/
theorem maxvlFitsEveryPresentForm : Obligations.MaxvlFitsEveryPresentForm := by
  intro s
  exact ⟨maxvl_cases s.cfg, fun _ hpresent =>
    ⟨formVL_le_maxvl hpresent, fun hevex => maxvl_of_evexPresent (evexPresent_of_present hpresent hevex)⟩⟩

end Sys2Proof.Machine

namespace Sys2Proof.Machine

/-! ## The step and the instruction it runs (R26, R51) -/

theorem step_of_decode {s : State} {i : Instr} {rest : List Byte} (h : decode (fetch s) = .instr i rest) :
    step s = exec i s := by
  rw [step, h]

/-- Settles O11, from the equation of the step on a decoded instruction. -/
theorem stepRunsDecodedInstruction : Obligations.StepRunsDecodedInstruction :=
  fun _ _ _ h => step_of_decode h

/-- Settles O45, from what an instruction that completes leaves in the instruction pointer. -/
theorem pcAdvancesByIlen : Obligations.PcAdvancesByIlen :=
  fun _ _ _ h => exec_next_pc h

/-- Settles O41: a step faults where the instruction it decoded faults, or where it decodes an invalid opcode. -/
theorem faultNamesFaultingInstruction : Obligations.FaultNamesFaultingInstruction := by
  intro s r h
  cases hd : decode (fetch s) with
  | instr i rest => exact exec_fault ((step_of_decode hd).symm.trans h)
  | invalidOpcode => exact takeException_fault (by simpa only [step, hd] using h)
  | cutOff => simp [step, hd] at h
  | unlisted u => simp [step, hd] at h

/-! ## What a run leaves unchanged (R24, R32, R37, R51) -/

theorem Untouched.refl (s : State) : Untouched s s :=
  ⟨rfl, rfl, ⟨rfl, rfl⟩, rfl, rfl, rfl, rfl, fun _ => rfl⟩

theorem Untouched.trans {s t u : State} (hst : Untouched s t) (htu : Untouched t u) : Untouched s u := by
  obtain ⟨hk, hx, ⟨hflags, hmxcsr⟩, hcr0, hcr4, hxcr0, hcfg, hmem⟩ := hst
  obtain ⟨hk', hx', ⟨hflags', hmxcsr'⟩, hcr0', hcr4', hxcr0', hcfg', hmem'⟩ := htu
  exact ⟨hk'.trans hk, hx'.trans hx, ⟨hflags'.trans hflags, hmxcsr'.trans hmxcsr⟩, hcr0'.trans hcr0,
    hcr4'.trans hcr4, hxcr0'.trans hxcr0, hcfg'.trans hcfg, fun a => (hmem' a).trans (hmem a)⟩

theorem exec_next_untouched {i : Instr} {s t : State} (h : exec i s = .next t) : Untouched s t := by
  obtain ⟨-, e, rfl⟩ := exec_next h
  exact (frameV_writeV_advance s _ e _).1

theorem step_next_untouched {s t : State} (h : step s = .next t) : Untouched s t := by
  obtain ⟨i, rest, -, hexec⟩ := step_next h
  exact exec_next_untouched hexec

/-- A run of one more step that goes on, on any machine, is a step that goes on and a run from where it leads. -/
theorem run_succ_next {M : Host.Core} {n : Nat} {s t : M.State} (h : M.run (n + 1) s = .next t) :
    ∃ u, M.step s = .next u ∧ M.run n u = .next t := by
  unfold Host.Core.run at h
  split at h
  · next u hu => exact ⟨u, hu, h⟩
  · cases h
  · cases h

/-- Settles O50, by induction on the number of steps. -/
theorem runKeepsLaunchValues : Obligations.RunKeepsLaunchValues := by
  intro n
  induction n with
  | zero =>
    intro s t h
    cases h
    exact Untouched.refl s
  | succ n ih =>
    intro s t h
    obtain ⟨u, hstep, hrun⟩ := run_succ_next h
    exact (step_next_untouched hstep).trans (ih u t hrun)

/-! ## Every instruction is of one of the three kinds (R57) -/

theorem isLegacy_or_isVex_or_isEvex (i : Instr) :
    (∃ o, IsLegacy i o) ∨ (∃ o, IsVex i o) ∨ ∃ o, IsEvex i o := by
  cases i with
  | pmulld o => exact .inl ⟨o, .inl rfl⟩
  | pmulldRex o => exact .inl ⟨o, .inr rfl⟩
  | vpmulldVex128 o => exact .inr (.inl ⟨o, .inl rfl⟩)
  | vpmulldVex256 o => exact .inr (.inl ⟨o, .inr rfl⟩)
  | vpmulldEvex128 o => exact .inr (.inr ⟨o, .inl rfl⟩)
  | vpmulldEvex256 o => exact .inr (.inr ⟨o, .inr (.inl rfl)⟩)
  | vpmulldEvex512 o => exact .inr (.inr ⟨o, .inr (.inr (.inl rfl))⟩)
  | vpmullqEvex128 o => exact .inr (.inr ⟨o, .inr (.inr (.inr (.inl rfl)))⟩)
  | vpmullqEvex256 o => exact .inr (.inr ⟨o, .inr (.inr (.inr (.inr (.inl rfl))))⟩)
  | vpmullqEvex512 o => exact .inr (.inr ⟨o, .inr (.inr (.inr (.inr (.inr rfl))))⟩)

theorem IsLegacy.instrForm_eq {i : Instr} {o : LegacyOps} (h : IsLegacy i o) : instrForm i = .pmulld := by
  rcases h with rfl | rfl <;> rfl

theorem IsLegacy.instrDest_eq {i : Instr} {o : LegacyOps} (h : IsLegacy i o) : instrDest i = o.dest := by
  rcases h with rfl | rfl <;> rfl

theorem IsVex.formKind_eq {i : Instr} {o : VexOps} (h : IsVex i o) : formKind (instrForm i) = .vex := by
  rcases h with rfl | rfl <;> rfl

theorem IsVex.instrDest_eq {i : Instr} {o : VexOps} (h : IsVex i o) : instrDest i = o.dest := by
  rcases h with rfl | rfl <;> rfl

theorem IsEvex.instrDest_eq {i : Instr} {o : EvexOps} (h : IsEvex i o) : instrDest i = o.dest := by
  rcases h with rfl | rfl | rfl | rfl | rfl | rfl <;> rfl

/-! ## The bits above VL of the destination (R18) -/

/-- Settles O26: the legacy forms merge into the destination's low bits, the VEX and EVEX forms write them with zeros
above. -/
theorem upperBitsOfDestination : Obligations.UpperBitsOfDestination := by
  intro i s t h n hlo hhi
  have hvl : formVL (instrForm i) ≤ maxvl s.cfg := hlo.trans hhi.le
  rcases isLegacy_or_isVex_or_isEvex i with ⟨o, hi⟩ | ⟨o, hi⟩ | ⟨o, hi⟩
  · rw [hi.exec_eq] at h
    obtain ⟨-, b, -, rfl⟩ := legacyMullo_next h
    have hge : ¬ n < 128 := by rw [hi.instrForm_eq] at hlo; exact Nat.not_lt.mpr hlo
    rw [hi.instrDest_eq, hi.instrForm_eq, State.advance_readV, getLsbD_readV_writeLowV _ hhi, if_neg hge]
    rfl
  · rw [hi.exec_eq] at h
    obtain ⟨-, b, -, rfl⟩ := vexMullo_next h
    rw [hi.instrDest_eq, hi.formKind_eq]
    exact getLsbD_readV_writeZeroV_of_ge _ hvl hlo
  · rw [hi.exec_eq] at h
    obtain ⟨-, b, -, rfl⟩ := evexMullo_next h
    rw [hi.instrDest_eq, hi.formKind_eq]
    exact getLsbD_readV_writeZeroV_of_ge _ hvl hlo

/-! ## Forms that are absent or not enabled (R30, R80, R117) -/

/-- Settles O34: each algorithm begins with the checks, and an unusable form does not pass them. -/
theorem unusableFormRaisesUd : Obligations.UnusableFormRaisesUd := by
  intro i s h
  rcases isLegacy_or_isVex_or_isEvex i with ⟨o, hi⟩ | ⟨o, hi⟩ | ⟨o, hi⟩
  · rw [hi.instrForm_eq] at h
    rw [hi.exec_eq, legacyMullo, checkUdNm_unusable h]
    rfl
  · rw [hi.exec_eq, vexMullo, checkUdNm_unusable h]
    rfl
  · rw [hi.exec_eq, evexMullo, checkUdNm_unusable h]
    rfl

end Sys2Proof.Machine

namespace Sys2Proof.Machine

/-! ## What no form reads: flags, MXCSR, and mask bits from KL up (R22, R27, R28) -/

/-- The state with its opmask registers, flags and MXCSR replaced. -/
def State.mapMasksFlags (fk : Vector Word 8 → Vector Word 8) (fl : StatusFlags → StatusFlags)
    (fm : BitVec 32 → BitVec 32) (s : State) : State :=
  { s with k := fk s.k, flags := fl s.flags, mxcsr := fm s.mxcsr }

section
variable {fk : Vector Word 8 → Vector Word 8} {fl : StatusFlags → StatusFlags} {fm : BitVec 32 → BitVec 32} (s : State)

@[simp] theorem State.mapMasksFlags_readV (n : VReg) : (s.mapMasksFlags fk fl fm).readV n = s.readV n := rfl

theorem mapNext_takeException (e : Exn) :
    mapNext (State.mapMasksFlags fk fl fm) (takeException e s) = takeException e (s.mapMasksFlags fk fl fm) := by
  cases e <;> rfl

theorem mapNext_stopWith (st : Stop) :
    mapNext (State.mapMasksFlags fk fl fm) (stopWith st s) = stopWith st (s.mapMasksFlags fk fl fm) := by
  cases st with
  | raise e => exact mapNext_takeException s e
  | refuse r => rfl

@[simp] theorem checkUdNm_mapMasksFlags (f : Form) (r : Bool) :
    checkUdNm f r (s.mapMasksFlags fk fl fm) = checkUdNm f r s := rfl

@[simp] theorem effAddr_mapMasksFlags (scaleN len : Nat) (m : MemOp) :
    effAddr (s.mapMasksFlags fk fl fm) scaleN len m = effAddr s scaleN len m := by
  cases m with
  | base b d => rfl
  | rip d => rfl
  | sib b ix d => cases ix <;> rfl
  | sibNoBase ix d => cases ix <;> rfl

@[simp] theorem memRead_mapMasksFlags (seg : Segment) (ea : Word) (n : Nat) (offs : List Nat) :
    memRead (s.mapMasksFlags fk fl fm) seg ea n offs = memRead s seg ea n offs := rfl

@[simp] theorem legacySource_mapMasksFlags (len : Nat) (src : Src2) :
    legacySource (s.mapMasksFlags fk fl fm) len src = legacySource s len src := by
  cases src with
  | reg n => rfl
  | mem m => simp only [legacySource, effAddr_mapMasksFlags, memRead_mapMasksFlags]

@[simp] theorem vexSource_mapMasksFlags (f : Form) (len : Nat) (src : Src2) :
    vexSource f (s.mapMasksFlags fk fl fm) len src = vexSource f s len src := by
  cases src with
  | reg n => rfl
  | mem m => simp only [vexSource, effAddr_mapMasksFlags, memRead_mapMasksFlags]

theorem legacyMullo_mapMasksFlags (o : LegacyOps) (len : Nat) :
    legacyMullo o len (s.mapMasksFlags fk fl fm) =
      mapNext (State.mapMasksFlags fk fl fm) (legacyMullo o len s) := by
  simp only [legacyMullo, checkUdNm_mapMasksFlags, legacySource_mapMasksFlags]
  cases checkUdNm .pmulld false s with
  | some e => exact (mapNext_takeException s e).symm
  | none =>
    cases legacySource s len o.src2 with
    | error st => exact (mapNext_stopWith s st).symm
    | ok b => rfl

theorem vexMullo_mapMasksFlags (f : Form) (o : VexOps) (len : Nat) :
    vexMullo f o len (s.mapMasksFlags fk fl fm) =
      mapNext (State.mapMasksFlags fk fl fm) (vexMullo f o len s) := by
  simp only [vexMullo, checkUdNm_mapMasksFlags, vexSource_mapMasksFlags]
  cases checkUdNm f false s with
  | some e => exact (mapNext_takeException s e).symm
  | none =>
    cases vexSource f s len o.src2 with
    | error st => exact (mapNext_stopWith s st).symm
    | ok b => rfl

end

theorem maskOn_congr {s s' : State} {mask : Option KReg} {j : Nat}
    (h : ∀ a, (s'.readK a).getLsbD j = (s.readK a).getLsbD j) : maskOn s' mask j = maskOn s mask j := by
  cases mask with
  | none => rfl
  | some a => exact h a

/-- A byte of a full operand belongs to one of its KL elements. -/
theorem div_formEW_lt_formKL {f : Form} {i : Nat} (h : i < formVL f / 8) : i / (formEW f / 8) < formKL f := by
  rw [formVL_bytes] at h
  exact Nat.div_lt_of_lt_mul h

/-- The bytes that are checked depend on the mask bits below KL alone (R40). -/
theorem evexOffsets_congr {f : Form} {s s' : State} {o : EvexOps}
    (hfs : s'.cfg.faultSuppression = s.cfg.faultSuppression)
    (hmask : ∀ j, j < formKL f → maskOn s' o.mask j = maskOn s o.mask j) :
    evexOffsets f s' o = evexOffsets f s o := by
  have hany : (List.range (formKL f)).any (maskOn s' o.mask) = (List.range (formKL f)).any (maskOn s o.mask) := by
    rw [Bool.eq_iff_iff, List.any_eq_true, List.any_eq_true]
    exact exists_congr fun j => and_congr_right fun hj => by rw [hmask j (List.mem_range.mp hj)]
  have hfull : ((List.range (formVL f / 8)).filter fun i => maskOn s' o.mask (i / (formEW f / 8))) =
      (List.range (formVL f / 8)).filter fun i => maskOn s o.mask (i / (formEW f / 8)) :=
    List.filter_congr fun i hi => hmask _ (div_formEW_lt_formKL (List.mem_range.mp hi))
  rw [evexOffsets, evexOffsets, hfs, hany, hfull]

theorem lanes_congr {w ew kl : Nat} {f g : Nat → BitVec ew} (h : ∀ j, j < kl → f j = g j) :
    lanes w ew kl f = lanes w ew kl g := by
  induction kl with
  | zero => rfl
  | succ n ih => rw [lanes, lanes, ih fun j hj => h j (by omega), h n (by omega)]

/-- The masked products depend on the mask bits below KL alone, besides the vector registers (R97). -/
theorem evexLanes_congr {f : Form} {s s' : State} {o : EvexOps} (b : Vec) (hv : ∀ n, s'.readV n = s.readV n)
    (hmask : ∀ j, j < formKL f → maskOn s' o.mask j = maskOn s o.mask j) :
    evexLanes f s' o b = evexLanes f s o b := by
  refine lanes_congr fun j hj => ?_
  rw [evexElem, evexElem, hmask j hj, hv, hv]

section
variable {fk : Vector Word 8 → Vector Word 8} {fl : StatusFlags → StatusFlags} {fm : BitVec 32 → BitVec 32} {s : State}

theorem evexSource_mapMasksFlags {f : Form} {o : EvexOps} (len : Nat)
    (hmask : ∀ j, j < formKL f → maskOn (s.mapMasksFlags fk fl fm) o.mask j = maskOn s o.mask j) :
    evexSource f (s.mapMasksFlags fk fl fm) len o = evexSource f s len o := by
  cases hsrc : o.src2 with
  | reg n => simp only [evexSource, hsrc, State.mapMasksFlags_readV]
  | mem m =>
    have hoffs := evexOffsets_congr (s := s) (s' := s.mapMasksFlags fk fl fm) rfl hmask
    simp only [evexSource, hsrc, effAddr_mapMasksFlags, memRead_mapMasksFlags, hoffs]

theorem evexMullo_mapMasksFlags {f : Form} {o : EvexOps} (len : Nat)
    (hmask : ∀ j, j < formKL f → maskOn (s.mapMasksFlags fk fl fm) o.mask j = maskOn s o.mask j) :
    evexMullo f o len (s.mapMasksFlags fk fl fm) =
      mapNext (State.mapMasksFlags fk fl fm) (evexMullo f o len s) := by
  simp only [evexMullo, checkUdNm_mapMasksFlags, evexSource_mapMasksFlags len hmask,
    evexLanes_congr _ (State.mapMasksFlags_readV s) hmask]
  cases checkUdNm f (evexReserved o) s with
  | some e => exact (mapNext_takeException s e).symm
  | none =>
    cases evexSource f s len o with
    | error st => exact (mapNext_stopWith s st).symm
    | ok b => rfl

/-- Other flags, another MXCSR, and opmask registers that agree on the bits below KL, change neither the outcome nor what
is written. -/
theorem exec_mapMasksFlags {i : Instr}
    (h : ∀ (a : KReg) (j : Nat), j < formKL (instrForm i) →
      ((s.mapMasksFlags fk fl fm).readK a).getLsbD j = (s.readK a).getLsbD j) :
    exec i (s.mapMasksFlags fk fl fm) = mapNext (State.mapMasksFlags fk fl fm) (exec i s) := by
  rcases isLegacy_or_isVex_or_isEvex i with ⟨o, hi⟩ | ⟨o, hi⟩ | ⟨o, hi⟩
  · rw [hi.exec_eq, hi.exec_eq, legacyMullo_mapMasksFlags]
  · rw [hi.exec_eq, hi.exec_eq, vexMullo_mapMasksFlags]
  · rw [hi.exec_eq, hi.exec_eq, evexMullo_mapMasksFlags _ fun j hj => maskOn_congr fun a => h a j hj]

end

/-- Settles O27: only the opmask registers are replaced, by ones that agree below KL. -/
theorem maskBitsFromKlUpAreIgnored : Obligations.MaskBitsFromKlUpAreIgnored :=
  fun _ _ k' h => exec_mapMasksFlags (fk := fun _ => k') (fl := id) (fm := id) h

/-- Settles O46: only the flags and MXCSR are replaced. -/
theorem flagsNeitherReadNorWritten : Obligations.FlagsNeitherReadNorWritten := by
  intro i s fl mx
  refine ⟨fun t h => ?_, exec_mapMasksFlags (fk := id) (fl := fun _ => fl) (fm := fun _ => mx) fun _ _ _ => rfl⟩
  obtain ⟨-, -, hflags, -⟩ := exec_next_untouched h
  exact hflags

/-! ## Every mask bit off (R18, R40, R97, R99) -/

/-- With fault suppression and every mask bit off no byte of the operand is checked (R40). -/
theorem maskedAccessible_of_masksOff {s : State} {o : EvexOps} {eb kl : Nat} (ea : Word)
    (hfs : s.cfg.faultSuppression = true) (hoff : ∀ j, j < kl → maskOn s o.mask j = false) :
    MaskedAccessible s o eb kl ea := by
  rw [MaskedAccessible, if_pos hfs]
  split
  · rintro ⟨j, hj, hon⟩
    simp [hoff j hj] at hon
  · intro j hj hon
    simp [hoff j hj] at hon

theorem formVL_le (f : Form) : formVL f ≤ 512 := by
  cases f <;> decide

/-- With every mask bit off the low VL bits are the old ones under merging and 0 under zeroing (R97). -/
theorem getLsbD_evexLanes_of_masksOff {f : Form} {s : State} {o : EvexOps} (b : Vec) (n : Nat)
    (hoff : ∀ j, j < formKL f → maskOn s o.mask j = false) :
    (evexLanes f s o b).getLsbD n =
      (decide (n < formVL f) && (!o.zeroing && (s.readV o.dest).getLsbD n)) := by
  have hfill : formEW f * formKL f = formVL f := by cases f <;> rfl
  rw [evexLanes, getLsbD_lanes _ _ (formEW_pos f), hfill]
  by_cases hn : n < formVL f
  · have hj : n / formEW f < formKL f := Nat.div_lt_of_lt_mul (hfill.symm ▸ hn)
    have hbit : n % formEW f < formEW f := Nat.mod_lt _ (formEW_pos f)
    have hold : (elem (formEW f) (s.readV o.dest) (n / formEW f)).getLsbD (n % formEW f) =
        (s.readV o.dest).getLsbD n := by
      rw [getLsbD_elem, Nat.div_add_mod, decide_eq_true hbit, Bool.true_and]
    have h512 := hn.trans_le (formVL_le f)
    rw [evexElem, hoff _ hj]
    cases o.zeroing with
    | false => simpa [hn, h512] using hold
    | true => simp
  · simp [hn]

/-- With every mask bit off the destination keeps its low VL bits under merging, none under zeroing, and none above VL. -/
theorem getLsbD_readV_writeZeroV_evexLanes_of_masksOff {f : Form} {s : State} {o : EvexOps} (b : Vec)
    (hvl : formVL f ≤ maxvl s.cfg) (hoff : ∀ j, j < formKL f → maskOn s o.mask j = false) (n : Nat) :
    ((s.writeZeroV o.dest (formVL f) (evexLanes f s o b)).readV o.dest).getLsbD n =
      (decide (n < formVL f) && (!o.zeroing && (s.readV o.dest).getLsbD n)) := by
  rw [readV_writeZeroV_of_le _ hvl, getLsbD_lowBits, getLsbD_evexLanes_of_masksOff b n hoff]
  by_cases hn : n < formVL f
  · simp [hn, hn.trans_le (formVL_le f)]
  · simp [hn]

/-- An EVEX instruction with a register source, or with fault suppression and every mask bit off, can have its operand. -/
theorem IsEvex.exists_sourceIs {i : Instr} {o : EvexOps} {s : State} (h : IsEvex i o)
    (hoff : ∀ j, j < formKL (instrForm i) → maskOn s o.mask j = false)
    (hsrc : (∃ n, o.src2 = .reg n) ∨ s.cfg.faultSuppression = true) : ∃ b, SourceIs i s b := by
  cases hop : o.src2 with
  | reg n => exact ⟨_, (sourceIs_reg (h.srcOf_eq.trans hop)).mpr rfl⟩
  | mem m =>
    have hfs : s.cfg.faultSuppression = true := by simpa [hop] using hsrc
    refine ⟨_, (sourceIs_mem (h.srcOf_eq.trans hop)).mpr ⟨fun hlegacy => ?_, ?_, rfl⟩⟩
    · rw [h.formKind_eq] at hlegacy
      cases hlegacy
    · exact (h.operandAdmitted_iff s m).mpr (maskedAccessible_of_masksOff _ hfs hoff)

/-- Settles O29: the operand can be had, and none of its elements reaches the destination. -/
theorem allMaskedOffCompletes : Obligations.AllMaskedOffCompletes := by
  intro i o s a hi hr hn hmask hzero hsrc
  have hoff (j : Nat) (hj : j < formKL (instrForm i)) : maskOn s o.mask j = false := by
    rw [hmask]
    exact hzero j hj
  obtain ⟨b, hb⟩ := hi.exists_sourceIs hoff hsrc
  have hbit := getLsbD_readV_writeZeroV_evexLanes_of_masksOff b (formVL_le_maxvl_of_ready hr) hoff
  refine ⟨_, hi.exec_completes hr hn hb, rfl, frameV_writeV_advance s o.dest _ _, fun hz => ?_, fun hz n => ?_⟩
  · apply BitVec.eq_of_getLsbD_eq
    intro n _
    rw [State.advance_readV, hbit, hz]
    simp
  · rw [State.advance_readV, hbit, hz, Bool.not_false, Bool.true_and]

end Sys2Proof.Machine

namespace Sys2Proof

/-! ## What the decoder's readers take from the bytes (R59, R62, R65, R69, R74) -/

/-- Whatever `p` reads takes a number of leading bytes that stands with it in `post`, and depends on those bytes alone. -/
def Reads {α : Type} (p : List Byte → Option (α × List Byte)) (post : α → Nat → Prop) : Prop :=
  ∀ bs a rest, p bs = some (a, rest) →
    ∃ front, bs = front ++ rest ∧ post a front.length ∧ ∀ more, p (front ++ more) = some (a, more)

section
variable {α β : Type}

/-- What is true of every value a reader gives is true of what a function makes of it. -/
theorem Reads.map {p : List Byte → Option (α × List Byte)} {post : α → Nat → Prop} {post' : β → Nat → Prop}
    (f : α → β) (hp : Reads p post) (h : ∀ a n, post a n → post' (f a) n) :
    Reads (fun bs => (p bs).map fun r => (f r.1, r.2)) post' := by
  intro bs b rest hread
  obtain ⟨⟨a, tail⟩, ha, heq⟩ := Option.map_eq_some_iff.mp hread
  obtain ⟨rfl, rfl⟩ := Prod.mk.inj heq
  obtain ⟨front, hbs, hpost, hmore⟩ := hp bs a tail ha
  exact ⟨front, hbs, h _ _ hpost, fun more => by simp only [hmore, Option.map_some]⟩

/-- A reader that reads a fixed front and then goes on as a reader chosen by that front. -/
theorem Reads.of_front {q : List Byte → Option (α × List Byte)} {post : α → Nat → Prop}
    (h : ∀ bs o, q bs = some o → ∃ (front tail : List Byte) (p : List Byte → Option (α × List Byte)),
      bs = front ++ tail ∧ (∀ more, q (front ++ more) = p more) ∧
      Reads p fun a n => post a (front.length + n)) : Reads q post := by
  intro bs a rest hread
  obtain ⟨front, tail, p, rfl, hq, hp⟩ := h bs _ hread
  obtain ⟨front', rfl, hpost, hmore⟩ := hp tail a rest ((hq tail).symm.trans hread)
  refine ⟨front ++ front', (List.append_assoc _ _ _).symm, ?_, fun more => ?_⟩
  · rwa [List.length_append]
  · rw [List.append_assoc, hq, hmore]

theorem Reads.pure (a : α) {post : α → Nat → Prop} (h : post a 0) : Reads (fun bs => some (a, bs)) post := by
  intro bs a' rest hread
  obtain ⟨rfl, rfl⟩ := Prod.mk.inj (Option.some.inj hread)
  exact ⟨[], rfl, h, fun _ => rfl⟩

end

theorem reads_takeDisp8 : Reads takeDisp8 fun _ n => n = 1 := by
  apply Reads.of_front
  intro bs o h
  match bs with
  | [] => cases h
  | b :: bs => exact ⟨[b], bs, _, rfl, fun _ => rfl, Reads.pure b rfl⟩

theorem reads_takeDisp32 : Reads takeDisp32 fun _ n => n = 4 := by
  apply Reads.of_front
  intro bs o h
  match bs with
  | b0 :: b1 :: b2 :: b3 :: bs => exact ⟨[b0, b1, b2, b3], bs, _, rfl, fun _ => rfl, Reads.pure _ rfl⟩
  | [] | [_] | [_, _] | [_, _, _] => cases h

/-- A displacement takes its bytes, and is absent only where mod is 00. -/
theorem reads_decodeDisp (mod : BitVec 2) :
    Reads (decodeDisp mod) fun d n => d.len = n ∧ (d = .none → mod = 0#2) := by
  unfold decodeDisp
  split
  · next h0 => exact Reads.pure _ ⟨rfl, fun _ => h0⟩
  split
  · exact reads_takeDisp8.map _ fun a n hn => ⟨hn.symm, nofun⟩
  · exact reads_takeDisp32.map _ fun a n hn => ⟨hn.symm, nofun⟩

/-! ## Register numbers and operands the decoder reads are expressible (R16, R62, R65, R69, R74, R75) -/

/-- An extension bit adds the weight of the bit above the field. -/
theorem toNat_ofBool_append (b : Bool) {w : Nat} (c : BitVec w) :
    (BitVec.ofBool b ++ c).toNat = 2 ^ w * b.toNat + c.toNat := by
  rw [BitVec.toNat_append, ← Nat.shiftLeft_add_eq_or_of_lt c.isLt, Nat.shiftLeft_eq, BitVec.toNat_ofBool,
    Nat.mul_comm]

/-- Three bits and an extension bit number fewer than `limit` registers, where the limit leaves room for the extension. -/
theorem gprNumber_lt {b : Bool} {limit : Nat} (hlow : 8 ≤ limit) (hb : b = true → 16 ≤ limit) (c : BitVec 3) :
    (BitVec.ofBool b ++ c : Gpr).toNat < limit := by
  have hc := c.isLt
  rw [toNat_ofBool_append]
  cases b with
  | false => simp only [Bool.toNat_false]; omega
  | true => have := hb rfl; simp only [Bool.toNat_true]; omega

theorem vregNumber_lt {hi b : Bool} {limit : Nat} (hlow : 8 ≤ limit) (hb : b = true → 16 ≤ limit)
    (hhi : hi = true → 32 ≤ limit) (c : BitVec 3) :
    (BitVec.ofBool hi ++ (BitVec.ofBool b ++ c) : VReg).toNat < limit := by
  have hc := gprNumber_lt hlow hb c
  have hlt := (BitVec.ofBool b ++ c).isLt
  rw [toNat_ofBool_append]
  cases hi with
  | false => simpa using hc
  | true => have := hhi rfl; simp only [Bool.toNat_true]; omega

/-- The low bits of an extended register number are the field it was read from. -/
theorem extractLsb'_gprNumber (b : Bool) (c : BitVec 3) : (BitVec.ofBool b ++ c : Gpr).extractLsb' 0 3 = c := by
  apply BitVec.eq_of_getLsbD_eq
  intro i hi
  rw [BitVec.getLsbD_extractLsb', BitVec.getLsbD_append, Nat.zero_add, if_pos hi, decide_eq_true hi, Bool.true_and]

theorem dispWellFormed_of_none {b : Gpr} {d : Disp} (h : d = .none → b.extractLsb' 0 3 ≠ 5#3) :
    dispWellFormed b d = true := by
  cases d with
  | none => simpa [dispWellFormed] using h rfl
  | d8 d => rfl
  | d32 d => rfl

section
variable {x b : Bool} {limit : Nat} (hlow : 8 ≤ limit) (hx : x = true → 16 ≤ limit) (hb : b = true → 16 ≤ limit)
include hlow hx

theorem indexWellFormed_decodeIndex (sib : Byte) : indexWellFormed limit (decodeIndex x sib) = true := by
  unfold decodeIndex
  split
  · rfl
  · next hne => simpa [indexWellFormed, Index.wellFormed, hne] using gprNumber_lt hlow hx _

include hb

theorem reads_decodeSib (mod : BitVec 2) (sib : Byte) :
    Reads (decodeSib x b mod sib) fun m n => m.wellFormed limit = true ∧ m.tailLen = 1 + n := by
  have hix := indexWellFormed_decodeIndex hlow hx sib
  unfold decodeSib
  split
  · exact reads_takeDisp32.map _ fun d n hn => ⟨hix, by rw [hn]; rfl⟩
  · next hbase =>
    refine (reads_decodeDisp mod).map _ fun d n ⟨hlen, hnone⟩ => ⟨?_, by rw [← hlen]; rfl⟩
    have hdisp := dispWellFormed_of_none (b := BitVec.ofBool b ++ sib.extractLsb' 0 3) (d := d) fun hd => by
      rw [extractLsb'_gprNumber]
      exact fun h5 => hbase ⟨h5, hnone hd⟩
    simp only [MemOp.wellFormed, Bool.and_eq_true, decide_eq_true_eq]
    exact ⟨⟨hix, hdisp⟩, gprNumber_lt hlow hb _⟩

theorem reads_decodeMem (mod : BitVec 2) (rm : BitVec 3) :
    Reads (decodeMem x b mod rm) fun m n => m.wellFormed limit = true ∧ m.tailLen = n := by
  by_cases h4 : rm = 4#3
  · apply Reads.of_front
    intro bs o h
    match bs with
    | [] => simp [decodeMem, h4] at h
    | sib :: rest =>
      exact ⟨[sib], rest, _, rfl, fun more => if_pos h4, reads_decodeSib hlow hx hb mod sib⟩
  · unfold decodeMem
    simp only [if_neg h4]
    split
    · exact reads_takeDisp32.map _ fun d n hn => ⟨rfl, hn.symm⟩
    · next h5 =>
      refine (reads_decodeDisp mod).map _ fun d n ⟨hlen, hnone⟩ => ⟨?_, hlen⟩
      have hdisp := dispWellFormed_of_none (b := BitVec.ofBool b ++ rm) (d := d) fun hd => by
        rw [extractLsb'_gprNumber]
        exact fun h => h5 ⟨h, hnone hd⟩
      simp only [MemOp.wellFormed, Bool.and_eq_true, decide_eq_true_eq, extractLsb'_gprNumber, bne_iff_ne]
      exact ⟨⟨h4, hdisp⟩, gprNumber_lt hlow hb _⟩

theorem reads_decodeSrc2 {hi : Bool} {vlimit : Nat} (hvlow : 8 ≤ vlimit) (hvb : b = true → 16 ≤ vlimit)
    (hhi : hi = true → 32 ≤ vlimit) (modrm : Byte) :
    Reads (decodeSrc2 hi x b modrm) fun s n => s.wellFormed vlimit limit = true ∧ s.tailLen = n := by
  unfold decodeSrc2
  split
  · exact Reads.pure _ ⟨decide_eq_true (vregNumber_lt hvlow hvb hhi _), rfl⟩
  · exact (reads_decodeMem hlow hx hb _ _).map _ fun m n hm => hm

end

/-! ## The operands of the three kinds, and the ten rows -/

theorem reads_decodeLegacyOps {r x b : Bool} {limit : Nat} (hlow : 8 ≤ limit) (hr : r = true → 16 ≤ limit)
    (hx : x = true → 16 ≤ limit) (hb : b = true → 16 ≤ limit) (modrm : Byte) :
    Reads (decodeLegacyOps r x b modrm) fun o n => o.wellFormed limit = true ∧ o.src2.tailLen = n := by
  refine (reads_decodeSrc2 (hi := false) hlow hx hb hlow hb nofun modrm).map _ fun s n ⟨hs, hn⟩ => ⟨?_, hn⟩
  simp only [LegacyOps.wellFormed, Bool.and_eq_true, decide_eq_true_eq]
  exact ⟨vregNumber_lt (hi := false) hlow hr nofun _, hs⟩

theorem reads_decodeVexOps (b1 b2 modrm : Byte) :
    Reads (decodeVexOps b1 b2 modrm) fun o n => o.wellFormed = true ∧ o.src2.tailLen = n := by
  have hsrc2 := reads_decodeSrc2 (limit := 16) (vlimit := 16) (hi := false) (x := !b1.getLsbD 6)
    (b := !b1.getLsbD 5) (by decide) (fun _ => le_rfl) (fun _ => le_rfl) (by decide) (fun _ => le_rfl) nofun modrm
  refine hsrc2.map _ fun s n ⟨hs, hn⟩ => ⟨?_, hn⟩
  simp only [VexOps.wellFormed, Bool.and_eq_true, decide_eq_true_eq]
  refine ⟨⟨regNumber_false_lt _ _, ?_⟩, hs⟩
  have hsrc1 := (~~~(b2.extractLsb' 3 4)).isLt
  rw [toNat_ofBool_append]
  simpa using hsrc1

theorem decodeMask_ne_zero (aaa : BitVec 3) : decodeMask aaa ≠ some 0#3 := by
  unfold decodeMask
  split
  · nofun
  · next h => exact fun heq => h (Option.some.inj heq)

theorem reads_decodeEvexOps (p0 p1 p2 modrm : Byte) :
    Reads (decodeEvexOps p0 p1 p2 modrm) fun o n => o.wellFormed = true ∧ o.src2.tailLen = n := by
  have hsrc2 := reads_decodeSrc2 (limit := 16) (vlimit := 32) (hi := !p0.getLsbD 6) (x := !p0.getLsbD 6)
    (b := !p0.getLsbD 5) (by decide) (fun _ => le_rfl) (fun _ => le_rfl) (by decide) (fun _ => by decide)
    (fun _ => le_rfl) modrm
  refine hsrc2.map (fun src2 => show EvexOps from
    { dest := regNumber (!p0.getLsbD 4) (!p0.getLsbD 7) modrm
      src1 := BitVec.ofBool (!p2.getLsbD 3) ++ ~~~(p1.extractLsb' 3 4)
      src2
      bcst := p2.getLsbD 4
      mask := decodeMask (p2.extractLsb' 0 3)
      zeroing := p2.getLsbD 7 }) fun s n ⟨hs, hn⟩ => ⟨?_, hn⟩
  simp only [EvexOps.wellFormed, Bool.and_eq_true, bne_iff_ne]
  exact ⟨hs, decodeMask_ne_zero _⟩

theorem reads_decodeLegacyRow : Reads decodeLegacyRow fun i n => i.wellFormed = true ∧ i.ilen = n := by
  apply Reads.of_front
  intro bs o h
  unfold decodeLegacyRow at h
  split at h
  · next b0 b1 b2 b3 modrm bs =>
    refine ⟨[b0, b1, b2, b3, modrm], bs, _, rfl, fun _ => rfl, ?_⟩
    have hops := reads_decodeLegacyOps (r := false) (x := false) (b := false) (limit := 8) le_rfl nofun nofun nofun modrm
    exact hops.map Instr.pmulld fun o n ⟨ho, hn⟩ => ⟨ho, by rw [← hn]; rfl⟩
  · cases h

theorem reads_decodeLegacyRexRow : Reads decodeLegacyRexRow fun i n => i.wellFormed = true ∧ i.ilen = n := by
  apply Reads.of_front
  intro bs o h
  unfold decodeLegacyRexRow at h
  split at h
  · next b0 rex b2 b3 b4 modrm bs =>
    refine ⟨[b0, rex, b2, b3, b4, modrm], bs, _, rfl, fun _ => rfl, ?_⟩
    have hops := reads_decodeLegacyOps (r := rex.getLsbD 2) (x := rex.getLsbD 1) (b := rex.getLsbD 0) (limit := 16)
      (by decide) (fun _ => le_rfl) (fun _ => le_rfl) (fun _ => le_rfl) modrm
    exact hops.map Instr.pmulldRex fun o n ⟨ho, hn⟩ => ⟨ho, by rw [← hn]; rfl⟩
  · cases h

theorem reads_decodeVexRow {mk : VexOps → Instr} (hwf : ∀ o, (mk o).wellFormed = o.wellFormed)
    (hlen : ∀ o, (mk o).ilen = 5 + o.src2.tailLen) :
    Reads (decodeVexRow mk) fun i n => i.wellFormed = true ∧ i.ilen = n := by
  apply Reads.of_front
  intro bs o h
  unfold decodeVexRow at h
  split at h
  · next b0 b1 b2 b3 modrm bs =>
    refine ⟨[b0, b1, b2, b3, modrm], bs, _, rfl, fun _ => rfl, ?_⟩
    exact (reads_decodeVexOps b1 b2 modrm).map mk fun o n ⟨ho, hn⟩ =>
      ⟨(hwf o).trans ho, by rw [hlen, hn]; rfl⟩
  · cases h

theorem reads_decodeEvexRow {mk : EvexOps → Instr} (hwf : ∀ o, (mk o).wellFormed = o.wellFormed)
    (hlen : ∀ o, (mk o).ilen = 6 + o.src2.tailLen) :
    Reads (decodeEvexRow mk) fun i n => i.wellFormed = true ∧ i.ilen = n := by
  apply Reads.of_front
  intro bs o h
  unfold decodeEvexRow at h
  split at h
  · next b0 p0 p1 p2 b4 modrm bs =>
    refine ⟨[b0, p0, p1, p2, b4, modrm], bs, _, rfl, fun _ => rfl, ?_⟩
    exact (reads_decodeEvexOps p0 p1 p2 modrm).map mk fun o n ⟨ho, hn⟩ =>
      ⟨(hwf o).trans ho, by rw [hlen, hn]; rfl⟩
  · cases h

theorem reads_decodeRow (r : Row) : Reads (decodeRow r) fun i n => i.wellFormed = true ∧ i.ilen = n := by
  cases r with
  | legacy => exact reads_decodeLegacyRow
  | legacyRex => exact reads_decodeLegacyRexRow
  | vex128 => exact reads_decodeVexRow (fun _ => rfl) fun _ => rfl
  | vex256 => exact reads_decodeVexRow (fun _ => rfl) fun _ => rfl
  | evexD128 => exact reads_decodeEvexRow (fun _ => rfl) fun _ => rfl
  | evexD256 => exact reads_decodeEvexRow (fun _ => rfl) fun _ => rfl
  | evexD512 => exact reads_decodeEvexRow (fun _ => rfl) fun _ => rfl
  | evexQ128 => exact reads_decodeEvexRow (fun _ => rfl) fun _ => rfl
  | evexQ256 => exact reads_decodeEvexRow (fun _ => rfl) fun _ => rfl
  | evexQ512 => exact reads_decodeEvexRow (fun _ => rfl) fun _ => rfl

/-- Settles O3: the row's decoder reads a well-formed instruction from its first `ilen` bytes. -/
theorem decodedIsWellFormedOfItsLength : Obligations.DecodedIsWellFormedOfItsLength := by
  intro bs rest i h
  obtain ⟨r, hr⟩ := decodeRow_of_decode h
  obtain ⟨front, rfl, ⟨hwf, hlen⟩, -⟩ := reads_decodeRow r _ _ _ hr
  refine ⟨hwf, ?_, ?_⟩
  · rw [hlen, List.length_append]
    exact Nat.le_add_right _ _
  · rw [hlen, List.drop_left]

end Sys2Proof

namespace Sys2Proof

/-! ## Byte patterns: when two of them cannot both match (R78, R79, R80) -/

/-- Two masked patterns ask for different values of a bit that both fix. -/
def clash : List Byte → List Byte → List Byte → List Byte → Bool
  | m :: ms, p :: ps, m' :: ms', p' :: ps' => m &&& m' &&& p != m &&& m' &&& p' || clash ms ps ms' ps'
  | _, _, _, _ => false

theorem matchBits_cons {m p b : Byte} {ms ps bs : List Byte} :
    matchBits (m :: ms) (p :: ps) (b :: bs) = true ↔ b &&& m = p ∧ matchBits ms ps bs = true := by
  simp only [matchBits, Bool.and_eq_true, beq_iff_eq]

/-- A pattern of at least one byte matches bytes of which there is a first, and the rest of it the rest of them. -/
theorem exists_cons_of_matchBits_cons {m p : Byte} {ms ps bs : List Byte}
    (h : matchBits (m :: ms) (p :: ps) bs = true) : ∃ b tail, bs = b :: tail := by
  cases bs with
  | nil => cases h
  | cons b tail => exact ⟨b, tail, rfl⟩

/-- Patterns that clash match no bytes in common. -/
theorem clash_eq_false_of_matchBits {ms ps ms' ps' bs : List Byte} (h : matchBits ms ps bs = true)
    (h' : matchBits ms' ps' bs = true) : clash ms ps ms' ps' = false := by
  induction ms, ps, ms', ps' using clash.induct generalizing bs with
  | case1 m ms p ps m' ms' p' ps' ih =>
    obtain ⟨b, tail, rfl⟩ := exists_cons_of_matchBits_cons h
    obtain ⟨rfl, htail⟩ := matchBits_cons.mp h
    obtain ⟨rfl, htail'⟩ := matchBits_cons.mp h'
    have hbyte : m &&& m' &&& (b &&& m) = m &&& m' &&& (b &&& m') := by
      ac_rfl
    simp only [clash, hbyte, bne_self_eq_false, Bool.false_or]
    exact ih htail htail'
  | case2 _ _ _ _ hnot => rw [clash]; exact hnot

theorem length_le_of_matchBits {ms ps bs : List Byte} (h : matchBits ms ps bs = true) : ms.length ≤ bs.length := by
  induction ms, ps, bs using matchBits.induct with
  | case1 m ms p ps b bs ih => exact Nat.succ_le_succ (ih (matchBits_cons.mp h).2)
  | case2 => exact Nat.zero_le _
  | case3 => simp_all [matchBits]

/-- A match is decided by as many bytes as the pattern has. -/
theorem matchBits_append_of_le {ms ps bs : List Byte} (more : List Byte) (hlen : ms.length ≤ bs.length) :
    matchBits ms ps (bs ++ more) = matchBits ms ps bs := by
  induction ms generalizing ps bs with
  | nil => cases ps <;> simp [matchBits]
  | cons m ms ih =>
    cases bs with
    | nil => simp at hlen
    | cons b bs =>
      cases ps with
      | nil => simp [matchBits]
      | cons p ps => simp only [List.cons_append, matchBits, ih (Nat.le_of_succ_le_succ hlen)]

/-- More bytes do not undo a match. -/
theorem matchBits_append {ms ps bs : List Byte} (more : List Byte) (h : matchBits ms ps bs = true) :
    matchBits ms ps (bs ++ more) = true :=
  (matchBits_append_of_le more (length_le_of_matchBits h)).trans h

theorem fits_append {r : Row} {bs : List Byte} (more : List Byte) (h : r.fits bs = true) :
    r.fits (bs ++ more) = true :=
  matchBits_append more h

/-- No bytes match two rows: any two rows' patterns clash (R78). -/
theorem row_eq_of_fits {r r' : Row} {bs : List Byte} (h : r.fits bs = true) (h' : r'.fits bs = true) : r = r' := by
  have hclash : ∀ r r' : Row, clash r.mask r.pattern r'.mask r'.pattern = false → r = r' := by
    intro r r'
    cases r <;> cases r' <;> decide
  exact hclash r r' (clash_eq_false_of_matchBits h h')

theorem fits_of_matchRow {r : Row} {bs : List Byte} (h : matchRow bs = some r) : r.fits bs = true :=
  List.find?_some (p := fun r : Row => r.fits bs) h

theorem mem_rowAll (r : Row) : r ∈ Row.all := by
  cases r <;> decide

/-- The row the bytes match is the only one they fit. -/
theorem matchRow_eq_some_iff {r : Row} {bs : List Byte} : matchRow bs = some r ↔ r.fits bs = true := by
  refine ⟨fits_of_matchRow, fun h => ?_⟩
  cases hrow : matchRow bs with
  | none => exact absurd h (List.find?_eq_none.mp hrow r (mem_rowAll r))
  | some r' => rw [row_eq_of_fits (fits_of_matchRow hrow) h]

theorem exists_fits_of_decode {bs rest : List Byte} {i : Instr} (h : decode bs = .instr i rest) :
    ∃ r : Row, r.fits bs = true ∧ decodeRow r bs = some (i, rest) := by
  unfold decode at h
  split at h
  · next r hr =>
    split at h
    · next o ho =>
      obtain ⟨rfl, rfl⟩ := Decoded.instr.inj h
      exact ⟨r, fits_of_matchRow hr, ho⟩
    · cases h
  · split at h <;> cases h

/-- Bytes of a VEX row, an EVEX row or the EVEX family match a pattern that, behind the byte 66, clashes with every
row: the legacy rows go on with 0F or a REX byte (R79). -/
theorem exists_matchBits_of_vexOrEvexPattern {bs : List Byte} (h : vexOrEvexPattern bs = true) :
    ∃ ms ps, matchBits ms ps bs = true ∧
      ∀ r : Row, clash (0xFF :: ms) (0x66 :: ps) r.mask r.pattern = true := by
  simp only [vexOrEvexPattern, Bool.or_eq_true] at h
  rcases h with h | h
  · cases hrow : matchRow bs with
    | none => simp [hrow] at h
    | some r =>
      have hkind : r.kind ≠ .legacy := by simpa [hrow] using h
      refine ⟨r.mask, r.pattern, matchRow_eq_some_iff.mp hrow, fun r' => ?_⟩
      revert hkind
      cases r <;> cases r' <;> decide
  · exact ⟨_, _, h, fun r => by cases r <;> decide⟩

/-- Bytes whose first byte may not stand before the pattern behind it match a pattern that clashes with every row (R79). -/
theorem exists_clash_of_illegalPrefix {bs : List Byte} (h : illegalPrefix bs = true) :
    ∃ ms ps, matchBits ms ps bs = true ∧ ∀ r : Row, clash ms ps r.mask r.pattern = true := by
  cases bs with
  | nil => cases h
  | cons b bs =>
    have hbyte (m p : Byte) (h : b &&& m = p) : matchBits [m] [p] (b :: bs) = true := matchBits_cons.mpr ⟨h, rfl⟩
    simp only [illegalPrefix, Bool.or_eq_true, Bool.and_eq_true, beq_iff_eq] at h
    rcases h with ⟨rfl, -⟩ | ⟨((rfl | rfl) | rfl) | hrex, hpattern⟩
    · exact ⟨_, _, hbyte 0xFF 0xF0 rfl, fun r => by cases r <;> decide⟩
    · obtain ⟨ms, ps, hmatch, hclash⟩ := exists_matchBits_of_vexOrEvexPattern hpattern
      exact ⟨_, _, matchBits_cons.mpr ⟨rfl, hmatch⟩, hclash⟩
    · exact ⟨_, _, hbyte 0xFF 0xF2 rfl, fun r => by cases r <;> decide⟩
    · exact ⟨_, _, hbyte 0xFF 0xF3 rfl, fun r => by cases r <;> decide⟩
    · exact ⟨_, _, hbyte 0xF0 0x40 hrex, fun r => by cases r <;> decide⟩

/-- The beginning of bytes that fit a row is no sequence of R79. -/
theorem illegalPrefix_eq_false_of_fits_append {r : Row} {bs more : List Byte} (h : r.fits (bs ++ more) = true) :
    illegalPrefix bs = false := by
  by_contra hillegal
  obtain ⟨ms, ps, hmatch, hclash⟩ := exists_clash_of_illegalPrefix (Bool.not_eq_false _ ▸ hillegal)
  have hfalse := clash_eq_false_of_matchBits (matchBits_append more hmatch) h
  rw [hclash r] at hfalse
  cases hfalse

theorem row_mask_length_le (r : Row) : r.mask.length ≤ 5 := by
  cases r <;> decide

/-- Five leading bytes decide whether bytes fit a row; so where the pattern of the EVEX family matches, no row can be
missing for want of bytes. -/
theorem fits_of_evexFamily {r : Row} {bs more : List Byte} (hfamily : evexFamily bs = true)
    (h : r.fits (bs ++ more) = true) : r.fits bs = true := by
  have hlen : 5 ≤ bs.length := length_le_of_matchBits hfamily
  exact (matchBits_append_of_le more ((row_mask_length_le r).trans hlen)).symm.trans h

/-- What the decoder finds in the beginning of bytes that fit a row: the row's instruction if its bytes are there, and else
bytes that run out, after the row's pattern or before it is complete. -/
theorem decode_cases_of_fits_append {r : Row} {bs more : List Byte} (h : r.fits (bs ++ more) = true) :
    (∃ i rest, decodeRow r bs = some (i, rest)) ∨ decode bs = .cutOff ∨ ∃ u, decode bs = .unlisted u := by
  cases hrow : matchRow bs with
  | some r' =>
    have hsame : r' = r := row_eq_of_fits (fits_append more (fits_of_matchRow hrow)) h
    subst hsame
    cases hread : decodeRow r' bs with
    | some o => exact .inl ⟨o.1, o.2, rfl⟩
    | none => exact .inr (.inl (by simp [decode, hrow, hread]))
  | none =>
    have hfamily : evexFamily bs = false := by
      by_contra hf
      rw [matchRow_eq_some_iff.mpr (fits_of_evexFamily (Bool.not_eq_false _ ▸ hf) h)] at hrow
      cases hrow
    refine .inr (.inr ⟨classify bs, ?_⟩)
    simp [decode, hrow, hfamily, illegalPrefix_eq_false_of_fits_append h]

/-- Settles O15: the bytes that were fetched are the beginning of bytes that fit a row, and fewer than its decoder reads. -/
theorem crossingTopIsRefused : Obligations.CrossingTopIsRefused := by
  intro s i more rest h hshort
  obtain ⟨r, hfits, hread⟩ := exists_fits_of_decode h
  rcases decode_cases_of_fits_append hfits with ⟨j, rest', hj⟩ | hcut | ⟨u, hu⟩
  · obtain ⟨front, hfront, ⟨-, hlen⟩, hmore⟩ := reads_decodeRow r _ _ _ hj
    have hsame : j = i := by
      rw [hfront, List.append_assoc, hmore] at hread
      exact (Prod.mk.inj (Option.some.inj hread)).1
    rw [hfront, List.length_append, ← hlen, hsame] at hshort
    exact absurd (Nat.le_add_right _ _) (Nat.not_le.mpr hshort)
  · exact ⟨_, by rw [Machine.step, hcut]⟩
  · exact ⟨_, by rw [Machine.step, hu]⟩

end Sys2Proof

namespace Sys2Proof.Machine

/-! ## The bytes of a memory operand (R38, R41, R42) -/

/-- Bits of an element are bits of the vector. -/
theorem extractLsb'_elem {w ew lo len : Nat} (x : BitVec w) (j : Nat) (h : lo + len ≤ ew) :
    (elem ew x j).extractLsb' lo len = x.extractLsb' (ew * j + lo) len := by
  apply BitVec.eq_of_getLsbD_eq
  intro i hi
  have hew : lo + i < ew := by omega
  rw [BitVec.getLsbD_extractLsb', BitVec.getLsbD_extractLsb', getLsbD_elem, decide_eq_true hew, Bool.true_and,
    Nat.add_assoc]

theorem getLsbD_memValue {s : State} {a : Word} {n i : Nat} (hn : n ≤ 64) (hi : i < 8 * n) :
    (memValue s a n).getLsbD i = (s.mem.byte ((a.toNat + i / 8) % 2 ^ 64)).getLsbD (i % 8) := by
  have h512 : i < 512 := by omega
  rw [memValue, BitVec.getLsbD_setWidth, Memory.getLsbD_readLE _ _ _ _ hi, decide_eq_true h512, Bool.true_and]

theorem getLsbD_memValue_of_ge {s : State} {a : Word} {n i : Nat} (hi : 8 * n ≤ i) :
    (memValue s a n).getLsbD i = false := by
  rw [memValue, BitVec.getLsbD_setWidth, BitVec.getLsbD_of_ge _ _ hi, Bool.and_false]

/-- The byte of the value that begins at bit `8 * i` is the byte of memory at `a + i`. -/
theorem byte_memValue {s : State} {a : Word} {n i : Nat} (hn : n ≤ 64) (hi : i < n) :
    (memValue s a n).extractLsb' (8 * i) 8 = s.mem.byte ((a.toNat + i) % 2 ^ 64) := by
  apply BitVec.eq_of_getLsbD_eq
  intro b hb
  have hdiv : (8 * i + b) / 8 = i := by omega
  have hmod : (8 * i + b) % 8 = b := by omega
  rw [BitVec.getLsbD_extractLsb', getLsbD_memValue hn (by omega), hdiv, hmod, decide_eq_true hb, Bool.true_and]

/-- Byte `i` of element `j`, for elements of `eb` bytes, is the byte of memory at `a + eb * j + i`. -/
theorem byte_elem_memValue {s : State} {a : Word} {n eb j i : Nat} (hn : n ≤ 64) (hi : i < eb)
    (hj : eb * j + i < n) :
    (elem (8 * eb) (memValue s a n) j).extractLsb' (8 * i) 8 = s.mem.byte ((a.toNat + (eb * j + i)) % 2 ^ 64) := by
  have hstart : 8 * eb * j + 8 * i = 8 * (eb * j + i) := by ring
  rw [extractLsb'_elem _ _ (by omega), hstart, byte_memValue hn hj]

/-- Settles O30: byte by byte, and a dword is a run of bits of its qword. -/
theorem memoryOperandIsLittleEndian : Obligations.MemoryOperandIsLittleEndian := by
  intro s a n hn
  refine ⟨fun i hi => byte_memValue hn hi, fun i hi => getLsbD_memValue_of_ge hi,
    fun j i hj hi => byte_elem_memValue (eb := 4) hn hi hj, fun j i hj hi => byte_elem_memValue (eb := 8) hn hi hj,
    fun j => ⟨?_, ?_⟩⟩
  · have hlow : 32 * (2 * j) = 64 * j + 0 := by ring
    rw [extractLsb'_elem _ _ (by decide), elem, hlow]
  · have hhigh : 32 * (2 * j + 1) = 64 * j + 32 := by ring
    rw [extractLsb'_elem _ _ (by decide), elem, hhigh]

/-- Settles O44: an instruction that completes is a write to its destination and an advance. -/
theorem execChangesOnlyDestination : Obligations.ExecChangesOnlyDestination := by
  intro i s t h
  obtain ⟨-, e, rfl⟩ := exec_next h
  exact frameV_writeV_advance s _ e _

end Sys2Proof.Machine

namespace Sys2Proof.Machine

/-! ## Every instruction in one equation: the checks, the operand, the result (R87, R91, R98, R120)

The three algorithms differ in the reserved combinations, in the operand and in the result; their order is the same. -/

/-- What an instruction answers, from what its checks and its operand come to and the state it would lead to. -/
def outcomeOf (check : Option Exn) (source : Except Stop Vec) (result : Vec → State) (s : State) : Out :=
  match check with
  | some e => takeException e s
  | none =>
    match source with
    | .error st => stopWith st s
    | .ok b => .next (result b)

/-- The encoding is a reserved combination; only an EVEX row has any (R71, R73). -/
def instrReserved : Instr → Bool
  | .pmulld _ | .pmulldRex _ | .vpmulldVex128 _ | .vpmulldVex256 _ => false
  | .vpmulldEvex128 o | .vpmulldEvex256 o | .vpmulldEvex512 o => evexReserved o
  | .vpmullqEvex128 o | .vpmullqEvex256 o | .vpmullqEvex512 o => evexReserved o

/-- The bytes of the memory operand that are checked: all of them, or for an EVEX form those R40 asks for. -/
def operandOffsets (i : Instr) (s : State) : List Nat :=
  match i with
  | .pmulld _ | .pmulldRex _ | .vpmulldVex128 _ | .vpmulldVex256 _ => List.range (operandBytes i)
  | .vpmulldEvex128 o | .vpmulldEvex256 o | .vpmulldEvex512 o => evexOffsets (instrForm i) s o
  | .vpmullqEvex128 o | .vpmullqEvex256 o | .vpmullqEvex512 o => evexOffsets (instrForm i) s o

/-- The last source operand, or why it cannot be had: only the legacy form asks for alignment (R43, R44). -/
def operandRead (i : Instr) (s : State) : Except Stop Vec :=
  match srcOf i with
  | .reg n => .ok (s.readV n)
  | .mem m =>
    if formKind (instrForm i) = .legacy → (operandAddr i s m).toNat % 16 = 0 then
      memRead s (segmentOf m) (operandAddr i s m) (operandBytes i) (operandOffsets i s)
    else .error (.raise .gp0)

/-- The state after the instruction, with `b` its last source operand. -/
def instrResult (i : Instr) (s : State) (b : Vec) : State :=
  match i with
  | .pmulld o | .pmulldRex o => (s.writeLowV o.dest 128 (mulLanes 32 4 (s.readV o.dest) b)).advance i.ilen
  | .vpmulldVex128 o | .vpmulldVex256 o =>
    (s.writeZeroV o.dest (formVL (instrForm i))
      (mulLanes (formEW (instrForm i)) (formKL (instrForm i)) (s.readV o.src1) b)).advance i.ilen
  | .vpmulldEvex128 o | .vpmulldEvex256 o | .vpmulldEvex512 o =>
    (s.writeZeroV o.dest (formVL (instrForm i)) (evexLanes (instrForm i) s o b)).advance i.ilen
  | .vpmullqEvex128 o | .vpmullqEvex256 o | .vpmullqEvex512 o =>
    (s.writeZeroV o.dest (formVL (instrForm i)) (evexLanes (instrForm i) s o b)).advance i.ilen

theorem mapNext_takeException_of_pc {g : State → State} {s : State} (hpc : (g s).pc = s.pc) (e : Exn) :
    mapNext g (takeException e s) = takeException e (g s) := by
  cases e <;> simp only [takeException, mapNext, hpc]

/-- A change of the state that leaves the instruction pointer changes of an outcome the next state alone. -/
theorem mapNext_outcomeOf {g : State → State} {s : State} (hpc : (g s).pc = s.pc) (check : Option Exn)
    (source : Except Stop Vec) (result : Vec → State) :
    mapNext g (outcomeOf check source result s) = outcomeOf check source (fun b => g (result b)) (g s) := by
  cases check with
  | some e => exact mapNext_takeException_of_pc hpc e
  | none =>
    cases source with
    | ok b => rfl
    | error st =>
      cases st with
      | raise e => exact mapNext_takeException_of_pc hpc e
      | refuse q => rfl

section
variable {i : Instr} {s : State}

theorem operandRead_reg {n : VReg} (h : srcOf i = .reg n) : operandRead i s = .ok (s.readV n) := by
  rw [operandRead, h]

theorem operandRead_mem {m : MemOp} (h : srcOf i = .mem m) (halign : Aligned i s m) :
    operandRead i s = memRead s (segmentOf m) (operandAddr i s m) (operandBytes i) (operandOffsets i s) := by
  rw [operandRead, h]
  exact if_pos halign

theorem operandRead_misaligned {m : MemOp} (h : srcOf i = .mem m) (halign : ¬ Aligned i s m) :
    operandRead i s = .error (.raise .gp0) := by
  rw [operandRead, h]
  exact if_neg halign

theorem aligned_of_not_legacy (m : MemOp) (h : formKind (instrForm i) ≠ .legacy) : Aligned i s m :=
  fun hlegacy => absurd hlegacy h

theorem IsLegacy.operandOffsets_eq {o : LegacyOps} (h : IsLegacy i o) :
    operandOffsets i s = List.range (operandBytes i) := by
  rcases h with rfl | rfl <;> rfl

theorem IsVex.operandOffsets_eq {o : VexOps} (h : IsVex i o) :
    operandOffsets i s = List.range (operandBytes i) := by
  rcases h with rfl | rfl <;> rfl

theorem IsEvex.operandOffsets_eq {o : EvexOps} (h : IsEvex i o) :
    operandOffsets i s = evexOffsets (instrForm i) s o := by
  rcases h with rfl | rfl | rfl | rfl | rfl | rfl <;> rfl

theorem IsLegacy.operandRead_eq {o : LegacyOps} (h : IsLegacy i o) :
    operandRead i s = legacySource s i.ilen o.src2 := by
  have hsrc := h.srcOf_eq
  cases hop : o.src2 with
  | reg n => rw [operandRead_reg (hsrc.trans hop), legacySource]
  | mem m =>
    have haligned := h.aligned_iff s m
    by_cases halign : Aligned i s m
    · rw [operandRead_mem (hsrc.trans hop) halign, legacySource, ← h.operandAddr_eq,
        if_pos (haligned.mp halign), h.operandOffsets_eq, h.operandBytes_eq]
    · rw [operandRead_misaligned (hsrc.trans hop) halign, legacySource, ← h.operandAddr_eq,
        if_neg (mt haligned.mpr halign)]

theorem IsVex.operandRead_eq {o : VexOps} (h : IsVex i o) :
    operandRead i s = vexSource (instrForm i) s i.ilen o.src2 := by
  have hsrc := h.srcOf_eq
  cases hop : o.src2 with
  | reg n => rw [operandRead_reg (hsrc.trans hop), vexSource]
  | mem m =>
    have halign : Aligned i s m := aligned_of_not_legacy m (by simp [h.formKind_eq])
    rw [operandRead_mem (hsrc.trans hop) halign, vexSource, h.operandOffsets_eq, h.operandBytes_eq, h.operandAddr_eq]

theorem IsEvex.operandRead_eq {o : EvexOps} (h : IsEvex i o) :
    operandRead i s = evexSource (instrForm i) s i.ilen o := by
  have hsrc := h.srcOf_eq
  cases hop : o.src2 with
  | reg n => rw [operandRead_reg (hsrc.trans hop), evexSource, hop]
  | mem m =>
    have halign : Aligned i s m := aligned_of_not_legacy m (by simp [h.formKind_eq])
    rw [operandRead_mem (hsrc.trans hop) halign, evexSource, hop, h.operandOffsets_eq, h.operandBytes_eq,
      h.operandAddr_eq]

/-- The order of R120 for every instruction: #UD and #NM, then the operand, then the result. -/
theorem exec_eq_outcomeOf (i : Instr) (s : State) :
    exec i s = outcomeOf (checkUdNm (instrForm i) (instrReserved i) s) (operandRead i s) (instrResult i s) s := by
  rcases isLegacy_or_isVex_or_isEvex i with ⟨o, hi⟩ | ⟨o, hi⟩ | ⟨o, hi⟩
  · rw [hi.exec_eq, hi.operandRead_eq]
    rcases hi with rfl | rfl <;> rfl
  · rw [hi.exec_eq, hi.operandRead_eq]
    rcases hi with rfl | rfl <;> rfl
  · rw [hi.exec_eq, hi.operandRead_eq]
    rcases hi with rfl | rfl | rfl | rfl | rfl | rfl <;> rfl

theorem instrReserved_eq_false_iff (i : Instr) : instrReserved i = false ↔ InstrNotReserved i := by
  cases i with
  | pmulld o | pmulldRex o | vpmulldVex128 o | vpmulldVex256 o => exact iff_of_true rfl trivial
  | vpmulldEvex128 o | vpmulldEvex256 o | vpmulldEvex512 o => exact evexReserved_iff
  | vpmullqEvex128 o | vpmullqEvex256 o | vpmullqEvex512 o => exact evexReserved_iff

theorem IsLegacy.instrNotReserved {o : LegacyOps} (h : IsLegacy i o) : InstrNotReserved i := by
  rcases h with rfl | rfl <;> trivial

/-- An instruction that passes the checks answers what its operand comes to. -/
theorem exec_of_ready (hr : Ready (instrForm i) s) (hn : InstrNotReserved i) :
    exec i s = outcomeOf none (operandRead i s) (instrResult i s) s := by
  rw [exec_eq_outcomeOf, checkUdNm_none_iff.mpr ⟨(instrReserved_eq_false_iff i).mpr hn, hr⟩]

/-! ## The bytes that are checked (R40, R42) -/

theorem lt_of_mem_evexOffsets {f : Form} {o : EvexOps} {j : Nat} (h : j ∈ evexOffsets f s o) :
    j < evexBytes f o.bcst := by
  unfold evexOffsets at h
  unfold evexBytes
  split at h
  · split at h
    · next hb =>
      split at h
      · rw [if_pos hb]
        exact List.mem_range.mp h
      · cases h
    · next hb =>
      rw [if_neg hb]
      exact List.mem_range.mp (List.mem_filter.mp h).1
  · exact List.mem_range.mp h

theorem lt_of_mem_operandOffsets {j : Nat} (h : j ∈ operandOffsets i s) : j < operandBytes i := by
  rcases isLegacy_or_isVex_or_isEvex i with ⟨o, hi⟩ | ⟨o, hi⟩ | ⟨o, hi⟩
  · rw [hi.operandOffsets_eq] at h
    exact List.mem_range.mp h
  · rw [hi.operandOffsets_eq] at h
    exact List.mem_range.mp h
  · rw [hi.operandOffsets_eq] at h
    rw [hi.operandBytes_eq]
    exact lt_of_mem_evexOffsets h

/-- The bytes that are checked are all admitted exactly when the operand is. -/
theorem operandOffsets_admitted_iff (m : MemOp) :
    (∀ j ∈ operandOffsets i s, byteAdmitted s.cfg ((operandAddr i s m).toNat + j) = true) ↔ OperandAdmitted i s m := by
  rcases isLegacy_or_isVex_or_isEvex i with ⟨o, hi⟩ | ⟨o, hi⟩ | ⟨o, hi⟩
  · rw [hi.operandOffsets_eq, hi.operandBytes_eq, hi.operandAdmitted_iff, accessible_iff]
    simp only [List.mem_range]
  · rw [hi.operandOffsets_eq, hi.operandBytes_eq, hi.operandAdmitted_iff, accessible_iff]
    simp only [List.mem_range]
  · rw [hi.operandOffsets_eq, hi.operandAdmitted_iff]
    exact evexOffsets_admitted (formEW_bytes_pos _) (formVL_bytes _)

theorem memRead_eq_error {seg : Segment} {ea : Word} {n : Nat} {offs : List Nat} {st : Stop}
    (h : memRead s seg ea n offs = .error st) : checkBytes s.cfg seg ea n offs = some st := by
  unfold memRead at h
  split at h
  · next st' hcheck => rw [hcheck, Except.error.inj h]
  · cases h

/-- A read of which a checked byte is not admitted, and none is device memory, is stopped by a memory fault. -/
theorem memRead_eq_memFault {seg : Segment} {ea : Word} {n : Nat} {offs : List Nat}
    (hadm : ¬ ∀ j ∈ offs, byteAdmitted s.cfg (ea.toNat + j) = true)
    (hdev : ∀ j ∈ offs, regionAt s.cfg (ea.toNat + j) ≠ some .device) :
    ∃ r, memRead s seg ea n offs = .error (.raise (.memFault ea n r)) := by
  cases hcheck : checkBytes s.cfg seg ea n offs with
  | none => exact absurd (checkBytes_eq_none.mp hcheck) hadm
  | some st =>
    rcases checkBytes_eq_some hcheck with ⟨r, rfl⟩ | ⟨-, j, hj, hdevice⟩
    · exact ⟨r, by rw [memRead, hcheck]⟩
    · exact absurd hdevice (hdev j hj)

/-- Settles O38: of the two things that stop a read, device memory is excluded. -/
theorem inadmissibleOperandRaisesMemFault : Obligations.InadmissibleOperandRaisesMemFault := by
  intro i s m hr hn hsrc halign hadm hdev
  obtain ⟨r, hread⟩ := memRead_eq_memFault (seg := segmentOf m) (n := operandBytes i)
    (mt (operandOffsets_admitted_iff m).mp hadm) fun j hj => hdev j (lt_of_mem_operandOffsets hj)
  refine ⟨r, ?_⟩
  rw [exec_of_ready hr hn, operandRead_mem hsrc halign, hread]
  rfl

/-! ## The alignment #GP(0) (R43, R44) -/

/-- The operand of a VEX or EVEX form is never stopped by #GP(0) for its alignment. -/
theorem operandRead_ne_gp0 (h : formKind (instrForm i) ≠ .legacy) : operandRead i s ≠ .error (.raise .gp0) := by
  intro hread
  cases hsrc : srcOf i with
  | reg n =>
    rw [operandRead_reg hsrc] at hread
    cases hread
  | mem m =>
    rw [operandRead_mem hsrc (aligned_of_not_legacy m h)] at hread
    rcases checkBytes_eq_some (memRead_eq_error hread) with ⟨r, hr⟩ | ⟨hr, -⟩ <;> cases hr

theorem takeException_eq_gp0 {e : Exn} {r : Word} (h : takeException e s = .fault (.gp0 r)) : e = .gp0 := by
  cases e <;> simp [takeException] at h ⊢

/-- A #GP(0) with no operand address is the alignment check's: nothing else raises it. -/
theorem operandRead_of_exec_gp0 {r : Word} (h : exec i s = .fault (.gp0 r)) :
    operandRead i s = .error (.raise .gp0) := by
  rw [exec_eq_outcomeOf] at h
  cases hcheck : checkUdNm (instrForm i) (instrReserved i) s with
  | some e =>
    rw [hcheck] at h
    rcases checkUdNm_eq_some hcheck with rfl | rfl <;> cases h
  | none =>
    rw [hcheck] at h
    cases hread : operandRead i s with
    | ok b => rw [hread] at h; cases h
    | error st =>
      rw [hread] at h
      cases st with
      | raise e => rw [takeException_eq_gp0 h]
      | refuse q => cases h

end

/-- Settles O37: the alignment is asked for before any byte is checked, and of the legacy form alone. -/
theorem onlyLegacyNeedsAlignment : Obligations.OnlyLegacyNeedsAlignment := by
  refine ⟨fun i o s m hi hr hop hmis => ?_, fun i s r hkind h =>
    operandRead_ne_gp0 hkind (operandRead_of_exec_gp0 h)⟩
  have hlegacy : IsLegacy i o := hi
  have halign : ¬ Aligned i s m := mt (hlegacy.aligned_iff s m).mp hmis
  rw [← hlegacy.instrForm_eq] at hr
  rw [exec_of_ready hr hlegacy.instrNotReserved, operandRead_misaligned (hlegacy.srcOf_eq.trans hop) halign]
  rfl

end Sys2Proof.Machine

namespace Sys2Proof.Machine

/-! ## What is read of memory (R35, R46) -/

/-- A little-endian read depends on the bytes it reads alone. -/
theorem Memory.readLE_congr {mem mem' : Memory} {a n : Nat}
    (h : ∀ j, j < n → mem'.byte ((a + j) % 2 ^ 64) = mem.byte ((a + j) % 2 ^ 64)) :
    mem'.readLE a n = mem.readLE a n := by
  apply BitVec.eq_of_getLsbD_eq
  intro i hi
  rw [Memory.getLsbD_readLE _ _ _ _ hi, Memory.getLsbD_readLE _ _ _ _ hi, h (i / 8) (by omega)]

/-- The state with another memory. -/
def State.withMem (s : State) (mem' : Memory) : State := { s with mem := mem' }

section
variable {i : Instr} {s : State} {mem' : Memory}

theorem operandAddr_withMem (m : MemOp) : operandAddr i (s.withMem mem') m = operandAddr i s m := by
  cases m with
  | base b d => rfl
  | rip d => rfl
  | sib b ix d => cases ix <;> rfl
  | sibNoBase ix d => cases ix <;> rfl

theorem operandOffsets_withMem : operandOffsets i (s.withMem mem') = operandOffsets i s := by
  cases i <;> rfl

theorem memRead_withMem {seg : Segment} {ea : Word} {n : Nat} (offs : List Nat)
    (h : ∀ j, j < n → mem'.byte ((ea.toNat + j) % 2 ^ 64) = s.mem.byte ((ea.toNat + j) % 2 ^ 64)) :
    memRead (s.withMem mem') seg ea n offs = memRead s seg ea n offs := by
  have hvalue : (s.withMem mem').mem.readLE ea.toNat n = s.mem.readLE ea.toNat n := Memory.readLE_congr h
  rw [memRead, memRead, hvalue]
  rfl

/-- The operand is the same in a memory that agrees on its bytes. -/
theorem operandRead_withMem
    (h : ∀ m, srcOf i = .mem m → ∀ j, j < operandBytes i →
      mem'.byte (((operandAddr i s m).toNat + j) % 2 ^ 64) = s.mem.byte (((operandAddr i s m).toNat + j) % 2 ^ 64)) :
    operandRead i (s.withMem mem') = operandRead i s := by
  cases hsrc : srcOf i with
  | reg n => rw [operandRead_reg hsrc, operandRead_reg hsrc]; rfl
  | mem m =>
    simp only [operandRead, hsrc, operandAddr_withMem, operandOffsets_withMem, memRead_withMem _ (h m hsrc)]

/-- The result takes nothing from memory but the operand. -/
theorem instrResult_withMem (b : Vec) : instrResult i (s.withMem mem') b = (instrResult i s b).withMem mem' := by
  cases i <;> rfl

end

/-- Settles O47: checks and result take nothing from memory, and the operand is the same. -/
theorem onlyOperandBytesAreRead : Obligations.OnlyOperandBytesAreRead := by
  intro i s mem' h
  have hcheck : checkUdNm (instrForm i) (instrReserved i) (s.withMem mem') =
      checkUdNm (instrForm i) (instrReserved i) s := rfl
  calc exec i (s.withMem mem')
      = outcomeOf (checkUdNm (instrForm i) (instrReserved i) s) (operandRead i s)
          (fun b => (instrResult i s b).withMem mem') (s.withMem mem') := by
        rw [exec_eq_outcomeOf, hcheck, operandRead_withMem h, funext (instrResult_withMem (i := i))]
    _ = mapNext (·.withMem mem') (exec i s) := by
        rw [exec_eq_outcomeOf i s, mapNext_outcomeOf (g := (·.withMem mem')) rfl]

end Sys2Proof.Machine

namespace Sys2Proof.Machine

/-! ## A program's run (R51, R132) -/

/-- No instruction lies at or above 2^64: nothing is fetched there. -/
theorem lt_of_laidOut_cons {m : Memory} {base : Nat} {i : Instr} {is : List Instr}
    (h : laidOut m base (i :: is)) : base < 2 ^ 64 := by
  by_contra hge
  obtain ⟨⟨rest, hdecode⟩, -⟩ := h
  have hfetch : fetchBytes m base maxInstrBytes = [] := if_neg hge
  rw [hfetch] at hdecode
  cases hdecode

/-- What follows an instruction that completes is laid out where the instruction pointer then stands. -/
theorem laidOut_of_exec_next {i : Instr} {is : List Instr} {s t : State}
    (h : laidOut s.mem s.pc.toNat (i :: is)) (hexec : exec i s = .next t) : laidOut t.mem t.pc.toNat is := by
  obtain ⟨-, htail⟩ := h
  cases is with
  | nil => trivial
  | cons j js =>
    have hbelow := lt_of_laidOut_cons htail
    have hpc : t.pc.toNat = s.pc.toNat + i.ilen := by
      rw [exec_next_pc hexec, BitVec.toNat_add, BitVec.toNat_ofNat, Nat.add_mod_mod, Nat.mod_eq_of_lt hbelow]
    rwa [exec_next_mem hexec, hpc]

theorem step_of_laidOut {i : Instr} {is : List Instr} {s : State} (h : laidOut s.mem s.pc.toNat (i :: is)) :
    step s = exec i s := by
  obtain ⟨⟨rest, hdecode⟩, -⟩ := h
  exact step_of_decode hdecode

section
variable {M : Host.Core} {n : Nat} {s : M.State}

theorem run_succ_of_next {t : M.State} (h : M.step s = .next t) : M.run (n + 1) s = M.run n t := by
  simp only [Host.Core.run, h]

theorem run_succ_of_fault {r : M.Fault} (h : M.step s = .fault r) : M.run (n + 1) s = .fault r := by
  simp only [Host.Core.run, h]

theorem run_succ_of_refused {r : M.Refusal} (h : M.step s = .refused r) : M.run (n + 1) s = .refused r := by
  simp only [Host.Core.run, h]

end

/-- Settles O55, by induction on the program. -/
theorem programRunExecutesItsInstructions : Obligations.ProgramRunExecutesItsInstructions := by
  intro is
  induction is with
  | nil => exact fun _ _ => rfl
  | cons i is ih =>
    intro s h
    have hstep : core.step s = exec i s := step_of_laidOut h
    cases hexec : exec i s with
    | next t =>
      rw [execAll_cons_next hexec, ← ih t (laidOut_of_exec_next h hexec)]
      exact run_succ_of_next (hstep.trans hexec)
    | fault r =>
      rw [execAll_cons_fault hexec]
      exact run_succ_of_fault (hstep.trans hexec)
    | refused r =>
      rw [execAll_cons_refused hexec]
      exact run_succ_of_refused (hstep.trans hexec)

end Sys2Proof.Machine

namespace Sys2Proof

/-! ## The opcode table in numbers (R61, R64, R68, R78, R80)

A mask over a byte reads the fields the pattern fixes; a statement about a mask is over the 256 values of one byte. -/

section
variable (b : Byte)

theorem and_full_eq_iff (p : Byte) : b &&& 0xFF = p ↔ b = p := by
  have hfull : (0xFF : Byte) = BitVec.allOnes 8 := rfl
  rw [hfull, BitVec.and_allOnes]

theorem and_rexMask_eq_iff : b &&& 0xF0 = 0x40 ↔ b.toNat / 16 = 4 := by
  revert b; decide

theorem and_vexMapMask_eq_iff : b &&& 0x1F = 0x02 ↔ b.toNat % 32 = 2 := by
  revert b; decide

theorem and_vexLenMask_eq_iff :
    (b &&& 0x07 = 0x01 ↔ b.toNat % 4 = 1 ∧ b.toNat / 4 % 2 = 0) ∧
      (b &&& 0x07 = 0x05 ↔ b.toNat % 4 = 1 ∧ b.toNat / 4 % 2 = 1) := by
  revert b; decide

theorem and_evexP0Mask_eq_iff : b &&& 0x0F = 0x02 ↔ b.toNat % 16 = 2 := by
  revert b; decide

theorem and_evexP1Mask_eq_iff :
    (b &&& 0x87 = 0x05 ↔ b.toNat % 8 = 5 ∧ b.toNat / 128 = 0) ∧
      (b &&& 0x87 = 0x85 ↔ b.toNat % 8 = 5 ∧ b.toNat / 128 = 1) := by
  revert b; decide

theorem and_evexP2Mask_eq_iff :
    (b &&& 0x60 = 0x00 ↔ b.toNat / 32 % 4 = 0) ∧ (b &&& 0x60 = 0x20 ↔ b.toNat / 32 % 4 = 1) ∧
      (b &&& 0x60 = 0x40 ↔ b.toNat / 32 % 4 = 2) := by
  revert b; decide

theorem and_familyMask_eq_iff :
    (b &&& 0x03 = 0x02 ↔ b.toNat % 4 = 2) ∧ (b &&& 0x03 = 0x01 ↔ b.toNat % 4 = 1) := by
  revert b; decide

end

/-- A pattern of at least one byte, read from its first byte on. -/
theorem matchBits_cons_iff {m p : Byte} {ms ps bs : List Byte} :
    matchBits (m :: ms) (p :: ps) bs = true ↔
      ∃ b tail, bs = b :: tail ∧ b &&& m = p ∧ matchBits ms ps tail = true := by
  constructor
  · intro h
    obtain ⟨b, tail, rfl⟩ := exists_cons_of_matchBits_cons h
    exact ⟨b, tail, rfl, matchBits_cons.mp h⟩
  · rintro ⟨b, tail, rfl, h⟩
    exact matchBits_cons.mpr h

theorem matchBits_nil (bs : List Byte) : matchBits [] [] bs = true := by
  cases bs <;> rfl

open Sys2Proof.Machine

theorem fits_legacy_iff (bs : List Byte) : Row.legacy.fits bs = true ↔ RowPattern .legacy bs := by
  simp only [Row.fits, Row.mask, Row.pattern, RowPattern, matchBits_cons_iff, and_full_eq_iff, matchBits_nil, and_true]
  constructor
  · rintro ⟨_, _, rfl, rfl, _, _, rfl, rfl, _, _, rfl, rfl, _, tail, rfl, rfl⟩
    exact ⟨tail, rfl⟩
  · rintro ⟨tail, rfl⟩
    exact ⟨_, _, rfl, rfl, _, _, rfl, rfl, _, _, rfl, rfl, _, tail, rfl, rfl⟩

theorem fits_legacyRex_iff (bs : List Byte) : Row.legacyRex.fits bs = true ↔ RowPattern .legacyRex bs := by
  simp only [Row.fits, Row.mask, Row.pattern, RowPattern, matchBits_cons_iff, and_full_eq_iff, and_rexMask_eq_iff,
    matchBits_nil, and_true]
  constructor
  · rintro ⟨_, _, rfl, rfl, rex, _, rfl, hrex, _, _, rfl, rfl, _, _, rfl, rfl, _, tail, rfl, rfl⟩
    exact ⟨rex, tail, rfl, hrex⟩
  · rintro ⟨rex, tail, rfl, hrex⟩
    exact ⟨_, _, rfl, rfl, rex, _, rfl, hrex, _, _, rfl, rfl, _, _, rfl, rfl, _, tail, rfl, rfl⟩

/-- A VEX row's pattern, with `p` its third byte. -/
theorem matchBits_vex_iff {p : Byte} {l : Nat} (bs : List Byte)
    (hp : ∀ b : Byte, b &&& 0x07 = p ↔ b.toNat % 4 = 1 ∧ b.toNat / 4 % 2 = l) :
    matchBits [0xFF, 0x1F, 0x07, 0xFF] [0xC4, 0x02, p, 0x40] bs = true ↔ RowPattern.VexPattern l bs := by
  simp only [RowPattern.VexPattern, matchBits_cons_iff, and_full_eq_iff, and_vexMapMask_eq_iff, hp, matchBits_nil,
    and_true]
  constructor
  · rintro ⟨_, _, rfl, rfl, b1, _, rfl, h1, b2, _, rfl, ⟨hpp, hl⟩, _, tail, rfl, rfl⟩
    exact ⟨b1, b2, tail, rfl, h1, hpp, hl⟩
  · rintro ⟨b1, b2, tail, rfl, h1, hpp, hl⟩
    exact ⟨_, _, rfl, rfl, b1, _, rfl, h1, b2, _, rfl, ⟨hpp, hl⟩, _, tail, rfl, rfl⟩

/-- An EVEX row's pattern, with `q` its third byte and `q'` its fourth. -/
theorem matchBits_evex_iff {q q' : Byte} {w ll : Nat} (bs : List Byte)
    (hq : ∀ b : Byte, b &&& 0x87 = q ↔ b.toNat % 8 = 5 ∧ b.toNat / 128 = w)
    (hq' : ∀ b : Byte, b &&& 0x60 = q' ↔ b.toNat / 32 % 4 = ll) :
    matchBits [0xFF, 0x0F, 0x87, 0x60, 0xFF] [0x62, 0x02, q, q', 0x40] bs = true ↔
      RowPattern.EvexPattern w ll bs := by
  simp only [RowPattern.EvexPattern, matchBits_cons_iff, and_full_eq_iff, and_evexP0Mask_eq_iff, hq, hq', matchBits_nil,
    and_true]
  constructor
  · rintro ⟨_, _, rfl, rfl, p0, _, rfl, h0, p1, _, rfl, ⟨h1, hw⟩, p2, _, rfl, h2, _, tail, rfl, rfl⟩
    exact ⟨p0, p1, p2, tail, rfl, h0, h1, hw, h2⟩
  · rintro ⟨p0, p1, p2, tail, rfl, h0, h1, hw, h2⟩
    exact ⟨_, _, rfl, rfl, p0, _, rfl, h0, p1, _, rfl, ⟨h1, hw⟩, p2, _, rfl, h2, _, tail, rfl, rfl⟩

theorem fits_iff_rowPattern (r : Row) (bs : List Byte) : r.fits bs = true ↔ RowPattern r bs := by
  cases r with
  | legacy => exact fits_legacy_iff bs
  | legacyRex => exact fits_legacyRex_iff bs
  | vex128 => exact matchBits_vex_iff bs fun b => (and_vexLenMask_eq_iff b).1
  | vex256 => exact matchBits_vex_iff bs fun b => (and_vexLenMask_eq_iff b).2
  | evexD128 =>
    exact matchBits_evex_iff bs (fun b => (and_evexP1Mask_eq_iff b).1) fun b => (and_evexP2Mask_eq_iff b).1
  | evexD256 =>
    exact matchBits_evex_iff bs (fun b => (and_evexP1Mask_eq_iff b).1) fun b => (and_evexP2Mask_eq_iff b).2.1
  | evexD512 =>
    exact matchBits_evex_iff bs (fun b => (and_evexP1Mask_eq_iff b).1) fun b => (and_evexP2Mask_eq_iff b).2.2
  | evexQ128 =>
    exact matchBits_evex_iff bs (fun b => (and_evexP1Mask_eq_iff b).2) fun b => (and_evexP2Mask_eq_iff b).1
  | evexQ256 =>
    exact matchBits_evex_iff bs (fun b => (and_evexP1Mask_eq_iff b).2) fun b => (and_evexP2Mask_eq_iff b).2.1
  | evexQ512 =>
    exact matchBits_evex_iff bs (fun b => (and_evexP1Mask_eq_iff b).2) fun b => (and_evexP2Mask_eq_iff b).2.2

theorem evexFamily_iff_inFamily (bs : List Byte) : evexFamily bs = true ↔ InFamily bs := by
  have hzero : ∀ b : Byte, b &&& 0x00 = 0x00 := fun b => BitVec.and_zero
  simp only [evexFamily, InFamily, matchBits_cons_iff, and_full_eq_iff, and_familyMask_eq_iff, hzero, matchBits_nil,
    true_and, and_true]
  constructor
  · rintro ⟨_, _, rfl, rfl, p0, _, rfl, h0, p1, _, rfl, h1, p2, _, rfl, _, tail, rfl, rfl⟩
    exact ⟨p0, p1, p2, tail, rfl, h0, h1⟩
  · rintro ⟨p0, p1, p2, tail, rfl, h0, h1⟩
    exact ⟨_, _, rfl, rfl, p0, _, rfl, h0, p1, _, rfl, h1, p2, _, rfl, _, tail, rfl, rfl⟩

/-- Settles O54: row by row, each mask reads the fields of its byte layout. -/
theorem rowsAreTheByteLayouts : Obligations.RowsAreTheByteLayouts :=
  ⟨fits_iff_rowPattern, evexFamily_iff_inFamily⟩

/-- Settles O4: the patterns of any two rows clash. -/
theorem opcodeRowsNeverOverlap : Obligations.OpcodeRowsNeverOverlap :=
  fun _ _ _ h h' => row_eq_of_fits h h'

/-! ## What a matching row decides: the first byte and the encoding kind (R57, R78) -/

/-- The first byte of an encoding of each kind (R57). -/
def kindByte : Kind → Byte
  | .legacy => 0x66#8
  | .vex => 0xC4#8
  | .evex => 0x62#8

theorem head_of_fits {r : Row} {bs : List Byte} (h : r.fits bs = true) : bs.head? = some (kindByte r.kind) := by
  rw [fits_iff_rowPattern] at h
  cases r with
  | legacy => obtain ⟨_, rfl⟩ := h; rfl
  | legacyRex => obtain ⟨_, _, rfl, -⟩ := h; rfl
  | vex128 | vex256 => obtain ⟨_, _, _, rfl, -⟩ := h; rfl
  | evexD128 | evexD256 | evexD512 => obtain ⟨_, _, _, _, rfl, -⟩ := h; rfl
  | evexQ128 | evexQ256 | evexQ512 => obtain ⟨_, _, _, _, rfl, -⟩ := h; rfl

/-- What a reader gives of what another reads. -/
theorem map_fst_eq_some_iff {α β : Type} {p : Option (α × List Byte)} {f : α → β} {b : β} {rest : List Byte} :
    (p.map fun r => (f r.1, r.2)) = some (b, rest) ↔ ∃ a, b = f a ∧ p = some (a, rest) := by
  simp only [Option.map_eq_some_iff, Prod.mk.injEq, Prod.exists]
  constructor
  · rintro ⟨a, _, hp, rfl, rfl⟩
    exact ⟨a, rfl, hp⟩
  · rintro ⟨a, rfl, hp⟩
    exact ⟨a, rest, hp, rfl, rfl⟩

theorem decodeLegacyRow_eq_pmulld {bs rest : List Byte} {i : Instr} (h : decodeLegacyRow bs = some (i, rest)) :
    ∃ o, i = .pmulld o := by
  unfold decodeLegacyRow at h
  split at h
  · obtain ⟨o, ho, -⟩ := map_fst_eq_some_iff.mp h
    exact ⟨o, ho⟩
  · cases h

theorem decodeLegacyRexRow_eq_pmulldRex {bs rest : List Byte} {i : Instr}
    (h : decodeLegacyRexRow bs = some (i, rest)) : ∃ o, i = .pmulldRex o := by
  unfold decodeLegacyRexRow at h
  split at h
  · obtain ⟨o, ho, -⟩ := map_fst_eq_some_iff.mp h
    exact ⟨o, ho⟩
  · cases h

theorem decodeVexRow_eq_mk {mk : VexOps → Instr} {bs rest : List Byte} {i : Instr}
    (h : decodeVexRow mk bs = some (i, rest)) : ∃ o, i = mk o := by
  unfold decodeVexRow at h
  split at h
  · obtain ⟨o, ho, -⟩ := map_fst_eq_some_iff.mp h
    exact ⟨o, ho⟩
  · cases h

theorem formKind_of_decodeRow {r : Row} {bs rest : List Byte} {i : Instr} (h : decodeRow r bs = some (i, rest)) :
    formKind (instrForm i) = r.kind := by
  cases r with
  | legacy => obtain ⟨o, rfl⟩ := decodeLegacyRow_eq_pmulld h; rfl
  | legacyRex => obtain ⟨o, rfl⟩ := decodeLegacyRexRow_eq_pmulldRex h; rfl
  | vex128 | vex256 => obtain ⟨o, rfl⟩ := decodeVexRow_eq_mk h; rfl
  | evexD128 | evexD256 | evexD512 => obtain ⟨o, rfl⟩ := decodeEvexRow_eq_mk h; rfl
  | evexQ128 | evexQ256 | evexQ512 => obtain ⟨o, rfl⟩ := decodeEvexRow_eq_mk h; rfl

/-- Settles O5: the row that was decoded fits, and has the instruction's kind. -/
theorem firstByteDecidesKind : Obligations.FirstByteDecidesKind := by
  intro bs rest i h
  obtain ⟨r, hfits, hread⟩ := exists_fits_of_decode h
  rw [head_of_fits hfits, formKind_of_decodeRow hread]
  cases r.kind <;> rfl

/-- Bytes that fit a row decode to what the row's decoder reads. -/
theorem decode_eq_instr_iff {r : Row} {bs rest : List Byte} {i : Instr} (h : r.fits bs = true) :
    decode bs = .instr i rest ↔ decodeRow r bs = some (i, rest) := by
  have hrow := matchRow_eq_some_iff.mpr h
  cases hread : decodeRow r bs with
  | none => simp [decode, hrow, hread]
  | some o => simp [decode, hrow, hread, Prod.ext_iff]

end Sys2Proof

namespace Sys2Proof

open Sys2Proof.Machine

/-! ## The length of the canonical bytes (R59) -/

theorem Disp.length_bytes (d : Disp) : d.bytes.length = d.len := by
  cases d <;> rfl

theorem length_tail_encodeSrc2 (src : Src2) : (encodeSrc2 src).tail.length = src.tailLen := by
  cases src with
  | reg n => rfl
  | mem m =>
    cases m with
    | base b d => exact d.length_bytes
    | rip d => rfl
    | sib b ix d => exact (congrArg (· + 1) d.length_bytes).trans (Nat.add_comm _ _)
    | sibNoBase ix d => rfl

theorem length_modrmTail (dest : VReg) (src : Src2) :
    (modrmTail dest (encodeSrc2 src)).length = 1 + src.tailLen := by
  rw [modrmTail, List.length_cons, length_tail_encodeSrc2, Nat.add_comm]

/-- Settles O2: four bytes before ModRM without REX and for VEX, five with REX and for EVEX. -/
theorem encodeLengthIsIlen : Obligations.EncodeLengthIsIlen := by
  intro i
  cases i with
  | pmulld o | pmulldRex o =>
    simp only [encode, encodeLegacy, encodeLegacyRex, List.length_cons, length_modrmTail, Instr.ilen]
    omega
  | vpmulldVex128 o | vpmulldVex256 o =>
    simp only [encode, encodeVex, List.length_cons, length_modrmTail, Instr.ilen]
    omega
  | vpmulldEvex128 o | vpmulldEvex256 o | vpmulldEvex512 o | vpmullqEvex128 o | vpmullqEvex256 o | vpmullqEvex512 o =>
    simp only [encode, encodeEvex, List.length_cons, length_modrmTail, Instr.ilen]
    omega

/-! ## Fields of bytes put together, and registers put together from their fields (R62, R65, R69, R74) -/

/-- A bit on top of the bits below it. -/
theorem ofBool_getLsbD_append_low {w : Nat} (x : BitVec w) (k : Nat) :
    BitVec.ofBool (x.getLsbD k) ++ x.extractLsb' 0 k = x.extractLsb' 0 (1 + k) := by
  have hbit : BitVec.ofBool (x.getLsbD k) = x.extractLsb' k 1 := by
    apply BitVec.eq_of_getLsbD_eq
    intro i hi
    obtain rfl : i = 0 := by omega
    simp
  rw [hbit, BitVec.extractLsb'_append_extractLsb'_eq_extractLsb' (Nat.zero_add k).symm]

theorem gpr_eq_append (g : Gpr) : BitVec.ofBool (g.getLsbD 3) ++ g.extractLsb' 0 3 = g :=
  (ofBool_getLsbD_append_low g 3).trans BitVec.extractLsb'_eq_self

theorem vreg_eq_append_low (n : VReg) : BitVec.ofBool (n.getLsbD 4) ++ n.extractLsb' 0 4 = n :=
  (ofBool_getLsbD_append_low n 4).trans BitVec.extractLsb'_eq_self

theorem vreg_eq_append (n : VReg) :
    BitVec.ofBool (n.getLsbD 4) ++ (BitVec.ofBool (n.getLsbD 3) ++ n.extractLsb' 0 3) = n := by
  rw [ofBool_getLsbD_append_low]
  exact vreg_eq_append_low n

/-- A register number below a power of two has no bit there. -/
theorem getLsbD_eq_false_of_lt {w i : Nat} {n : BitVec w} (h : n.toNat < 2 ^ i) : n.getLsbD i = false :=
  Nat.testBit_lt_two_pow h

section
variable (hi : BitVec 2) (mid lo : BitVec 3)

/-- A ModRM or SIB byte: its high two bits, and the fields of three bits below. -/
theorem extractLsb'_high : (hi ++ (mid ++ lo) : Byte).extractLsb' 6 2 = hi := by
  rw [BitVec.extractLsb'_append_eq_of_le (by decide)]
  exact BitVec.extractLsb'_eq_self

theorem extractLsb'_mid : (hi ++ (mid ++ lo) : Byte).extractLsb' 3 3 = mid := by
  rw [BitVec.extractLsb'_append_eq_of_add_le (by decide), BitVec.extractLsb'_append_eq_of_le (by decide)]
  exact BitVec.extractLsb'_eq_self

theorem extractLsb'_low : (hi ++ (mid ++ lo) : Byte).extractLsb' 0 3 = lo := by
  rw [BitVec.extractLsb'_append_eq_of_add_le (by decide), BitVec.extractLsb'_append_eq_of_add_le (by decide)]
  exact BitVec.extractLsb'_eq_self

end

/-! ## What the decoder reads from the bytes of an operand is the operand (R74, R75) -/

theorem Scale.ofBits_bits (sc : Scale) : Scale.ofBits sc.bits = sc := by
  cases sc <;> rfl

theorem takeDisp32_disp32Bytes (d : BitVec 32) (rest : List Byte) :
    takeDisp32 (disp32Bytes d ++ rest) = some (d, rest) := by
  have hd : d.extractLsb' 24 8 ++ (d.extractLsb' 16 8 ++ (d.extractLsb' 8 8 ++ d.extractLsb' 0 8)) = d := by
    rw [BitVec.extractLsb'_append_extractLsb'_eq_extractLsb' (start₁ := 0) (by decide),
      BitVec.extractLsb'_append_extractLsb'_eq_extractLsb' (start₁ := 0) (by decide),
      BitVec.extractLsb'_append_extractLsb'_eq_extractLsb' (start₁ := 0) (by decide)]
    exact BitVec.extractLsb'_eq_self
  simp only [disp32Bytes, List.cons_append, List.nil_append, takeDisp32, hd]

theorem decodeDisp_bytes (d : Disp) (rest : List Byte) : decodeDisp d.modBits (d.bytes ++ rest) = some (d, rest) := by
  cases d with
  | none => rfl
  | d8 d => rfl
  | d32 d => simp [decodeDisp, Disp.modBits, Disp.bytes, takeDisp32_disp32Bytes]

/-- A base register with the low bits 101 has a displacement, so that mod is not 00. -/
theorem not_base_and_mod_of_dispWellFormed {b : Gpr} {d : Disp} (h : dispWellFormed b d = true) :
    ¬ (b.extractLsb' 0 3 = 5#3 ∧ d.modBits = 0#2) := by
  rintro ⟨hbase, hmod⟩
  cases d with
  | none => simp [dispWellFormed, hbase] at h
  | d8 d => cases hmod
  | d32 d => cases hmod

theorem extractLsb'_low_sibByte (ix : Option Index) (base : BitVec 3) : (sibByte ix base).extractLsb' 0 3 = base := by
  cases ix with
  | none => exact extractLsb'_low _ _ _
  | some i => exact extractLsb'_low _ _ _

theorem decodeIndex_sibByte {limit : Nat} {ix : Option Index} (h : indexWellFormed limit ix = true) (base : BitVec 3) :
    decodeIndex (indexExt ix) (sibByte ix base) = ix := by
  cases ix with
  | none => rw [decodeIndex, sibByte, extractLsb'_mid]; rfl
  | some i =>
    obtain ⟨reg, scale⟩ := i
    simp only [indexWellFormed, Index.wellFormed, Bool.and_eq_true, bne_iff_ne] at h
    simp only [decodeIndex, sibByte, indexExt, extractLsb'_mid, extractLsb'_high, gpr_eq_append, if_neg h.1,
      Scale.ofBits_bits]

theorem decodeMem_encodeSrc2 {limit : Nat} {m : MemOp} (h : m.wellFormed limit = true) (rest : List Byte) :
    decodeMem (encodeSrc2 (.mem m)).x (encodeSrc2 (.mem m)).b (encodeSrc2 (.mem m)).mod (encodeSrc2 (.mem m)).rm
      ((encodeSrc2 (.mem m)).tail ++ rest) = some (m, rest) := by
  cases m with
  | base b d =>
    simp only [MemOp.wellFormed, Bool.and_eq_true, bne_iff_ne] at h
    obtain ⟨⟨hsib, hdisp⟩, -⟩ := h
    simp only [encodeSrc2, decodeMem, if_neg hsib, if_neg (not_base_and_mod_of_dispWellFormed hdisp), decodeDisp_bytes,
      Option.map_some, gpr_eq_append]
  | rip d => simp [encodeSrc2, decodeMem, takeDisp32_disp32Bytes]
  | sib b ix d =>
    simp only [MemOp.wellFormed, Bool.and_eq_true] at h
    obtain ⟨⟨hix, hdisp⟩, -⟩ := h
    simp only [encodeSrc2, decodeMem, List.cons_append, if_true, decodeSib, extractLsb'_low_sibByte,
      if_neg (not_base_and_mod_of_dispWellFormed hdisp), decodeDisp_bytes, Option.map_some, decodeIndex_sibByte hix,
      gpr_eq_append]
  | sibNoBase ix d =>
    simp only [encodeSrc2, decodeMem, List.cons_append, if_true, decodeSib, extractLsb'_low_sibByte, and_self,
      takeDisp32_disp32Bytes, Option.map_some, decodeIndex_sibByte h]

theorem mod_encodeSrc2_mem_ne (m : MemOp) : (encodeSrc2 (.mem m)).mod ≠ 3#2 := by
  cases m with
  | base b d => cases d <;> nofun
  | rip d => nofun
  | sib b ix d => cases d <;> nofun
  | sibNoBase ix d => nofun

/-- Bit 4 of a register number, `hi`, is for the caller to say: 0 in a legacy or VEX form, X in an EVEX form. -/
theorem decodeSrc2_encodeSrc2 {vlimit limit : Nat} {src : Src2} {hi : Bool} (h : src.wellFormed vlimit limit = true)
    (hhi : ∀ n, src = .reg n → hi = n.getLsbD 4) (reg : BitVec 3) (rest : List Byte) :
    decodeSrc2 hi (encodeSrc2 src).x (encodeSrc2 src).b ((encodeSrc2 src).mod ++ (reg ++ (encodeSrc2 src).rm))
      ((encodeSrc2 src).tail ++ rest) = some (src, rest) := by
  rw [decodeSrc2, extractLsb'_high, extractLsb'_low]
  cases src with
  | reg n =>
    rw [hhi n rfl]
    simp only [encodeSrc2, if_true, vreg_eq_append, List.nil_append]
  | mem m => rw [if_neg (mod_encodeSrc2_mem_ne m), decodeMem_encodeSrc2 h, Option.map_some]

theorem regNumber_modrm (dest : VReg) (mod : BitVec 2) (rm : BitVec 3) :
    regNumber (dest.getLsbD 4) (dest.getLsbD 3) (mod ++ (dest.extractLsb' 0 3 ++ rm)) = dest := by
  rw [regNumber, extractLsb'_mid, vreg_eq_append]

/-! ## The bytes before the opcode that the encoder writes, and the fields the decoder reads in them (R61, R64, R68)

Each is a byte of the encoder's text under a name; R, X, B, Rh, vvvv and Vh are given as they are stored. -/

/-- REX with W = 0. -/
def rexByte (r x b : Bool) : Byte := 0b01000#5 ++ (BitVec.ofBool r ++ (BitVec.ofBool x ++ BitVec.ofBool b))

/-- VEX byte 1: R, X, B and map 00010. -/
def vexByte1 (r x b : Bool) : Byte :=
  BitVec.ofBool r ++ (BitVec.ofBool x ++ (BitVec.ofBool b ++ 0b00010#5))

/-- VEX byte 2: W = 0, vvvv, L and pp 01. -/
def vexByte2 (vvvv : BitVec 4) (l : Bool) : Byte := 0#1 ++ (vvvv ++ (BitVec.ofBool l ++ 0b01#2))

/-- P0: R, X, B, Rh and 0010. -/
def evexByte0 (r x b rh : Bool) : Byte :=
  BitVec.ofBool r ++ (BitVec.ofBool x ++ (BitVec.ofBool b ++ (BitVec.ofBool rh ++ 0b0010#4)))

/-- P1: W, vvvv and 101. -/
def evexByte1 (w : Bool) (vvvv : BitVec 4) : Byte := BitVec.ofBool w ++ (vvvv ++ 0b101#3)

/-- P2: z, L'L, b, Vh and aaa. -/
def evexByte2 (z : Bool) (ll : BitVec 2) (b vh : Bool) (aaa : BitVec 3) : Byte :=
  BitVec.ofBool z ++ (ll ++ (BitVec.ofBool b ++ (BitVec.ofBool vh ++ aaa)))

theorem rexByte_fields : ∀ r x b : Bool, (rexByte r x b).toNat / 16 = 4 ∧ (rexByte r x b).getLsbD 2 = r ∧
    (rexByte r x b).getLsbD 1 = x ∧ (rexByte r x b).getLsbD 0 = b := by decide

theorem vexByte1_fields : ∀ r x b : Bool, (vexByte1 r x b).toNat % 32 = 2 ∧ (vexByte1 r x b).getLsbD 7 = r ∧
    (vexByte1 r x b).getLsbD 6 = x ∧ (vexByte1 r x b).getLsbD 5 = b := by decide

theorem evexByte0_fields : ∀ r x b rh : Bool, (evexByte0 r x b rh).toNat % 16 = 2 ∧
    (evexByte0 r x b rh).getLsbD 7 = r ∧ (evexByte0 r x b rh).getLsbD 6 = x ∧
    (evexByte0 r x b rh).getLsbD 5 = b ∧ (evexByte0 r x b rh).getLsbD 4 = rh := by decide

theorem vexByte2_fields : ∀ (vvvv : BitVec 4) (l : Bool), (vexByte2 vvvv l).toNat % 4 = 1 ∧
    (vexByte2 vvvv l).toNat / 4 % 2 = l.toNat ∧ (vexByte2 vvvv l).extractLsb' 3 4 = vvvv := by decide

theorem evexByte1_fields : ∀ (w : Bool) (vvvv : BitVec 4), (evexByte1 w vvvv).toNat % 8 = 5 ∧
    (evexByte1 w vvvv).toNat / 128 = w.toNat ∧ (evexByte1 w vvvv).extractLsb' 3 4 = vvvv := by decide

theorem evexByte2_fields : ∀ (z : Bool) (ll : BitVec 2) (b vh : Bool) (aaa : BitVec 3),
    (evexByte2 z ll b vh aaa).toNat / 32 % 4 = ll.toNat ∧ (evexByte2 z ll b vh aaa).getLsbD 7 = z ∧
      (evexByte2 z ll b vh aaa).getLsbD 4 = b ∧ (evexByte2 z ll b vh aaa).getLsbD 3 = vh ∧
      (evexByte2 z ll b vh aaa).extractLsb' 0 3 = aaa := by decide

/-! ## Decoding the canonical bytes, kind by kind (R61, R64, R68) -/

theorem indexExt_eq_false {ix : Option Index} (h : indexWellFormed 8 ix = true) : indexExt ix = false := by
  cases ix with
  | none => rfl
  | some i =>
    simp only [indexWellFormed, Index.wellFormed, Bool.and_eq_true, decide_eq_true_eq] at h
    exact getLsbD_eq_false_of_lt h.2

/-- An operand that needs no REX byte has no extension bit. -/
theorem encodeSrc2_ext_eq_false {src : Src2} (h : src.wellFormed 8 8 = true) :
    (encodeSrc2 src).x = false ∧ (encodeSrc2 src).b = false := by
  cases src with
  | reg n =>
    have hlt : n.toNat < 8 := of_decide_eq_true h
    exact ⟨getLsbD_eq_false_of_lt (i := 4) (by omega), getLsbD_eq_false_of_lt (i := 3) hlt⟩
  | mem m =>
    cases m with
    | base b d =>
      simp only [Src2.wellFormed, MemOp.wellFormed, Bool.and_eq_true, decide_eq_true_eq] at h
      exact ⟨rfl, getLsbD_eq_false_of_lt (i := 3) h.2⟩
    | rip d => exact ⟨rfl, rfl⟩
    | sib b ix d =>
      simp only [Src2.wellFormed, MemOp.wellFormed, Bool.and_eq_true, decide_eq_true_eq] at h
      obtain ⟨⟨hix, -⟩, hb⟩ := h
      exact ⟨indexExt_eq_false hix, getLsbD_eq_false_of_lt (i := 3) hb⟩
    | sibNoBase ix d => exact ⟨indexExt_eq_false h, rfl⟩

/-- With register numbers below 16 the operands' bits 4 are 0, as the legacy and VEX forms take them to be. -/
theorem decodeSrc2_encodeSrc2_of_lt {vlimit limit : Nat} {src : Src2} (hv : vlimit ≤ 16)
    (h : src.wellFormed vlimit limit = true) (reg : BitVec 3) (rest : List Byte) :
    decodeSrc2 false (encodeSrc2 src).x (encodeSrc2 src).b ((encodeSrc2 src).mod ++ (reg ++ (encodeSrc2 src).rm))
      ((encodeSrc2 src).tail ++ rest) = some (src, rest) := by
  refine decodeSrc2_encodeSrc2 h (fun n hn => ?_) reg rest
  subst hn
  have hlt : n.toNat < vlimit := of_decide_eq_true h
  exact (getLsbD_eq_false_of_lt (i := 4) (by omega)).symm

theorem regNumber_modrm_of_lt {dest : VReg} (h : dest.toNat < 16) (mod : BitVec 2) (rm : BitVec 3) :
    regNumber false (dest.getLsbD 3) (mod ++ (dest.extractLsb' 0 3 ++ rm)) = dest := by
  have hbit : dest.getLsbD 4 = false := getLsbD_eq_false_of_lt (i := 4) h
  rw [← hbit]
  exact regNumber_modrm dest mod rm

theorem decodeLegacyOps_encode {limit : Nat} {o : LegacyOps} (hlimit : limit ≤ 16) (h : o.wellFormed limit = true)
    (rest : List Byte) :
    decodeLegacyOps (o.dest.getLsbD 3) (encodeSrc2 o.src2).x (encodeSrc2 o.src2).b
      ((encodeSrc2 o.src2).mod ++ (o.dest.extractLsb' 0 3 ++ (encodeSrc2 o.src2).rm))
      ((encodeSrc2 o.src2).tail ++ rest) = some (o, rest) := by
  simp only [LegacyOps.wellFormed, Bool.and_eq_true, decide_eq_true_eq] at h
  obtain ⟨hdest, hsrc⟩ := h
  rw [decodeLegacyOps, decodeSrc2_encodeSrc2_of_lt hlimit hsrc, Option.map_some,
    regNumber_modrm_of_lt (hdest.trans_le hlimit)]

theorem decode_encodeLegacy {o : LegacyOps} (h : o.wellFormed 8 = true) (rest : List Byte) :
    decode (encodeLegacy o ++ rest) = .instr (.pmulld o) rest := by
  have hfits : Row.legacy.fits (encodeLegacy o ++ rest) = true := rfl
  have hops := decodeLegacyOps_encode (by decide) h rest
  simp only [LegacyOps.wellFormed, Bool.and_eq_true, decide_eq_true_eq] at h
  obtain ⟨hdest, hsrc⟩ := h
  obtain ⟨hx, hb⟩ := encodeSrc2_ext_eq_false hsrc
  have hr : o.dest.getLsbD 3 = false := getLsbD_eq_false_of_lt (i := 3) hdest
  rw [hx, hb, hr] at hops
  rw [decode_eq_instr_iff hfits]
  simp only [decodeRow, encodeLegacy, modrmTail, List.cons_append, decodeLegacyRow, hops, Option.map_some]

theorem decode_encodeLegacyRex {o : LegacyOps} (h : o.wellFormed 16 = true) (rest : List Byte) :
    decode (encodeLegacyRex o ++ rest) = .instr (.pmulldRex o) rest := by
  have hbytes : encodeLegacyRex o ++ rest =
      0x66 :: rexByte (o.dest.getLsbD 3) (encodeSrc2 o.src2).x (encodeSrc2 o.src2).b :: 0x0F :: 0x38 :: 0x40 ::
        ((encodeSrc2 o.src2).mod ++ (o.dest.extractLsb' 0 3 ++ (encodeSrc2 o.src2).rm)) ::
          ((encodeSrc2 o.src2).tail ++ rest) := rfl
  obtain ⟨hrex, hr, hx, hb⟩ := rexByte_fields (o.dest.getLsbD 3) (encodeSrc2 o.src2).x (encodeSrc2 o.src2).b
  have hfits : Row.legacyRex.fits (encodeLegacyRex o ++ rest) = true :=
    (fits_iff_rowPattern _ _).mpr ⟨_, _, hbytes, hrex⟩
  rw [decode_eq_instr_iff hfits, hbytes]
  simp only [decodeRow, decodeLegacyRexRow, hr, hx, hb, decodeLegacyOps_encode le_rfl h, Option.map_some]

theorem decodeVexOps_encode {o : VexOps} (h : o.wellFormed = true) (l : Bool) (rest : List Byte) :
    decodeVexOps (vexByte1 (!o.dest.getLsbD 3) (!(encodeSrc2 o.src2).x) (!(encodeSrc2 o.src2).b))
      (vexByte2 (~~~(o.src1.extractLsb' 0 4)) l)
      ((encodeSrc2 o.src2).mod ++ (o.dest.extractLsb' 0 3 ++ (encodeSrc2 o.src2).rm))
      ((encodeSrc2 o.src2).tail ++ rest) = some (o, rest) := by
  simp only [VexOps.wellFormed, Bool.and_eq_true, decide_eq_true_eq] at h
  obtain ⟨⟨hdest, hsrc1⟩, hsrc2⟩ := h
  obtain ⟨-, hr, hx, hb⟩ := vexByte1_fields (!o.dest.getLsbD 3) (!(encodeSrc2 o.src2).x) (!(encodeSrc2 o.src2).b)
  obtain ⟨-, -, hvvvv⟩ := vexByte2_fields (~~~(o.src1.extractLsb' 0 4)) l
  have hbit : o.src1.getLsbD 4 = false := getLsbD_eq_false_of_lt (i := 4) hsrc1
  have hsrc1' : BitVec.ofBool false ++ o.src1.extractLsb' 0 4 = o.src1 := hbit ▸ vreg_eq_append_low o.src1
  rw [decodeVexOps, hr, hx, hb, hvvvv]
  simp only [Bool.not_not, BitVec.not_not, decodeSrc2_encodeSrc2_of_lt le_rfl hsrc2, Option.map_some,
    regNumber_modrm_of_lt hdest, hsrc1']

theorem vexPattern_encodeVex (l : Bool) (o : VexOps) (rest : List Byte) :
    RowPattern.VexPattern l.toNat (encodeVex l o ++ rest) := by
  obtain ⟨hpp, hl, -⟩ := vexByte2_fields (~~~(o.src1.extractLsb' 0 4)) l
  exact ⟨_, _, _, rfl, (vexByte1_fields _ _ _).1, hpp, hl⟩

/-- What either VEX row's decoder reads in the canonical bytes. -/
theorem decodeVexRow_encodeVex (mk : VexOps → Instr) {o : VexOps} (h : o.wellFormed = true) (l : Bool)
    (rest : List Byte) : decodeVexRow mk (encodeVex l o ++ rest) = some (mk o, rest) :=
  congrArg (Option.map fun r : VexOps × List Byte => (mk r.1, r.2)) (decodeVexOps_encode h l rest)

theorem decodeMask_maskBits {mask : Option KReg} (h : mask ≠ some 0#3) : decodeMask (maskBits mask) = mask := by
  cases mask with
  | none => rfl
  | some a => exact if_neg fun ha => h (congrArg some ha)

theorem decodeEvexOps_encode {o : EvexOps} (h : o.wellFormed = true) (w : Bool) (ll : BitVec 2) (rest : List Byte) :
    decodeEvexOps
      (evexByte0 (!o.dest.getLsbD 3) (!(encodeSrc2 o.src2).x) (!(encodeSrc2 o.src2).b) (!o.dest.getLsbD 4))
      (evexByte1 w (~~~(o.src1.extractLsb' 0 4)))
      (evexByte2 o.zeroing ll o.bcst (!o.src1.getLsbD 4) (maskBits o.mask))
      ((encodeSrc2 o.src2).mod ++ (o.dest.extractLsb' 0 3 ++ (encodeSrc2 o.src2).rm))
      ((encodeSrc2 o.src2).tail ++ rest) = some (o, rest) := by
  simp only [EvexOps.wellFormed, Bool.and_eq_true, bne_iff_ne] at h
  obtain ⟨hsrc2, hmask⟩ := h
  obtain ⟨-, hr, hx, hb, hrh⟩ := evexByte0_fields (!o.dest.getLsbD 3) (!(encodeSrc2 o.src2).x)
    (!(encodeSrc2 o.src2).b) (!o.dest.getLsbD 4)
  obtain ⟨-, -, hvvvv⟩ := evexByte1_fields w (~~~(o.src1.extractLsb' 0 4))
  obtain ⟨-, hz, hbcst, hvh, haaa⟩ := evexByte2_fields o.zeroing ll o.bcst (!o.src1.getLsbD 4) (maskBits o.mask)
  have hbit4 : ∀ n, o.src2 = .reg n → (encodeSrc2 o.src2).x = n.getLsbD 4 := by
    intro n hn
    rw [hn]
    rfl
  rw [decodeEvexOps, hr, hx, hb, hrh, hvvvv, hz, hbcst, hvh, haaa]
  simp only [Bool.not_not, BitVec.not_not, decodeSrc2_encodeSrc2 hsrc2 hbit4, Option.map_some, regNumber_modrm,
    vreg_eq_append_low, decodeMask_maskBits hmask]

theorem evexPattern_encodeEvex (w : Bool) (ll : BitVec 2) (o : EvexOps) (rest : List Byte) :
    RowPattern.EvexPattern w.toNat ll.toNat (encodeEvex w ll o ++ rest) := by
  obtain ⟨hfixed, hw, -⟩ := evexByte1_fields w (~~~(o.src1.extractLsb' 0 4))
  exact ⟨_, _, _, _, rfl, (evexByte0_fields _ _ _ _).1, hfixed, hw, (evexByte2_fields _ _ _ _ _).1⟩

/-- What any EVEX row's decoder reads in the canonical bytes. -/
theorem decodeEvexRow_encodeEvex (mk : EvexOps → Instr) {o : EvexOps} (h : o.wellFormed = true) (w : Bool)
    (ll : BitVec 2) (rest : List Byte) : decodeEvexRow mk (encodeEvex w ll o ++ rest) = some (mk o, rest) :=
  congrArg (Option.map fun r : EvexOps × List Byte => (mk r.1, r.2)) (decodeEvexOps_encode h w ll rest)

theorem decode_of_rowPattern {r : Row} {bs rest : List Byte} {i : Instr} (h : RowPattern r bs)
    (hread : decodeRow r bs = some (i, rest)) : decode bs = .instr i rest :=
  (decode_eq_instr_iff ((fits_iff_rowPattern r bs).mpr h)).mpr hread

/-- Settles O1: the canonical bytes fit the instruction's row, whose decoder undoes the encoder field by field. -/
theorem decodeOfEncodeIsIdentity : Obligations.DecodeOfEncodeIsIdentity := by
  intro i rest h
  cases i with
  | pmulld o => exact decode_encodeLegacy h rest
  | pmulldRex o => exact decode_encodeLegacyRex h rest
  | vpmulldVex128 o =>
    exact decode_of_rowPattern (r := .vex128) (vexPattern_encodeVex _ _ _) (decodeVexRow_encodeVex _ h _ _)
  | vpmulldVex256 o =>
    exact decode_of_rowPattern (r := .vex256) (vexPattern_encodeVex _ _ _) (decodeVexRow_encodeVex _ h _ _)
  | vpmulldEvex128 o =>
    exact decode_of_rowPattern (r := .evexD128) (evexPattern_encodeEvex _ _ _ _) (decodeEvexRow_encodeEvex _ h _ _ _)
  | vpmulldEvex256 o =>
    exact decode_of_rowPattern (r := .evexD256) (evexPattern_encodeEvex _ _ _ _) (decodeEvexRow_encodeEvex _ h _ _ _)
  | vpmulldEvex512 o =>
    exact decode_of_rowPattern (r := .evexD512) (evexPattern_encodeEvex _ _ _ _) (decodeEvexRow_encodeEvex _ h _ _ _)
  | vpmullqEvex128 o =>
    exact decode_of_rowPattern (r := .evexQ128) (evexPattern_encodeEvex _ _ _ _) (decodeEvexRow_encodeEvex _ h _ _ _)
  | vpmullqEvex256 o =>
    exact decode_of_rowPattern (r := .evexQ256) (evexPattern_encodeEvex _ _ _ _) (decodeEvexRow_encodeEvex _ h _ _ _)
  | vpmullqEvex512 o =>
    exact decode_of_rowPattern (r := .evexQ512) (evexPattern_encodeEvex _ _ _ _) (decodeEvexRow_encodeEvex _ h _ _ _)

end Sys2Proof

namespace Sys2Proof

open Sys2Proof.Machine

/-! ## Fields of bytes as numbers (R62, R65, R69, R74) -/

theorem toNat_append_eq_add {v w : Nat} (x : BitVec v) (y : BitVec w) : (x ++ y).toNat = 2 ^ w * x.toNat + y.toNat := by
  rw [BitVec.toNat_append, ← Nat.shiftLeft_add_eq_or_of_lt y.isLt, Nat.shiftLeft_eq, Nat.mul_comm]

theorem toNat_field {w : Nat} (x : BitVec w) (lo len : Nat) :
    (x.extractLsb' lo len).toNat = x.toNat / 2 ^ lo % 2 ^ len := by
  rw [BitVec.extractLsb'_toNat, Nat.shiftRight_eq_div_pow]

theorem getLsbD_eq_decide {w : Nat} (x : BitVec w) (i : Nat) : x.getLsbD i = decide (x.toNat / 2 ^ i % 2 = 1) := by
  rw [← BitVec.testBit_toNat, Nat.testBit_eq_decide_div_mod_eq]

section
variable (b : Byte)

theorem toNat_modField : (b.extractLsb' 6 2).toNat = b.toNat / 64 := by
  have := b.isLt
  rw [toNat_field]
  omega

theorem toNat_regField : (b.extractLsb' 3 3).toNat = b.toNat / 8 % 8 := toNat_field b 3 3

theorem toNat_rmField : (b.extractLsb' 0 3).toNat = b.toNat % 8 := by
  rw [toNat_field, pow_zero, Nat.div_one]
  rfl

/-- A field holds a value exactly when its number is that. -/
theorem modField_eq_iff (v : BitVec 2) : b.extractLsb' 6 2 = v ↔ b.toNat / 64 = v.toNat := by
  rw [← BitVec.toNat_inj, toNat_modField]

theorem rmField_eq_iff (v : BitVec 3) : b.extractLsb' 0 3 = v ↔ b.toNat % 8 = v.toNat := by
  rw [← BitVec.toNat_inj, toNat_rmField]

end

theorem gprNumber_eq_ofNat (b : Bool) (c : BitVec 3) :
    (BitVec.ofBool b ++ c : Gpr) = BitVec.ofNat 4 (8 * b.toNat + c.toNat) := by
  have hlt := (BitVec.ofBool b ++ c).isLt
  apply BitVec.eq_of_toNat_eq
  rw [toNat_ofBool_append] at hlt ⊢
  exact (Nat.mod_eq_of_lt hlt).symm

theorem toNat_vregNumber (hi b : Bool) (c : BitVec 3) :
    (BitVec.ofBool hi ++ (BitVec.ofBool b ++ c) : VReg).toNat = 16 * hi.toNat + 8 * b.toNat + c.toNat := by
  rw [toNat_ofBool_append, toNat_ofBool_append, ← Nat.add_assoc]
  rfl

theorem vregNumber_eq_ofNat (hi b : Bool) (c : BitVec 3) :
    (BitVec.ofBool hi ++ (BitVec.ofBool b ++ c) : VReg) = BitVec.ofNat 5 (16 * hi.toNat + 8 * b.toNat + c.toNat) := by
  rw [← toNat_vregNumber, BitVec.ofNat_toNat, BitVec.setWidth_eq]

theorem toNat_regNumber (hi r : Bool) (modrm : Byte) :
    (regNumber hi r modrm).toNat = 16 * hi.toNat + 8 * r.toNat + modrm.toNat / 8 % 8 := by
  rw [regNumber, toNat_vregNumber, toNat_regField]

/-- A register number whose low four bits are stored inverted (vvvv). -/
theorem toNat_invertedNumber (hi : Bool) (b : Byte) :
    (BitVec.ofBool hi ++ ~~~(b.extractLsb' 3 4)).toNat = 16 * hi.toNat + (15 - b.toNat / 8 % 16) := by
  rw [toNat_ofBool_append, BitVec.toNat_not, toNat_field]
  rfl

/-! ## What the decoder reads of a memory operand is R75's address -/

theorem takeDisp32_eq {bs rest : List Byte} {d : BitVec 32} (h : takeDisp32 bs = some (d, rest)) :
    d = BitVec.ofNat 32 (rawNat 4 bs) := by
  match bs with
  | b0 :: b1 :: b2 :: b3 :: bs =>
    obtain ⟨rfl, -⟩ := Prod.mk.inj (Option.some.inj h)
    apply BitVec.eq_of_toNat_eq
    simp only [toNat_append_eq_add, rawNat, BitVec.toNat_ofNat]
    omega
  | [] | [_] | [_, _] | [_, _, _] => cases h

theorem takeDisp8_eq {bs rest : List Byte} {d : BitVec 8} (h : takeDisp8 bs = some (d, rest)) :
    d = BitVec.ofNat 8 (rawNat 1 bs) := by
  match bs with
  | b :: bs =>
    obtain ⟨rfl, -⟩ := Prod.mk.inj (Option.some.inj h)
    simp [rawNat]
  | [] => cases h

theorem dispValue_of_decodeDisp {mod : BitVec 2} {bs rest : List Byte} {d : Disp} (hmod : mod ≠ 3#2)
    (h : decodeDisp mod bs = some (d, rest)) (n : Nat) : dispValue n d = rawDisp mod.toNat n bs := by
  unfold decodeDisp at h
  split at h
  · next h0 =>
    obtain ⟨rfl, -⟩ := Prod.mk.inj (Option.some.inj h)
    rw [h0]
    rfl
  split at h
  · next h1 =>
    obtain ⟨d8, rfl, htake⟩ := map_fst_eq_some_iff.mp h
    rw [h1, dispValue, takeDisp8_eq htake]
    rfl
  · next h0 h1 =>
    obtain ⟨d32, rfl, htake⟩ := map_fst_eq_some_iff.mp h
    have h2 : mod = 2#2 := by bv_omega
    rw [h2, dispValue, takeDisp32_eq htake]
    rfl

theorem Scale.bits_ofBits (c : BitVec 2) : (Scale.ofBits c).bits = c := by
  revert c
  decide

theorem indexTerm_decodeIndex (s : State) (x : Bool) (sib : Byte) :
    indexTerm s (decodeIndex x sib) = rawTerm s x sib.toNat := by
  have hnone : (BitVec.ofBool x ++ sib.extractLsb' 3 3 : Gpr) = 4#4 ↔ 8 * x.toNat + sib.toNat / 8 % 8 = 4 := by
    rw [← BitVec.toNat_inj, toNat_ofBool_append, toNat_regField]
    rfl
  unfold decodeIndex rawTerm
  split
  · next h => rw [if_pos (hnone.mp h)]; rfl
  · next h =>
    rw [if_neg (mt hnone.mpr h), indexTerm, Scale.bits_ofBits, xNat, gprNumber_eq_ofNat, toNat_regField,
      BitVec.shiftLeft_eq', toNat_modField]

section
variable {x b : Bool} (s : State) (scaleN len : Nat)

/-- The case of `rawAddr` with a SIB byte. -/
theorem effAddr_of_decodeSib {mod : BitVec 2} {sib : Byte} {bs rest : List Byte} {m : MemOp} (hmod : mod ≠ 3#2)
    (h : decodeSib x b mod sib bs = some (m, rest)) :
    effAddr s scaleN len m =
      if sib.toNat % 8 = 5 ∧ mod.toNat = 0 then rawTerm s x sib.toNat + rawDisp32 bs
      else xNat s (8 * b.toNat + sib.toNat % 8) + rawTerm s x sib.toNat + rawDisp mod.toNat scaleN bs := by
  have hbase : (sib.extractLsb' 0 3 = 5#3 ∧ mod = 0#2) ↔ sib.toNat % 8 = 5 ∧ mod.toNat = 0 :=
    and_congr (rmField_eq_iff sib 5#3) BitVec.toNat_inj.symm
  unfold decodeSib at h
  split at h
  · next hnone =>
    obtain ⟨d, rfl, htake⟩ := map_fst_eq_some_iff.mp h
    rw [if_pos (hbase.mp hnone), effAddr, indexTerm_decodeIndex, takeDisp32_eq htake, rawDisp32]
  · next hsome =>
    obtain ⟨d, rfl, hdisp⟩ := map_fst_eq_some_iff.mp h
    rw [if_neg (mt hbase.mpr hsome), effAddr, indexTerm_decodeIndex, dispValue_of_decodeDisp hmod hdisp, xNat,
      gprNumber_eq_ofNat, toNat_rmField]

theorem effAddr_of_decodeMem {modrm : Byte} {bs rest : List Byte} {m : MemOp} (hmod : modrm.toNat / 64 ≠ 3)
    (h : decodeMem x b (modrm.extractLsb' 6 2) (modrm.extractLsb' 0 3) bs = some (m, rest)) :
    effAddr s scaleN len m = rawAddr s scaleN len x b modrm.toNat bs := by
  have hmod' : modrm.extractLsb' 6 2 ≠ 3#2 := mt (modField_eq_iff modrm 3#2).mp hmod
  unfold decodeMem at h
  unfold rawAddr
  split at h
  · next h4 =>
    have h4' : modrm.toNat % 8 = 4 := (rmField_eq_iff modrm 4#3).mp h4
    rw [if_neg (not_not.mpr h4')]
    match bs with
    | [] => cases h
    | sib :: bs => rw [effAddr_of_decodeSib s scaleN len hmod' h, toNat_modField]
  · next h4 =>
    have h4' : modrm.toNat % 8 ≠ 4 := mt (rmField_eq_iff modrm 4#3).mpr h4
    have hrip : (modrm.extractLsb' 0 3 = 5#3 ∧ modrm.extractLsb' 6 2 = 0#2) ↔
        modrm.toNat / 64 = 0 ∧ modrm.toNat % 8 = 5 :=
      (and_congr (rmField_eq_iff modrm 5#3) (modField_eq_iff modrm 0#2)).trans and_comm
    rw [if_pos h4']
    split at h
    · next hpc =>
      obtain ⟨d, rfl, htake⟩ := map_fst_eq_some_iff.mp h
      rw [if_pos (hrip.mp hpc), effAddr, takeDisp32_eq htake, rawDisp32]
    · next hbase =>
      obtain ⟨d, rfl, hdisp⟩ := map_fst_eq_some_iff.mp h
      rw [if_neg (mt hrip.mpr hbase), effAddr, dispValue_of_decodeDisp hmod' hdisp, xNat, gprNumber_eq_ofNat,
        toNat_rmField, toNat_modField]

end

/-- With mod 11 the last source operand is the register rm names with its extension bits. -/
theorem decodeSrc2_eq_reg {hi x b : Bool} {modrm : Byte} {bs rest : List Byte} {src : Src2}
    (h : decodeSrc2 hi x b modrm bs = some (src, rest)) (hmod : modrm.toNat / 64 = 3) :
    src = .reg (BitVec.ofNat 5 (16 * hi.toNat + 8 * b.toNat + modrm.toNat % 8)) := by
  rw [decodeSrc2, if_pos ((modField_eq_iff modrm 3#2).mpr hmod)] at h
  obtain ⟨rfl, -⟩ := Prod.mk.inj (Option.some.inj h)
  rw [vregNumber_eq_ofNat, toNat_rmField]

/-- With mod not 11 it is memory, at R75's address. -/
theorem decodeSrc2_eq_mem {hi x b : Bool} {modrm : Byte} {bs rest : List Byte} {src : Src2}
    (h : decodeSrc2 hi x b modrm bs = some (src, rest)) (hmod : modrm.toNat / 64 ≠ 3) :
    ∃ m, src = .mem m ∧
      ∀ s scaleN len, effAddr s scaleN len m = rawAddr s scaleN len x b modrm.toNat bs := by
  rw [decodeSrc2, if_neg (mt (modField_eq_iff modrm 3#2).mp hmod)] at h
  obtain ⟨m, rfl, hmem⟩ := map_fst_eq_some_iff.mp h
  exact ⟨m, rfl, fun s scaleN len => effAddr_of_decodeMem s scaleN len hmod hmem⟩

/-! ## The decoder reads every operand whose bytes are there (R59, R74) -/

theorem exists_takeDisp32 {bs : List Byte} (h : 4 ≤ bs.length) : ∃ o, takeDisp32 bs = some o := by
  match bs with
  | _ :: _ :: _ :: _ :: _ => exact ⟨_, rfl⟩
  | [] | [_] | [_, _] | [_, _, _] => simp at h

/-- The displacement of a base register: mod 00 with the low base bits 101 is another address shape. -/
theorem exists_decodeDisp {mod : BitVec 2} {base : Nat} {bs : List Byte} (hmod : mod ≠ 3#2)
    (hbase : ¬ (base = 5 ∧ mod.toNat = 0)) (h : rawDispLen mod.toNat base ≤ bs.length) :
    ∃ d rest, decodeDisp mod bs = some (d, rest) ∧ d.len = rawDispLen mod.toNat base := by
  have hcases : mod = 0#2 ∨ mod = 1#2 ∨ mod = 2#2 := by bv_omega
  rcases hcases with rfl | rfl | rfl
  · have h5 : base ≠ 5 := fun h5 => hbase ⟨h5, rfl⟩
    exact ⟨.none, bs, rfl, by simp [rawDispLen, h5, Disp.len]⟩
  · match bs with
    | [] => simp [rawDispLen] at h
    | d :: bs => exact ⟨.d8 d, bs, rfl, rfl⟩
  · obtain ⟨⟨d, rest⟩, htake⟩ := exists_takeDisp32 (bs := bs) h
    exact ⟨.d32 d, rest, by simp [decodeDisp, htake], rfl⟩

theorem exists_decodeSib {x b : Bool} {mod : BitVec 2} {sib : Byte} {bs : List Byte} (hmod : mod ≠ 3#2)
    (h : rawDispLen mod.toNat (sib.toNat % 8) ≤ bs.length) :
    ∃ m rest, decodeSib x b mod sib bs = some (m, rest) ∧
      m.tailLen = 1 + rawDispLen mod.toNat (sib.toNat % 8) := by
  by_cases hnone : sib.extractLsb' 0 3 = 5#3 ∧ mod = 0#2
  · have h5 : sib.toNat % 8 = 5 := (rmField_eq_iff sib 5#3).mp hnone.1
    rw [h5, hnone.2] at h
    obtain ⟨⟨d, rest⟩, htake⟩ := exists_takeDisp32 (bs := bs) h
    refine ⟨.sibNoBase (decodeIndex x sib) d, rest, by simp [decodeSib, hnone, htake], ?_⟩
    rw [h5, hnone.2]
    rfl
  · have hbase : ¬ (sib.toNat % 8 = 5 ∧ mod.toNat = 0) := fun hb =>
      hnone ⟨(rmField_eq_iff sib 5#3).mpr hb.1, BitVec.eq_of_toNat_eq hb.2⟩
    obtain ⟨d, rest, hdisp, hlen⟩ := exists_decodeDisp hmod hbase h
    exact ⟨_, rest, by rw [decodeSib, if_neg hnone, hdisp, Option.map_some], congrArg (1 + ·) hlen⟩

theorem exists_decodeMem (x b : Bool) {modrm : Byte} {bs : List Byte} (hreg : modrm.toNat / 64 ≠ 3)
    (h : rawTail modrm.toNat bs ≤ bs.length) :
    ∃ m rest, decodeMem x b (modrm.extractLsb' 6 2) (modrm.extractLsb' 0 3) bs = some (m, rest) ∧
      m.tailLen = rawTail modrm.toNat bs := by
  have hmod : modrm.extractLsb' 6 2 ≠ 3#2 := mt (modField_eq_iff modrm 3#2).mp hreg
  unfold rawTail at h ⊢
  rw [if_neg hreg, ← toNat_modField] at h ⊢
  by_cases h4 : modrm.toNat % 8 = 4
  · rw [if_pos h4] at h ⊢
    have h4' : modrm.extractLsb' 0 3 = 4#3 := (rmField_eq_iff modrm 4#3).mpr h4
    match bs with
    | [] => simp at h
    | sib :: bs =>
      have hle : 1 + rawDispLen (modrm.extractLsb' 6 2).toNat (sib.toNat % 8) ≤ bs.length + 1 := h
      obtain ⟨m, rest, hsib, hlen⟩ := exists_decodeSib (x := x) (b := b) (sib := sib) (bs := bs) hmod (by omega)
      exact ⟨m, rest, (if_pos h4').trans hsib, hlen⟩
  · rw [if_neg h4] at h ⊢
    have h4' : modrm.extractLsb' 0 3 ≠ 4#3 := mt (rmField_eq_iff modrm 4#3).mp h4
    by_cases hrip : modrm.extractLsb' 0 3 = 5#3 ∧ modrm.extractLsb' 6 2 = 0#2
    · have h5 : modrm.toNat % 8 = 5 := (rmField_eq_iff modrm 5#3).mp hrip.1
      rw [h5, hrip.2] at h
      obtain ⟨⟨d, rest⟩, htake⟩ := exists_takeDisp32 (bs := bs) h
      refine ⟨.rip d, rest, by simp [decodeMem, hrip, htake], ?_⟩
      rw [h5, hrip.2]
      rfl
    · have hbase : ¬ (modrm.toNat % 8 = 5 ∧ (modrm.extractLsb' 6 2).toNat = 0) := fun hb =>
        hrip ⟨(rmField_eq_iff modrm 5#3).mpr hb.1, BitVec.eq_of_toNat_eq hb.2⟩
      obtain ⟨d, rest, hdisp, hlen⟩ := exists_decodeDisp hmod hbase h
      exact ⟨.base (BitVec.ofBool b ++ modrm.extractLsb' 0 3) d, rest, by simp [decodeMem, h4', hrip, hdisp], hlen⟩

/-- Where as many bytes follow ModRM as `rawTail` says, the decoder reads the operand from that many. -/
theorem exists_decodeSrc2 (hi x b : Bool) {modrm : Byte} {bs : List Byte} (h : rawTail modrm.toNat bs ≤ bs.length) :
    ∃ src rest, decodeSrc2 hi x b modrm bs = some (src, rest) ∧ src.tailLen = rawTail modrm.toNat bs := by
  by_cases hreg : modrm.toNat / 64 = 3
  · exact ⟨_, bs, if_pos ((modField_eq_iff modrm 3#2).mpr hreg), (if_pos hreg).symm⟩
  · obtain ⟨m, rest, hread, hlen⟩ := exists_decodeMem x b hreg h
    exact ⟨.mem m, rest, by simp [decodeSrc2, modField_eq_iff, hreg, hread], hlen⟩

end Sys2Proof

namespace Sys2Proof

open Sys2Proof.Machine

/-! ## The fields of the three kinds, as numbers (R61, R62, R64, R65, R68 to R73) -/

theorem decodeLegacyOps_eq_some {r x b : Bool} {modrm : Byte} {bs rest : List Byte} {o : LegacyOps}
    (h : decodeLegacyOps r x b modrm bs = some (o, rest)) :
    o.dest = regNumber false r modrm ∧ decodeSrc2 false x b modrm bs = some (o.src2, rest) := by
  obtain ⟨src, rfl, hsrc⟩ := map_fst_eq_some_iff.mp h
  exact ⟨rfl, hsrc⟩

theorem exists_decodeLegacyOps (r x b : Bool) {modrm : Byte} {bs : List Byte}
    (h : rawTail modrm.toNat bs ≤ bs.length) :
    ∃ o rest, decodeLegacyOps r x b modrm bs = some (o, rest) ∧ o.src2.tailLen = rawTail modrm.toNat bs := by
  obtain ⟨src, rest, hsrc, hlen⟩ := exists_decodeSrc2 false x b h
  exact ⟨⟨regNumber false r modrm, src⟩, rest, by rw [decodeLegacyOps, hsrc, Option.map_some], hlen⟩

section
variable {modrm : Byte} {bs rest : List Byte} {i : Instr}

/-- Without REX the operands are read with every extension bit 0. -/
theorem decode_legacy_iff :
    decode (0x66#8 :: 0x0F#8 :: 0x38#8 :: 0x40#8 :: modrm :: bs) = .instr i rest ↔
      ∃ o, i = .pmulld o ∧ decodeLegacyOps false false false modrm bs = some (o, rest) := by
  rw [decode_eq_instr_iff (r := .legacy) rfl]
  exact map_fst_eq_some_iff

/-- With a REX byte its bits 2, 1 and 0 extend the fields; bit 3 (W) is not looked at. -/
theorem decode_legacyRex_iff {rex : Byte} (hrex : rex.toNat / 16 = 4) :
    decode (0x66#8 :: rex :: 0x0F#8 :: 0x38#8 :: 0x40#8 :: modrm :: bs) = .instr i rest ↔
      ∃ o, i = .pmulldRex o ∧
        decodeLegacyOps (rex.getLsbD 2) (rex.getLsbD 1) (rex.getLsbD 0) modrm bs = some (o, rest) := by
  rw [decode_eq_instr_iff (r := .legacyRex) ((fits_iff_rowPattern _ _).mpr ⟨_, _, rfl, hrex⟩)]
  exact map_fst_eq_some_iff

end

/-- What the legacy form reads, in numbers. -/
theorem legacyOps_read {i : Instr} {o : LegacyOps} (hi : IsLegacy i o) {r x b : Bool} {modrm : Byte}
    {bs rest : List Byte} (h : decodeLegacyOps r x b modrm bs = some (o, rest)) :
    o.dest.toNat = 8 * r.toNat + modrm.toNat / 8 % 8 ∧
      (modrm.toNat / 64 = 3 → o.src2 = .reg (BitVec.ofNat 5 (8 * b.toNat + modrm.toNat % 8))) ∧
      (modrm.toNat / 64 ≠ 3 → ∃ m, o.src2 = .mem m ∧
        ∀ s, operandAddr i s m = rawAddr s 1 i.ilen x b modrm.toNat bs) := by
  obtain ⟨hdest, hsrc⟩ := decodeLegacyOps_eq_some h
  refine ⟨?_, fun hmod => ?_, fun hmod => ?_⟩
  · simp [hdest, toNat_regNumber]
  · simpa using decodeSrc2_eq_reg hsrc hmod
  · obtain ⟨m, hm, haddr⟩ := decodeSrc2_eq_mem hsrc hmod
    exact ⟨m, hm, fun s => (hi.operandAddr_eq s m).trans (haddr s 1 i.ilen)⟩

/-- Settles O6: the fields without REX are those with every bit of it 0. -/
theorem legacyFieldsReadRight : Obligations.LegacyFieldsReadRight := by
  intro rex modrm bs rest i
  refine ⟨fun h => ?_, fun hlen => ?_, fun hrex hlen => ?_, fun hrex h => ?_⟩
  · obtain ⟨o, rfl, hops⟩ := decode_legacy_iff.mp h
    exact ⟨o, rfl, by simpa using legacyOps_read (.inl rfl) hops⟩
  · obtain ⟨o, rest', hops, htail⟩ := exists_decodeLegacyOps false false false hlen
    exact ⟨.pmulld o, rest', decode_legacy_iff.mpr ⟨o, rfl, hops⟩, congrArg (5 + ·) htail⟩
  · obtain ⟨o, rest', hops, htail⟩ := exists_decodeLegacyOps (rex.getLsbD 2) (rex.getLsbD 1) (rex.getLsbD 0) hlen
    exact ⟨.pmulldRex o, rest', (decode_legacyRex_iff hrex).mpr ⟨o, rfl, hops⟩, congrArg (6 + ·) htail⟩
  · obtain ⟨o, rfl, hops⟩ := (decode_legacyRex_iff hrex).mp h
    exact ⟨o, rfl, legacyOps_read (.inr rfl) hops⟩

/-! ### VEX -/

theorem decodeVexOps_eq_some {b1 b2 modrm : Byte} {bs rest : List Byte} {o : VexOps}
    (h : decodeVexOps b1 b2 modrm bs = some (o, rest)) :
    o.dest = regNumber false (!b1.getLsbD 7) modrm ∧
      o.src1 = BitVec.ofBool false ++ ~~~(b2.extractLsb' 3 4) ∧
      decodeSrc2 false (!b1.getLsbD 6) (!b1.getLsbD 5) modrm bs = some (o.src2, rest) := by
  obtain ⟨src, rfl, hsrc⟩ := map_fst_eq_some_iff.mp h
  exact ⟨rfl, rfl, hsrc⟩

theorem exists_decodeVexOps (b1 b2 : Byte) {modrm : Byte} {bs : List Byte}
    (h : rawTail modrm.toNat bs ≤ bs.length) :
    ∃ o rest, decodeVexOps b1 b2 modrm bs = some (o, rest) ∧ o.src2.tailLen = rawTail modrm.toNat bs := by
  obtain ⟨src, rest, hsrc, hlen⟩ := exists_decodeSrc2 false (!b1.getLsbD 6) (!b1.getLsbD 5) h
  exact ⟨_, rest, by rw [decodeVexOps, hsrc, Option.map_some], hlen⟩

/-- The VEX instruction of an L bit (R64). -/
def vexInstr (l : Bool) (o : VexOps) : Instr := if l then .vpmulldVex256 o else .vpmulldVex128 o

theorem isVex_vexInstr (l : Bool) (o : VexOps) : IsVex (vexInstr l o) o := by
  cases l with
  | false => exact .inl rfl
  | true => exact .inr rfl

theorem ilen_of_isVex {i : Instr} {o : VexOps} (h : IsVex i o) : i.ilen = 5 + o.src2.tailLen := by
  rcases h with rfl | rfl <;> rfl

theorem decodeVexRow_eq_some_iff {mk : VexOps → Instr} {b1 b2 modrm : Byte} {bs rest : List Byte} {i : Instr} :
    decodeVexRow mk (0xC4#8 :: b1 :: b2 :: 0x40#8 :: modrm :: bs) = some (i, rest) ↔
      ∃ o, i = mk o ∧ decodeVexOps b1 b2 modrm bs = some (o, rest) :=
  map_fst_eq_some_iff

theorem getLsbD_two_eq_decide (b : Byte) : b.getLsbD 2 = decide (b.toNat / 4 % 2 = 1) := getLsbD_eq_decide b 2

/-- The row of an L bit. -/
def vexRow (l : Bool) : Row := if l then .vex256 else .vex128

theorem decodeRow_vexRow (l : Bool) : decodeRow (vexRow l) = decodeVexRow (vexInstr l) := by
  cases l with
  | false => rfl
  | true => rfl

theorem fits_vexRow_iff {l : Bool} {b1 b2 : Byte} {bs : List Byte} :
    (vexRow l).fits (0xC4#8 :: b1 :: b2 :: 0x40#8 :: bs) = true ↔
      b1.toNat % 32 = 2 ∧ b2.toNat % 4 = 1 ∧ b2.getLsbD 2 = l := by
  have hl : b2.getLsbD 2 = l ↔ b2.toNat / 4 % 2 = l.toNat := by
    rw [getLsbD_two_eq_decide]
    cases l with
    | false => rw [decide_eq_false_iff_not, Bool.toNat_false]; omega
    | true => rw [decide_eq_true_iff, Bool.toNat_true]
  have hpattern : RowPattern (vexRow l) = RowPattern.VexPattern l.toNat := by
    cases l <;> rfl
  rw [fits_iff_rowPattern, hl, hpattern]
  constructor
  · rintro ⟨_, _, _, heq, h⟩
    simp only [List.cons.injEq, true_and] at heq
    obtain ⟨rfl, rfl, rfl⟩ := heq
    exact h
  · exact fun h => ⟨b1, b2, bs, rfl, h⟩

theorem eq_vexRow_of_kind {r : Row} (h : r.kind = .vex) : ∃ l, r = vexRow l := by
  cases r with
  | vex128 => exact ⟨false, rfl⟩
  | vex256 => exact ⟨true, rfl⟩
  | legacy | legacyRex | evexD128 | evexD256 | evexD512 | evexQ128 | evexQ256 | evexQ512 => cases h

/-- The first byte says the kind of the row that fits. -/
theorem kind_eq_of_fits {k : Kind} {r : Row} {bs : List Byte} (h : r.fits (kindByte k :: bs) = true) : r.kind = k := by
  have hbyte : kindByte k = kindByte r.kind := Option.some.inj (head_of_fits h)
  have hinj : ∀ k k' : Kind, kindByte k = kindByte k' → k' = k := by
    intro k k'
    cases k <;> cases k' <;> decide
  exact hinj _ _ hbyte

/-- The row that was decoded is of the kind the first byte says. -/
theorem exists_row_of_decode_cons {k : Kind} {bs rest : List Byte} {i : Instr}
    (h : decode (kindByte k :: bs) = .instr i rest) :
    ∃ r : Row, r.kind = k ∧ r.fits (kindByte k :: bs) = true ∧ decodeRow r (kindByte k :: bs) = some (i, rest) := by
  obtain ⟨r, hfits, hread⟩ := exists_fits_of_decode h
  exact ⟨r, kind_eq_of_fits hfits, hfits, hread⟩

/-- A VEX encoding decodes exactly when map and pp are those of R64; L chooses the form, and W is not looked at. -/
theorem decode_vex_iff {b1 b2 modrm : Byte} {bs rest : List Byte} {i : Instr} :
    decode (0xC4#8 :: b1 :: b2 :: 0x40#8 :: modrm :: bs) = .instr i rest ↔
      (b1.toNat % 32 = 2 ∧ b2.toNat % 4 = 1) ∧
        ∃ o, i = vexInstr (b2.getLsbD 2) o ∧ decodeVexOps b1 b2 modrm bs = some (o, rest) := by
  constructor
  · intro h
    obtain ⟨r, hkind, hfits, hread⟩ := exists_row_of_decode_cons (k := .vex) h
    obtain ⟨l, rfl⟩ := eq_vexRow_of_kind hkind
    obtain ⟨hmap, hpp, rfl⟩ := fits_vexRow_iff.mp hfits
    rw [decodeRow_vexRow] at hread
    exact ⟨⟨hmap, hpp⟩, decodeVexRow_eq_some_iff.mp hread⟩
  · rintro ⟨⟨hmap, hpp⟩, hops⟩
    rw [decode_eq_instr_iff (fits_vexRow_iff.mpr ⟨hmap, hpp, rfl⟩), decodeRow_vexRow]
    exact decodeVexRow_eq_some_iff.mpr hops

/-- Settles O7: R, X, B and vvvv are inverted back, and the operand is read as R74 and R75 say. -/
theorem vexFieldsReadRight : Obligations.VexFieldsReadRight := by
  refine ⟨fun b1 b2 modrm bs hmap hpp hlen => ?_, fun b1 b2 modrm bs rest i h => ?_⟩
  · obtain ⟨o, rest, hops, htail⟩ := exists_decodeVexOps b1 b2 hlen
    refine ⟨_, rest, decode_vex_iff.mpr ⟨⟨hmap, hpp⟩, o, rfl, hops⟩, ?_⟩
    rw [ilen_of_isVex (isVex_vexInstr _ o), htail]
  · obtain ⟨-, o, rfl, hops⟩ := decode_vex_iff.mp h
    obtain ⟨hdest, hsrc1, hsrc2⟩ := decodeVexOps_eq_some hops
    refine ⟨o, rfl, ?_, ?_, fun hmod => ?_, fun hmod => ?_⟩
    · simp [hdest, toNat_regNumber]
    · rw [hsrc1, toNat_invertedNumber, Bool.toNat_false, Nat.mul_zero, Nat.zero_add]
    · simpa using decodeSrc2_eq_reg hsrc2 hmod
    · obtain ⟨m, hm, haddr⟩ := decodeSrc2_eq_mem hsrc2 hmod
      exact ⟨m, hm, fun s => ((isVex_vexInstr _ o).operandAddr_eq s m).trans (haddr s 1 _)⟩

/-! ### EVEX -/

theorem decodeEvexOps_eq_some {p0 p1 p2 modrm : Byte} {bs rest : List Byte} {o : EvexOps}
    (h : decodeEvexOps p0 p1 p2 modrm bs = some (o, rest)) :
    o.dest = regNumber (!p0.getLsbD 4) (!p0.getLsbD 7) modrm ∧
      o.src1 = BitVec.ofBool (!p2.getLsbD 3) ++ ~~~(p1.extractLsb' 3 4) ∧
      o.zeroing = p2.getLsbD 7 ∧ o.bcst = p2.getLsbD 4 ∧ o.mask = decodeMask (p2.extractLsb' 0 3) ∧
      decodeSrc2 (!p0.getLsbD 6) (!p0.getLsbD 6) (!p0.getLsbD 5) modrm bs = some (o.src2, rest) := by
  obtain ⟨⟨src, tail⟩, hsrc, heq⟩ := Option.map_eq_some_iff.mp h
  obtain ⟨rfl, rfl⟩ := Prod.mk.inj heq
  exact ⟨rfl, rfl, rfl, rfl, rfl, hsrc⟩

theorem exists_decodeEvexOps (p0 p1 p2 : Byte) {modrm : Byte} {bs : List Byte}
    (h : rawTail modrm.toNat bs ≤ bs.length) :
    ∃ o rest, decodeEvexOps p0 p1 p2 modrm bs = some (o, rest) ∧ o.src2.tailLen = rawTail modrm.toNat bs := by
  obtain ⟨src, rest, hsrc, hlen⟩ := exists_decodeSrc2 (!p0.getLsbD 6) (!p0.getLsbD 6) (!p0.getLsbD 5) h
  exact ⟨_, rest, by rw [decodeEvexOps, hsrc, Option.map_some], hlen⟩

/-- The EVEX instruction of a W bit and an L'L field (R68); 3 is no L'L of a row. -/
def evexInstr (w : Bool) (ll : Nat) (o : EvexOps) : Instr :=
  match w, ll with
  | false, 0 => .vpmulldEvex128 o
  | false, 1 => .vpmulldEvex256 o
  | false, _ => .vpmulldEvex512 o
  | true, 0 => .vpmullqEvex128 o
  | true, 1 => .vpmullqEvex256 o
  | true, _ => .vpmullqEvex512 o

/-- The row of a W bit and an L'L field. -/
def evexRow (w : Bool) (ll : Nat) : Row :=
  match w, ll with
  | false, 0 => .evexD128
  | false, 1 => .evexD256
  | false, _ => .evexD512
  | true, 0 => .evexQ128
  | true, 1 => .evexQ256
  | true, _ => .evexQ512

theorem isEvex_evexInstr (w : Bool) (ll : Nat) (o : EvexOps) : IsEvex (evexInstr w ll o) o := by
  unfold evexInstr
  split <;> simp [IsEvex]

theorem ilen_of_isEvex {i : Instr} {o : EvexOps} (h : IsEvex i o) : i.ilen = 6 + o.src2.tailLen := by
  rcases h with rfl | rfl | rfl | rfl | rfl | rfl <;> rfl

theorem decodeRow_evexRow (w : Bool) (ll : Nat) : decodeRow (evexRow w ll) = decodeEvexRow (evexInstr w ll) := by
  match w, ll with
  | false, 0 | false, 1 | false, _ + 2 | true, 0 | true, 1 | true, _ + 2 => rfl

theorem kind_evexRow (w : Bool) (ll : Nat) : (evexRow w ll).kind = .evex := by
  match w, ll with
  | false, 0 | false, 1 | false, _ + 2 | true, 0 | true, 1 | true, _ + 2 => rfl

theorem eq_evexRow_of_kind {r : Row} (h : r.kind = .evex) : ∃ w ll, ll < 3 ∧ r = evexRow w ll := by
  cases r with
  | evexD128 => exact ⟨false, 0, by decide, rfl⟩
  | evexD256 => exact ⟨false, 1, by decide, rfl⟩
  | evexD512 => exact ⟨false, 2, by decide, rfl⟩
  | evexQ128 => exact ⟨true, 0, by decide, rfl⟩
  | evexQ256 => exact ⟨true, 1, by decide, rfl⟩
  | evexQ512 => exact ⟨true, 2, by decide, rfl⟩
  | legacy | legacyRex | vex128 | vex256 => cases h

theorem rowPattern_evexRow (w : Bool) {ll : Nat} (hll : ll < 3) :
    RowPattern (evexRow w ll) = RowPattern.EvexPattern w.toNat ll := by
  match w, ll, hll with
  | false, 0, _ | false, 1, _ | false, 2, _ | true, 0, _ | true, 1, _ | true, 2, _ => rfl

theorem fits_evexRow_iff {w : Bool} {ll : Nat} (hll : ll < 3) {p0 p1 p2 : Byte} {bs : List Byte} :
    (evexRow w ll).fits (0x62#8 :: p0 :: p1 :: p2 :: 0x40#8 :: bs) = true ↔
      p0.toNat % 16 = 2 ∧ p1.toNat % 8 = 5 ∧ p1.getLsbD 7 = w ∧ p2.toNat / 32 % 4 = ll := by
  have hw : p1.getLsbD 7 = w ↔ p1.toNat / 128 = w.toNat := by
    have hlt := p1.isLt
    rw [getLsbD_eq_decide]
    cases w with
    | false => rw [decide_eq_false_iff_not, Bool.toNat_false]; omega
    | true => rw [decide_eq_true_iff, Bool.toNat_true]; omega
  rw [fits_iff_rowPattern, hw, rowPattern_evexRow w hll]
  constructor
  · rintro ⟨_, _, _, _, heq, h⟩
    simp only [List.cons.injEq, true_and] at heq
    obtain ⟨rfl, rfl, rfl, rfl⟩ := heq
    exact h
  · exact fun h => ⟨p0, p1, p2, bs, rfl, h⟩

theorem decodeEvexRow_eq_some_iff {mk : EvexOps → Instr} {p0 p1 p2 modrm : Byte} {bs rest : List Byte} {i : Instr} :
    decodeEvexRow mk (0x62#8 :: p0 :: p1 :: p2 :: 0x40#8 :: modrm :: bs) = some (i, rest) ↔
      ∃ o, i = mk o ∧ decodeEvexOps p0 p1 p2 modrm bs = some (o, rest) :=
  map_fst_eq_some_iff

/-- An EVEX encoding decodes exactly when the bits R68 fixes are as it says and L'L is not 11; W and L'L choose the
form. -/
theorem decode_evex_iff {p0 p1 p2 modrm : Byte} {bs rest : List Byte} {i : Instr} :
    decode (0x62#8 :: p0 :: p1 :: p2 :: 0x40#8 :: modrm :: bs) = .instr i rest ↔
      (p0.toNat % 16 = 2 ∧ p1.toNat % 8 = 5 ∧ p2.toNat / 32 % 4 < 3) ∧
        ∃ o, i = evexInstr (p1.getLsbD 7) (p2.toNat / 32 % 4) o ∧
          decodeEvexOps p0 p1 p2 modrm bs = some (o, rest) := by
  constructor
  · intro h
    obtain ⟨r, hkind, hfits, hread⟩ := exists_row_of_decode_cons (k := .evex) h
    obtain ⟨w, ll, hll, rfl⟩ := eq_evexRow_of_kind hkind
    obtain ⟨h0, h1, rfl, rfl⟩ := (fits_evexRow_iff hll).mp hfits
    rw [decodeRow_evexRow] at hread
    exact ⟨⟨h0, h1, hll⟩, decodeEvexRow_eq_some_iff.mp hread⟩
  · rintro ⟨⟨h0, h1, hll⟩, hops⟩
    rw [decode_eq_instr_iff ((fits_evexRow_iff hll).mpr ⟨h0, h1, rfl, rfl⟩), decodeRow_evexRow]
    exact decodeEvexRow_eq_some_iff.mpr hops

theorem decodeMask_eq_ite (p2 : Byte) :
    decodeMask (p2.extractLsb' 0 3) =
      if p2.toNat % 8 = 0 then none else some (BitVec.ofNat 3 (p2.toNat % 8)) := by
  simp only [decodeMask, rmField_eq_iff, ← toNat_rmField, BitVec.ofNat_toNat, BitVec.setWidth_eq]
  rfl

/-- Settles O8: as for VEX, with the fields of P0, P1 and P2, and the displacement scaled by the operand's size. -/
theorem evexFieldsReadRight : Obligations.EvexFieldsReadRight := by
  refine ⟨fun p0 p1 p2 modrm bs h0 h1 hll hlen => ?_, fun p0 p1 p2 modrm bs rest i h => ?_⟩
  · obtain ⟨o, rest, hops, htail⟩ := exists_decodeEvexOps p0 p1 p2 hlen
    refine ⟨_, rest, decode_evex_iff.mpr ⟨⟨h0, h1, by omega⟩, o, rfl, hops⟩, ?_⟩
    rw [ilen_of_isEvex (isEvex_evexInstr _ _ o), htail]
  · obtain ⟨-, o, rfl, hops⟩ := decode_evex_iff.mp h
    obtain ⟨hdest, hsrc1, hz, hbcst, hmask, hsrc2⟩ := decodeEvexOps_eq_some hops
    refine ⟨o, rfl, ?_, ?_, hz, hbcst, hmask.trans (decodeMask_eq_ite p2), decodeSrc2_eq_reg hsrc2, fun hmod => ?_⟩
    · rw [hdest, toNat_regNumber]
    · rw [hsrc1, toNat_invertedNumber]
    · obtain ⟨m, hm, haddr⟩ := decodeSrc2_eq_mem hsrc2 hmod
      refine ⟨m, hm, fun s => ?_⟩
      have hevex := isEvex_evexInstr (p1.getLsbD 7) (p2.toNat / 32 % 4) o
      rw [hevex.operandAddr_eq, haddr, hevex.operandBytes_eq]

/-! ## VEX.W (R66) -/

/-- Bytes behind C4 that fit no row are refused, without a name of their own. -/
theorem decode_vex_of_no_row {bs : List Byte} (h : matchRow (0xC4#8 :: bs) = none) :
    decode (0xC4#8 :: bs) = .unlisted .other := by
  have hfamily : evexFamily (0xC4#8 :: bs) = false := rfl
  have hprefix : illegalPrefix (0xC4#8 :: bs) = false := rfl
  have hname : classify (0xC4#8 :: bs) = .other := by simp [classify]
  simp [decode, h, hfamily, hprefix, hname]

section
variable (b1 b2 : Byte) (bs : List Byte)

theorem fits_vex_xor_w (r : Row) :
    r.fits (0xC4#8 :: b1 :: (b2 ^^^ 0x80#8) :: bs) = r.fits (0xC4#8 :: b1 :: b2 :: bs) := by
  have hmask : (b2 ^^^ 0x80#8) &&& 0x07 = b2 &&& 0x07 := by
    revert b2
    decide
  cases r with
  | vex128 | vex256 => simp only [Row.fits, Row.mask, Row.pattern, matchBits, hmask]
  | legacy | legacyRex | evexD128 | evexD256 | evexD512 | evexQ128 | evexQ256 | evexQ512 => rfl

theorem decodeVexRow_xor_w (mk : VexOps → Instr) :
    decodeVexRow mk (0xC4#8 :: b1 :: (b2 ^^^ 0x80#8) :: bs) = decodeVexRow mk (0xC4#8 :: b1 :: b2 :: bs) := by
  have hvvvv : (b2 ^^^ 0x80#8).extractLsb' 3 4 = b2.extractLsb' 3 4 := by
    revert b2
    decide
  match bs with
  | _ :: modrm :: bs => simp only [decodeVexRow, decodeVexOps, hvvvv]
  | [] | [_] => rfl

/-- A change of W of VEX byte 2 changes neither the row that fits nor what its decoder reads. -/
theorem decode_vex_xor_w :
    decode (0xC4#8 :: b1 :: (b2 ^^^ 0x80#8) :: bs) = decode (0xC4#8 :: b1 :: b2 :: bs) := by
  have hsame : matchRow (0xC4#8 :: b1 :: (b2 ^^^ 0x80#8) :: bs) = matchRow (0xC4#8 :: b1 :: b2 :: bs) := by
    simp only [matchRow, fits_vex_xor_w]
  cases hrow : matchRow (0xC4#8 :: b1 :: b2 :: bs) with
  | none => rw [decode_vex_of_no_row hrow, decode_vex_of_no_row (hsame.trans hrow)]
  | some r =>
    obtain ⟨l, rfl⟩ := eq_vexRow_of_kind (kind_eq_of_fits (k := .vex) (fits_of_matchRow hrow))
    simp only [decode, hsame, hrow, decodeRow_vexRow, decodeVexRow_xor_w]

end

theorem formEW_vexInstr (l : Bool) (o : VexOps) : formEW (instrForm (vexInstr l o)) = 32 := by
  cases l <;> rfl

theorem getLsbD_seven_vexByte2 : ∀ (vvvv : BitVec 4) (l : Bool), (vexByte2 vvvv l).getLsbD 7 = false := by decide

/-- Settles O9: W is masked out of both VEX rows and read by neither decoder, and behind C4 there is no other row. -/
theorem vexWIsIgnored : Obligations.VexWIsIgnored := by
  refine ⟨fun b1 b2 bs => (decode_vex_xor_w b1 b2 bs).symm, by decide, by decide, fun i hkind => ?_,
    fun bs rest i h => ?_⟩
  · cases i with
    | vpmulldVex128 o | vpmulldVex256 o => exact getLsbD_seven_vexByte2 _ _
    | _ => cases hkind
  · obtain ⟨r, hkind, -, hread⟩ := exists_row_of_decode_cons (k := .vex) h
    obtain ⟨l, rfl⟩ := eq_vexRow_of_kind hkind
    rw [decodeRow_vexRow] at hread
    obtain ⟨o, rfl⟩ := decodeVexRow_eq_mk hread
    exact ⟨(isVex_vexInstr l o).formKind_eq, formEW_vexInstr l o⟩

/-- Settles O10: the words are evaluated. -/
theorem sampleWordsDecodeRight : Obligations.SampleWordsDecodeRight := by
  refine ⟨?_, ?_, ?_, ?_, ?_⟩ <;> decide

end Sys2Proof

namespace Sys2Proof

open Sys2Proof.Machine

/-! ## What the decoder answers where no row matches (R79, R80, R81) -/

section
variable {bs : List Byte}

theorem decode_of_no_row (h : ∀ r : Row, ¬ r.fits bs = true) :
    decode bs = if evexFamily bs || illegalPrefix bs then .invalidOpcode else .unlisted (classify bs) := by
  have hrow : matchRow bs = none := List.find?_eq_none.mpr fun r _ => h r
  simp only [decode, hrow]

theorem decode_of_illegalPrefix (h : illegalPrefix bs = true) : decode bs = .invalidOpcode := by
  have hno : ∀ r : Row, ¬ r.fits bs = true := fun r hfits => by
    have hfalse := illegalPrefix_eq_false_of_fits_append (more := []) (by rwa [List.append_nil])
    rw [h] at hfalse
    cases hfalse
  rw [decode_of_no_row hno, h, Bool.or_true, if_pos rfl]

theorem vexOrEvexPattern_iff :
    vexOrEvexPattern bs = true ↔ (∃ r : Row, r.kind ≠ .legacy ∧ r.fits bs = true) ∨ evexFamily bs = true := by
  rw [vexOrEvexPattern, Bool.or_eq_true]
  refine or_congr ?_ Iff.rfl
  cases h : matchRow bs with
  | none =>
    simp only [Bool.false_eq_true, false_iff, not_exists, not_and]
    exact fun r _ hfits => by rw [matchRow_eq_some_iff.mpr hfits] at h; cases h
  | some r =>
    simp only [bne_iff_ne]
    exact ⟨fun hkind => ⟨r, hkind, fits_of_matchRow h⟩,
      fun ⟨r', hkind, hfits⟩ => row_eq_of_fits hfits (fits_of_matchRow h) ▸ hkind⟩

/-- The two cases of R79. -/
theorem illegalPrefix_cons_iff {b : Byte} :
    illegalPrefix (b :: bs) = true ↔
      (b = 0xF0#8 ∧ ((∃ r : Row, r.fits bs = true) ∨ evexFamily bs = true)) ∨
        ((b = 0x66#8 ∨ b = 0xF2#8 ∨ b = 0xF3#8 ∨ b.toNat / 16 = 4) ∧
          ((∃ r : Row, r.kind ≠ .legacy ∧ r.fits bs = true) ∨ evexFamily bs = true)) := by
  have hrex : b &&& 0xF0#8 = 0x40#8 ↔ b.toNat / 16 = 4 := and_rexMask_eq_iff b
  have hrow : (matchRow bs).isSome = true ↔ ∃ r : Row, r.fits bs = true := by
    simp only [Option.isSome_iff_exists, matchRow_eq_some_iff]
  simp only [illegalPrefix, Bool.or_eq_true, Bool.and_eq_true, beq_iff_eq, vexOrEvexPattern_iff, hrex, hrow, or_assoc]

end

namespace Machine

theorem step_of_invalidOpcode {s : State} (h : decode (fetch s) = .invalidOpcode) : step s = .fault (.ud s.pc) := by
  rw [step, h]
  rfl

theorem step_of_unlisted {s : State} {u : Unlisted} (h : decode (fetch s) = .unlisted u) :
    step s = .refused (.unlistedEncoding u) := by
  rw [step, h]

end Machine

/-! ## Illegal bytes before a pattern (R79) -/

/-- The bytes match a row or the EVEX family. -/
def IsPattern (bs : List Byte) : Prop := (∃ r : Row, r.fits bs = true) ∨ evexFamily bs = true

/-- The bytes R79 names as illegal before a pattern. -/
def PrefixByte (c : Byte) : Prop := c = 0xF0#8 ∨ c = 0x66#8 ∨ c = 0xF2#8 ∨ c = 0xF3#8 ∨ c.toNat / 16 = 4

theorem not_prefixByte_0F : ¬ PrefixByte 0x0F#8 := by
  unfold PrefixByte
  decide

theorem kindByte_ne_0F (k : Kind) : kindByte k ≠ 0x0F#8 := by
  cases k <;> decide

theorem kindByte_div_ne (k : Kind) : (kindByte k).toNat / 16 ≠ 4 := by
  cases k <;> decide

/-- Of the first bytes of the three kinds only 66 is a `PrefixByte`. -/
theorem eq_legacy_of_prefixByte {k : Kind} (h : PrefixByte (kindByte k)) : k = .legacy := by
  cases k with
  | legacy => rfl
  | vex | evex => revert h; unfold PrefixByte; decide

/-- A pattern of a row or of the EVEX family begins with the first byte of some kind. -/
theorem exists_kindByte_cons {cs : List Byte} (h : IsPattern cs) : ∃ k tail, cs = kindByte k :: tail := by
  rcases h with ⟨r, hfits⟩ | hfamily
  · exact ⟨r.kind, _, List.eq_cons_of_mem_head? (head_of_fits hfits)⟩
  · obtain ⟨p0, p1, p2, rest, rfl, -⟩ := (evexFamily_iff_inFamily cs).mp hfamily
    exact ⟨.evex, _, rfl⟩

/-- Behind `PrefixByte`s a pattern begins with one of them or with the first byte of a kind. -/
theorem prefixByte_or_kindByte_of_append {pre tail rest : List Byte} {k : Kind} {d : Byte}
    (hpre : ∀ c ∈ pre, PrefixByte c) (h : pre ++ kindByte k :: tail = d :: rest) :
    (d = kindByte k ∧ rest = tail) ∨
      (PrefixByte d ∧ ∃ pre', (∀ c ∈ pre', PrefixByte c) ∧ pre' ++ kindByte k :: tail = rest) := by
  cases pre with
  | nil =>
    obtain ⟨rfl, rfl⟩ := List.cons.inj h
    exact .inl ⟨rfl, rfl⟩
  | cons c pre =>
    obtain ⟨rfl, rfl⟩ := List.cons.inj h
    exact .inr ⟨hpre c List.mem_cons_self, pre, fun c' hc' => hpre c' (List.mem_cons_of_mem c hc'), rfl⟩

/-- `PrefixByte`s before a pattern are never followed by 0F. -/
theorem ne_0F_of_append {pre tail rest : List Byte} {k : Kind} {d : Byte} (hpre : ∀ c ∈ pre, PrefixByte c)
    (h : pre ++ kindByte k :: tail = d :: rest) : d ≠ 0x0F#8 := by
  rintro rfl
  rcases prefixByte_or_kindByte_of_append hpre h with ⟨hd, -⟩ | ⟨hd, -⟩
  · exact kindByte_ne_0F k hd.symm
  · exact not_prefixByte_0F hd

section
variable {c : Byte} {pre cs : List Byte} (hc : PrefixByte c) (hpre : ∀ d ∈ pre, PrefixByte d)
  (hcs : IsPattern cs)
include hc

/-- Bytes that begin with a `PrefixByte` are not of the EVEX family. -/
theorem evexFamily_eq_false_of_prefixByte : evexFamily (c :: cs) = false := by
  by_contra h
  obtain ⟨p0, p1, p2, rest, heq, -⟩ := (evexFamily_iff_inFamily _).mp (Bool.not_eq_false _ ▸ h)
  obtain ⟨rfl, -⟩ := List.cons.inj heq
  cases eq_legacy_of_prefixByte (k := .evex) hc

include hpre hcs

/-- A `PrefixByte`, perhaps with more behind it, and then a pattern fit no row: only the legacy rows begin with one of
these bytes, and they go on with 0F, at once or after a REX byte. -/
theorem not_fits_of_prefix (r : Row) : ¬ r.fits (c :: (pre ++ cs)) = true := by
  intro hfits
  obtain ⟨k, tail, rfl⟩ := exists_kindByte_cons hcs
  obtain rfl : c = kindByte r.kind := Option.some.inj (head_of_fits hfits)
  have hlegacy := eq_legacy_of_prefixByte hc
  rw [fits_iff_rowPattern] at hfits
  cases r with
  | legacy =>
    obtain ⟨rest, heq⟩ := hfits
    exact ne_0F_of_append hpre (List.cons.inj heq).2 rfl
  | legacyRex =>
    obtain ⟨rex, rest, heq, hrex⟩ := hfits
    rcases prefixByte_or_kindByte_of_append hpre (List.cons.inj heq).2 with ⟨rfl, -⟩ | ⟨-, pre', hpre', htail⟩
    · exact kindByte_div_ne k hrex
    · exact ne_0F_of_append hpre' htail rfl
  | vex128 | vex256 | evexD128 | evexD256 | evexD512 | evexQ128 | evexQ256 | evexQ512 => cases hlegacy

/-- A `PrefixByte`, perhaps with more behind it, and then a pattern are no pattern themselves. -/
theorem not_isPattern_of_prefix : ¬ IsPattern (c :: (pre ++ cs)) := by
  rw [IsPattern, evexFamily_eq_false_of_prefixByte hc]
  rintro (⟨r, hfits⟩ | h)
  · exact not_fits_of_prefix hc hpre hcs r hfits
  · cases h

end

theorem decode_unlisted {bs : List Byte} (hno : ¬ IsPattern bs) (hprefix : ¬ illegalPrefix bs = true) :
    decode bs = .unlisted (classify bs) := by
  obtain ⟨hrow, hfamily⟩ := not_or.mp hno
  rw [decode_of_no_row (not_exists.mp hrow), Bool.eq_false_of_not_eq_true hfamily,
    Bool.eq_false_of_not_eq_true hprefix]
  rfl

/-- Two or more `PrefixByte`s before a pattern: what stands behind the first of them is no pattern. -/
theorem decode_of_two_prefixes {c d : Byte} {pre cs : List Byte} (hc : PrefixByte c) (hd : PrefixByte d)
    (hpre : ∀ e ∈ pre, PrefixByte e) (hcs : IsPattern cs) : ∃ u, decode (c :: d :: (pre ++ cs)) = .unlisted u := by
  have hbehind := not_isPattern_of_prefix hd hpre hcs
  have hno := not_isPattern_of_prefix (pre := d :: pre) hc (List.forall_mem_cons.mpr ⟨hd, hpre⟩) hcs
  refine ⟨_, decode_unlisted hno fun h => ?_⟩
  rcases illegalPrefix_cons_iff.mp h with ⟨-, hpattern⟩ | ⟨-, ⟨r, -, hfits⟩ | hfamily⟩
  · exact hbehind hpattern
  · exact hbehind (.inl ⟨r, hfits⟩)
  · exact hbehind (.inr hfamily)

/-- F2 or F3 before the legacy form: R79 names them before a VEX or EVEX pattern alone. -/
theorem decode_of_repeat_legacy {b : Byte} {bs : List Byte} {r : Row} (hb : b = 0xF2#8 ∨ b = 0xF3#8)
    (hkind : r.kind = .legacy) (hfits : r.fits bs = true) : ∃ u, decode (b :: bs) = .unlisted u := by
  have hprefix : PrefixByte b := .inr (.inr (or_assoc.mp (.inl hb)))
  refine ⟨_, decode_unlisted (not_isPattern_of_prefix (pre := []) hprefix (by simp) (.inl ⟨r, hfits⟩)) fun h => ?_⟩
  rcases illegalPrefix_cons_iff.mp h with ⟨hF0, -⟩ | ⟨-, ⟨r', hkind', hfits'⟩ | hfamily⟩
  · rcases hb with rfl | rfl <;> cases hF0
  · exact hkind' (row_eq_of_fits hfits' hfits ▸ hkind)
  · have hhead := head_of_fits hfits
    obtain ⟨p0, p1, p2, rest, rfl, -⟩ := (evexFamily_iff_inFamily bs).mp hfamily
    rw [hkind] at hhead
    cases hhead

/-- Settles O12: R79's two cases raise #UD, and what is neither of them is refused. -/
theorem illegalPrefixRaisesUd : Obligations.IllegalPrefixRaisesUd := by
  intro s b bs hfetch
  refine ⟨fun hb hpattern => ?_, fun hb hpattern => ?_, fun hb ⟨r, hkind, hfits⟩ => ?_,
    fun pre cs heq hlen hpre hpattern => ?_⟩
  · apply step_of_invalidOpcode
    rw [hfetch]
    exact decode_of_illegalPrefix (illegalPrefix_cons_iff.mpr (.inl ⟨hb, hpattern⟩))
  · apply step_of_invalidOpcode
    rw [hfetch]
    exact decode_of_illegalPrefix (illegalPrefix_cons_iff.mpr (.inr ⟨hb, hpattern⟩))
  · obtain ⟨u, hu⟩ := decode_of_repeat_legacy hb hkind hfits
    exact ⟨_, step_of_unlisted (hfetch ▸ hu)⟩
  · match pre, hlen with
    | c :: d :: pre, _ =>
      obtain ⟨hc, htail⟩ := List.forall_mem_cons.mp hpre
      obtain ⟨hd, hpre'⟩ := List.forall_mem_cons.mp htail
      obtain ⟨u, hu⟩ := decode_of_two_prefixes hc hd hpre' hpattern
      exact ⟨_, step_of_unlisted (by rw [hfetch, heq]; exact hu)⟩

/-! ## The EVEX family (R80) -/

/-- Where the bits R68 fixes are as it says and L'L is not 11, an EVEX row fits. -/
theorem exists_evexRow_fits {p0 p1 p2 : Byte} (bs : List Byte) (h0 : p0.toNat % 16 = 2) (h1 : p1.toNat % 8 = 5)
    (hll : p2.toNat / 32 % 4 < 3) :
    ∃ r : Row, r.kind = .evex ∧ r.fits (0x62#8 :: p0 :: p1 :: p2 :: 0x40#8 :: bs) = true :=
  ⟨evexRow (p1.getLsbD 7) (p2.toNat / 32 % 4), kind_evexRow _ _, (fits_evexRow_iff hll).mpr ⟨h0, h1, rfl, rfl⟩⟩

/-- Settles O13: a reserved value leaves no row that fits, and every other value is one of a row. -/
theorem evexReservedFieldRaisesUd : Obligations.EvexReservedFieldRaisesUd := by
  intro s p0 p1 p2 bs hfetch h0 h1
  refine ⟨fun hreserved => step_of_invalidOpcode ?_, fun h0' h1' hll => ?_⟩
  · have hfamily : evexFamily (0x62#8 :: p0 :: p1 :: p2 :: 0x40#8 :: bs) = true :=
      (evexFamily_iff_inFamily _).mpr ⟨p0, p1, p2, bs, rfl, h0, h1⟩
    rw [hfetch, decode_of_no_row fun r hfits => ?_, hfamily, Bool.true_or, if_pos rfl]
    obtain ⟨w, ll, hll, rfl⟩ := eq_evexRow_of_kind (kind_eq_of_fits (k := .evex) hfits)
    obtain ⟨hp0, hp1, -, hp2⟩ := (fits_evexRow_iff hll).mp hfits
    omega
  · rw [hfetch]
    exact exists_evexRow_fits bs (by omega) (by omega) (by omega)

/-! ## Bytes the spec gives no meaning (R81) -/

theorem kindByte_mem (k : Kind) : kindByte k ∈ [0x66#8, 0xC4#8, 0x62#8] := by
  cases k <;> decide

/-- Bytes whose first byte begins no pattern and is no `PrefixByte` are refused under their name. -/
theorem decode_unlisted_of_head {b : Byte} {bs : List Byte} (hkind : b ∉ [0x66#8, 0xC4#8, 0x62#8])
    (hprefix : ¬ PrefixByte b) : decode (b :: bs) = .unlisted (classify (b :: bs)) := by
  refine decode_unlisted (fun h => ?_) fun h => ?_
  · obtain ⟨k, tail, heq⟩ := exists_kindByte_cons h
    exact hkind ((List.cons.inj heq).1 ▸ kindByte_mem k)
  · rcases illegalPrefix_cons_iff.mp h with ⟨hb, -⟩ | ⟨hb, -⟩
    · exact hprefix (.inl hb)
    · exact hprefix (.inr hb)

/-- The first bytes that have a name of their own: segment overrides, 67, C5 and 0F. -/
def namedBytes : List Byte := [0x2E#8, 0x36#8, 0x3E#8, 0x26#8, 0x64#8, 0x65#8, 0x67#8, 0xC5#8, 0x0F#8]

theorem namedBytes_begin_no_pattern : ∀ b ∈ namedBytes, b ∉ [0x66#8, 0xC4#8, 0x62#8] ∧ ¬ PrefixByte b := by
  unfold PrefixByte
  decide

theorem step_of_namedByte {s : Machine.State} {b : Byte} {bs : List Byte} (hfetch : fetch s = b :: bs)
    (hb : b ∈ namedBytes) : step s = .refused (.unlistedEncoding (classify (b :: bs))) := by
  obtain ⟨hkind, hprefix⟩ := namedBytes_begin_no_pattern b hb
  exact step_of_unlisted (by rw [hfetch, decode_unlisted_of_head hkind hprefix])

/-- Settles O14: nothing R78, R79 or R80 names is there; and the name goes by the first bytes. -/
theorem unlistedBytesAreRefused : Obligations.UnlistedBytesAreRefused := by
  intro s
  refine ⟨fun hrow hfamily hbehind => ⟨_, step_of_unlisted (decode_unlisted ?_ ?_)⟩, fun b bs hfetch =>
    ⟨fun hb => ?_, fun hb => ?_, fun hb => ?_, fun htake hb => ?_⟩⟩
  · simp only [IsPattern, fits_iff_rowPattern, evexFamily_iff_inFamily, not_or, not_exists]
    exact ⟨hrow, hfamily⟩
  · cases hfetch : fetch s with
    | nil => exact Bool.false_ne_true
    | cons b bs =>
      obtain ⟨hF0, hother⟩ := hbehind b bs hfetch
      simp only [illegalPrefix_cons_iff, fits_iff_rowPattern, evexFamily_iff_inFamily]
      rintro (⟨hb, ⟨r, hr⟩ | hin⟩ | ⟨hb, ⟨r, hkind, hr⟩ | hin⟩)
      · exact (hF0 hb).1 r hr
      · exact (hF0 hb).2 hin
      · exact (hother hb).1 r hkind hr
      · exact (hother hb).2 hin
  · have hname : classify (b :: bs) = .segmentOverride := if_pos (by simpa using hb)
    rw [step_of_namedByte hfetch (List.mem_append_left [0x67#8, 0xC5#8, 0x0F#8] hb), hname]
  · subst hb
    rw [step_of_namedByte hfetch (by decide)]
    rfl
  · subst hb
    rw [step_of_namedByte hfetch (by decide)]
    rfl
  · subst hb
    have hname : classify (0x0F#8 :: bs) = .missing66 := by simp [classify, htake]
    rw [step_of_namedByte hfetch (by decide), hname]

end Sys2Proof

namespace Sys2Proof.Machine

/-! ## Reserved combinations (R71, R73, R117, R120) -/

/-- Settles O35: the checks come first, and a reserved combination does not pass them. -/
theorem reservedCombinationRaisesUd : Obligations.ReservedCombinationRaisesUd := by
  intro i s h
  have hreserved : instrReserved i = true :=
    Bool.eq_true_of_not_eq_false (mt (instrReserved_eq_false_iff i).mp h)
  rw [exec_eq_outcomeOf, hreserved, checkUdNm_reserved]
  rfl

/-! ## What a completed instruction took as its operand -/

theorem exec_next_operandRead {i : Instr} {s t : State} (h : exec i s = .next t) :
    ∃ b, operandRead i s = .ok b ∧ t = instrResult i s b := by
  rw [exec_eq_outcomeOf] at h
  unfold outcomeOf at h
  split at h
  · exact absurd h (takeException_ne_next _ _ _)
  split at h
  · exact absurd h (stopWith_ne_next _ _ _)
  · next b hb => exact ⟨b, hb, (Host.Outcome.next.inj h).symm⟩

/-- A read that succeeds gives the value of the operand's bytes. -/
theorem memRead_eq_ok {s : State} {seg : Segment} {ea : Word} {n : Nat} {offs : List Nat} {b : Vec}
    (h : memRead s seg ea n offs = .ok b) : b = memValue s ea n := by
  unfold memRead at h
  split at h
  · cases h
  · exact (Except.ok.inj h).symm

theorem operandRead_mem_eq_ok {i : Instr} {s : State} {m : MemOp} {b : Vec} (hsrc : srcOf i = .mem m)
    (h : operandRead i s = .ok b) : b = memValue s (operandAddr i s m) (operandBytes i) := by
  by_cases halign : Aligned i s m
  · rw [operandRead_mem hsrc halign] at h
    exact memRead_eq_ok h
  · rw [operandRead_misaligned hsrc halign] at h
    cases h

/-- Two instructions with the same source of the same size take the same operand, if both can have it. -/
theorem operandRead_eq_of_sameSource {i i' : Instr} {s : State} {b b' : Vec} (hsame : SameSource i i' s)
    (hbytes : operandBytes i = operandBytes i') (h : operandRead i s = .ok b) (h' : operandRead i' s = .ok b') :
    b' = b := by
  unfold SameSource at hsame
  split at hsame
  · next n n' hn hn' =>
    subst hsame
    rw [operandRead_reg hn] at h
    rw [operandRead_reg hn'] at h'
    exact Except.ok.inj (h'.symm.trans h)
  · next m m' hm hm' =>
    rw [operandRead_mem_eq_ok hm h, operandRead_mem_eq_ok hm' h', hsame, hbytes]
  · exact hsame.elim
  · exact hsame.elim

/-! ## The unmasked EVEX forms and the VEX forms (R78, R101) -/

/-- Without a mask and without broadcast every element is a product. -/
theorem evexLanes_unmasked (f : Form) (s : State) (d s1 : VReg) (src : Src2) (b : Vec) :
    evexLanes f s ⟨d, s1, src, false, none, false⟩ b = mulLanes (formEW f) (formKL f) (s.readV s1) b := rfl

/-- Two instructions that complete with the same source, and from any operand leave the same in a register, leave the
same there. -/
theorem readV_eq_of_sameSource {i i' : Instr} {s t t' : State} {d : VReg} (hsame : SameSource i i' s)
    (hbytes : operandBytes i = operandBytes i')
    (hresult : ∀ b, (instrResult i' s b).readV d = (instrResult i s b).readV d) (h : exec i s = .next t)
    (h' : exec i' s = .next t') : t'.readV d = t.readV d := by
  obtain ⟨b, hread, rfl⟩ := exec_next_operandRead h
  obtain ⟨b', hread', rfl⟩ := exec_next_operandRead h'
  rw [operandRead_eq_of_sameSource hsame hbytes hread hread', hresult]

/-- Settles O28: the same operand, and the same element products written in the same way. -/
theorem unmaskedEvexEqualsVex : Obligations.UnmaskedEvexEqualsVex := by
  intro d s1 a b s t t'
  refine ⟨fun hsame => readV_eq_of_sameSource hsame rfl fun v => ?_, fun hsame =>
    readV_eq_of_sameSource hsame rfl fun v => ?_⟩
  · simp only [instrResult, State.advance_readV, evexLanes_unmasked]
    rfl
  · simp only [instrResult, State.advance_readV, evexLanes_unmasked]
    rfl

/-! ## The intrinsics (R86, R88, R93, R104, R110) -/

/-- An element of the low part of a vector is an element of the vector. -/
theorem elem_setWidth {w v ew j : Nat} (x : BitVec v) (h : ew * j + ew ≤ w) :
    elem ew (x.setWidth w) j = elem ew x j := by
  apply BitVec.eq_of_getLsbD_eq
  intro i hi
  have hlt : ew * j + i < w := by omega
  rw [getLsbD_elem, getLsbD_elem, BitVec.getLsbD_setWidth, decide_eq_true hlt, Bool.true_and]

/-- A vector is built from its elements. -/
theorem eq_lanes_of_elem {w ew kl : Nat} {x : BitVec w} {f : Nat → BitVec ew} (hew : 0 < ew) (hfill : ew * kl = w)
    (h : ∀ j, j < kl → elem ew x j = f j) : x = lanes w ew kl f := by
  apply BitVec.eq_of_getLsbD_eq
  intro i hi
  have hj : i / ew < kl := Nat.div_lt_of_lt_mul (hfill.symm ▸ hi)
  have hbit : i % ew < ew := Nat.mod_lt i hew
  rw [getLsbD_lanes w ew hew, ← h _ hj, getLsbD_elem, Nat.div_add_mod, hfill]
  simp [hi, hbit]

/-- An element of one of VL / EW elements lies in the low VL bits. -/
theorem elem_end_le {vl ew j : Nat} (h : j < vl / ew) : ew * j + ew ≤ vl :=
  calc ew * j + ew = ew * (j + 1) := (Nat.mul_succ ew j).symm
    _ ≤ ew * (vl / ew) := Nat.mul_le_mul_left ew h
    _ ≤ vl := Nat.mul_div_le vl ew

section
variable {vl ew : Nat} (hew : 0 < ew) (hfill : ew * (vl / ew) = vl) {x a b old : Vec}
include hew hfill

theorem setWidth_eq_intrinsicMullo
    (h : ∀ j, j < vl / ew → elem ew x j = mullo (elem ew a j) (elem ew b j)) :
    x.setWidth vl = intrinsicMullo vl ew (a.setWidth vl) (b.setWidth vl) := by
  refine eq_lanes_of_elem hew hfill fun j hj => ?_
  have hend := elem_end_le hj
  rw [elem_setWidth x hend, elem_setWidth a hend, elem_setWidth b hend, h j hj]

theorem setWidth_eq_intrinsicMask {m : Nat} {k : Word} (hm : vl / ew ≤ m)
    (h : ∀ j, j < vl / ew → elem ew x j =
      if k.getLsbD j = true then mullo (elem ew a j) (elem ew b j) else elem ew old j) :
    x.setWidth vl = intrinsicMask vl ew (old.setWidth vl) (k.setWidth m) (a.setWidth vl) (b.setWidth vl) := by
  refine eq_lanes_of_elem hew hfill fun j hj => ?_
  have hend := elem_end_le hj
  have hjm : j < m := hj.trans_le hm
  rw [elem_setWidth x hend, elem_setWidth a hend, elem_setWidth b hend, elem_setWidth old hend, h j hj,
    BitVec.getLsbD_setWidth, decide_eq_true hjm, Bool.true_and]

theorem setWidth_eq_intrinsicMaskz {m : Nat} {k : Word} (hm : vl / ew ≤ m)
    (h : ∀ j, j < vl / ew → elem ew x j =
      if k.getLsbD j = true then mullo (elem ew a j) (elem ew b j) else 0#ew) :
    x.setWidth vl = intrinsicMaskz vl ew (k.setWidth m) (a.setWidth vl) (b.setWidth vl) := by
  refine eq_lanes_of_elem hew hfill fun j hj => ?_
  have hend := elem_end_le hj
  have hjm : j < m := hj.trans_le hm
  rw [elem_setWidth x hend, elem_setWidth a hend, elem_setWidth b hend, h j hj,
    BitVec.getLsbD_setWidth, decide_eq_true hjm, Bool.true_and]

end

theorem intrinsicMullo_comm (w ew : Nat) (a b : BitVec w) : intrinsicMullo w ew a b = intrinsicMullo w ew b a :=
  lanes_congr fun _ _ => mullo_comm _ _

/-- What an unmasked intrinsic of `vl` bits computes is in the destination, in either order of its arguments. -/
theorem setWidth_eq_intrinsicMullo_both {vl : Nat} (hfill : 32 * (vl / 32) = vl) {x a b : Vec}
    (h : ∀ j, j < vl / 32 → elem 32 x j = mullo (elem 32 a j) (elem 32 b j)) :
    x.setWidth vl = intrinsicMullo vl 32 (a.setWidth vl) (b.setWidth vl) ∧
      x.setWidth vl = intrinsicMullo vl 32 (b.setWidth vl) (a.setWidth vl) := by
  have heq := setWidth_eq_intrinsicMullo (by decide) hfill h
  exact ⟨heq, heq.trans (intrinsicMullo_comm _ _ _ _)⟩

/-- Settles O31, from the results of the three instructions. -/
theorem unmaskedDwordIntrinsicsAgree : Obligations.UnmaskedDwordIntrinsicsAgree := by
  intro d s1 n s
  refine ⟨fun hr => ?_, fun hr => ?_, fun hr => ?_⟩
  · obtain ⟨t, hexec, helem, -⟩ := pmulldResult _ ⟨d, .reg n⟩ s _ (.inl rfl) hr ((sourceIs_reg rfl).mpr rfl)
    exact ⟨t, hexec, setWidth_eq_intrinsicMullo_both (by decide) helem⟩
  · obtain ⟨t, hexec, helem, -⟩ := vpmulldVex128Result ⟨d, s1, .reg n⟩ s _ hr ((sourceIs_reg rfl).mpr rfl)
    exact ⟨t, hexec, setWidth_eq_intrinsicMullo_both (by decide) helem⟩
  · obtain ⟨t, hexec, helem, -⟩ := vpmulldVex256Result ⟨d, s1, .reg n⟩ s _ hr ((sourceIs_reg rfl).mpr rfl)
    exact ⟨t, hexec, setWidth_eq_intrinsicMullo_both (by decide) helem⟩

/-- A register source, without broadcast, is an operand every EVEX instruction can have. -/
theorem EvexResult.exec_reg {mk : EvexOps → Instr} {vl ew : Nat} (hres : EvexResult mk vl ew)
    (hmk : ∀ o, IsEvex (mk o) o) {d s1 n : VReg} {mask : Option KReg} {z : Bool} {s : State}
    (hr : Ready (instrForm (mk ⟨d, s1, .reg n, false, mask, z⟩)) s) (hz : z = true → mask ≠ none) :
    ∃ t, exec (mk ⟨d, s1, .reg n, false, mask, z⟩) s = .next t ∧ ∀ j, j < vl / ew →
      elem ew (t.readV d) j =
        if maskOn s mask j = true then mullo (elem ew (s.readV s1) j) (elem ew (s.readV n) j)
        else if z = true then 0#ew
        else elem ew (s.readV d) j := by
  obtain ⟨t, hexec, helem, -⟩ := hres ⟨d, s1, .reg n, false, mask, z⟩ s (s.readV n) hr ⟨hz, fun _ _ => rfl⟩
    ((sourceIs_reg (hmk _).srcOf_eq).mpr rfl)
  exact ⟨t, hexec, helem⟩

/-- The three intrinsics of an EVEX form: unmasked, merging and zeroing. -/
theorem evex_intrinsics_agree {mk : EvexOps → Instr} {f : Form} {vl ew m : Nat} (hres : EvexResult mk vl ew)
    (hmk : ∀ o, IsEvex (mk o) o) (hf : ∀ o, instrForm (mk o) = f) (hew : 0 < ew) (hfill : ew * (vl / ew) = vl)
    (hm : vl / ew ≤ m) (d s1 n : VReg) (a : KReg) {s : State} (hr : Ready f s) :
    (∃ t, exec (mk ⟨d, s1, .reg n, false, none, false⟩) s = .next t ∧
      (t.readV d).setWidth vl = intrinsicMullo vl ew ((s.readV s1).setWidth vl) ((s.readV n).setWidth vl)) ∧
    (∃ t, exec (mk ⟨d, s1, .reg n, false, some a, false⟩) s = .next t ∧
      (t.readV d).setWidth vl = intrinsicMask vl ew ((s.readV d).setWidth vl) ((s.readK a).setWidth m)
        ((s.readV s1).setWidth vl) ((s.readV n).setWidth vl)) ∧
    (∃ t, exec (mk ⟨d, s1, .reg n, false, some a, true⟩) s = .next t ∧
      (t.readV d).setWidth vl = intrinsicMaskz vl ew ((s.readK a).setWidth m) ((s.readV s1).setWidth vl)
        ((s.readV n).setWidth vl)) := by
  have hready (o : EvexOps) : Ready (instrForm (mk o)) s := (hf o).symm ▸ hr
  refine ⟨?_, ?_, ?_⟩
  · obtain ⟨t, hexec, helem⟩ := hres.exec_reg (mask := none) (z := false) hmk (hready _) nofun
    exact ⟨t, hexec, setWidth_eq_intrinsicMullo hew hfill helem⟩
  · obtain ⟨t, hexec, helem⟩ := hres.exec_reg (mask := some a) (z := false) hmk (hready _) nofun
    exact ⟨t, hexec, setWidth_eq_intrinsicMask hew hfill hm helem⟩
  · obtain ⟨t, hexec, helem⟩ := hres.exec_reg (mask := some a) (z := true) hmk (hready _) fun _ => nofun
    exact ⟨t, hexec, setWidth_eq_intrinsicMaskz hew hfill hm helem⟩

/-- Settles O32, from the results of the three VPMULLD forms; the 512-bit intrinsics take the whole register. -/
theorem evexDwordIntrinsicsAgree : Obligations.EvexDwordIntrinsicsAgree := by
  intro d s1 n a s
  refine ⟨fun hr => ?_, fun hr => ?_, fun hr => ?_⟩
  · have h := evex_intrinsics_agree (m := 16) vpmulldEvex512Result (fun _ => .inr (.inr (.inl rfl))) (fun _ => rfl)
      (by decide) (by decide) (by decide) d s1 n a hr
    simp only [BitVec.setWidth_eq] at h
    exact h
  · exact (evex_intrinsics_agree (m := 8) vpmulldEvex256Result (fun _ => .inr (.inl rfl)) (fun _ => rfl) (by decide)
      (by decide) (by decide) d s1 n a hr).2
  · exact (evex_intrinsics_agree (m := 8) vpmulldEvex128Result (fun _ => .inl rfl) (fun _ => rfl) (by decide)
      (by decide) (by decide) d s1 n a hr).2

/-- Settles O33, from the results of the three VPMULLQ forms. -/
theorem qwordIntrinsicsAgree : Obligations.QwordIntrinsicsAgree := by
  intro d s1 n a s
  refine ⟨fun hr => ?_, fun hr => ?_, fun hr => ?_⟩
  · have h := evex_intrinsics_agree (m := 8) vpmullqEvex512Result (fun _ => .inr (.inr (.inr (.inr (.inr rfl)))))
      (fun _ => rfl) (by decide) (by decide) (by decide) d s1 n a hr
    simp only [BitVec.setWidth_eq] at h
    exact h
  · exact evex_intrinsics_agree (m := 8) vpmullqEvex256Result (fun _ => .inr (.inr (.inr (.inr (.inl rfl)))))
      (fun _ => rfl) (by decide) (by decide) (by decide) d s1 n a hr
  · exact evex_intrinsics_agree (m := 8) vpmullqEvex128Result (fun _ => .inr (.inr (.inr (.inl rfl))))
      (fun _ => rfl) (by decide) (by decide) (by decide) d s1 n a hr

end Sys2Proof.Machine

namespace Sys2Proof.Machine

/-! ## What a memory fault reports (R75, R114, R119, R120) -/

/-- A byte whose translation fails, and what it reports. -/
theorem pageFaultAt_eq_some_iff {c : Config} {a : Nat} {r : MemReport} :
    pageFaultAt c a = some r ↔
      ∃ b, regionAt c a = some (.pageFault b) ∧ r = .pageFault (BitVec.ofNat 64 a) (pfCode b) := by
  unfold pageFaultAt
  split
  · next b hb => simp [hb, eq_comm]
  · next hnot => exact iff_of_false nofun fun ⟨b, hb, _⟩ => hnot b hb

/-- The code bits a page fault reports: W/R and I/D clear, the others as the region says (R114). -/
theorem pfCode_bits (b : PfBits) :
    (pfCode b).getLsbD 1 = false ∧ (pfCode b).getLsbD 4 = false ∧ (pfCode b).getLsbD 0 = b.p ∧
      (pfCode b).getLsbD 2 = b.us ∧ (pfCode b).getLsbD 3 = b.rsvd ∧ (pfCode b).getLsbD 5 = b.pk := by
  obtain ⟨p, us, rsvd, pk⟩ := b
  revert p us rsvd pk
  decide

/-- What a memory fault reports, from the checked byte that fails, in the order wrap, segment, page. -/
theorem checkBytes_eq_memFault {c : Config} {seg : Segment} {ea ea' : Word} {n n' : Nat} {offs : List Nat}
    {r : MemReport} (h : checkBytes c seg ea n offs = some (.raise (.memFault ea' n' r))) :
    (ea' = ea ∧ n' = n) ∧
      ((r = .wraps ∧ ∃ j ∈ offs, 2 ^ 64 ≤ ea.toNat + j) ∨
        (r = segmentReport seg ∧ ∃ j ∈ offs, canonical (ea.toNat + j) = false) ∨
        (offs.findSome? (fun j => pageFaultAt c (ea.toNat + j)) = some r ∧
          ∀ j ∈ offs, canonical (ea.toNat + j) = true)) := by
  unfold checkBytes at h
  split at h
  · next hwrap =>
    cases h
    exact ⟨⟨rfl, rfl⟩, .inl ⟨rfl, by simpa using hwrap⟩⟩
  split at h
  · next hcanon =>
    cases h
    exact ⟨⟨rfl, rfl⟩, .inr (.inl ⟨rfl, by simpa using hcanon⟩)⟩
  next hcanon =>
  split at h
  · next r' hpage =>
    cases h
    exact ⟨⟨rfl, rfl⟩, .inr (.inr ⟨hpage, by simpa using hcanon⟩)⟩
  split at h <;> cases h

/-- What is found first in a range is found at no smaller number. -/
theorem findSome?_range_first {α : Type} {f : Nat → Option α} {n : Nat} {r : α}
    (h : (List.range n).findSome? f = some r) : ∃ j, j < n ∧ f j = some r ∧ ∀ j', j' < j → f j' = none := by
  obtain ⟨before, j, after, hsplit, hj, hnone⟩ := List.findSome?_eq_some_iff.mp h
  have hmem : j ∈ List.range n := hsplit ▸ List.mem_append_right before List.mem_cons_self
  have hlt := List.mem_range.mp hmem
  refine ⟨j, hlt, hj, fun j' hj' => hnone j' ?_⟩
  have hin : j' ∈ before ++ j :: after := hsplit ▸ List.mem_range.mpr (hj'.trans hlt)
  have hafter : j' ∉ after := fun hmem' => by
    rw [List.range_eq_range'] at hsplit
    exact absurd (List.lt_of_range'_eq_append_cons hsplit Nat.one_pos hmem') hj'.not_gt
  simpa [hj'.ne, hafter] using hin

section
variable {i : Instr} {s : State}

theorem operandOffsets_of_no_suppression (h : s.cfg.faultSuppression = false) :
    operandOffsets i s = List.range (operandBytes i) := by
  rcases isLegacy_or_isVex_or_isEvex i with ⟨o, hi⟩ | ⟨o, hi⟩ | ⟨o, hi⟩
  · exact hi.operandOffsets_eq
  · exact hi.operandOffsets_eq
  · rw [hi.operandOffsets_eq, hi.operandBytes_eq, evexOffsets, h]
    rfl

theorem takeException_eq_memFault {e : Exn} {rip ea : Word} {n : Nat} {r : MemReport}
    (h : takeException e s = .fault (.memFault rip ea n r)) : rip = s.pc ∧ e = .memFault ea n r := by
  cases e with
  | ud | nm | gp0 => cases h
  | memFault ea' n' r' => cases h; exact ⟨rfl, rfl⟩

/-- A memory fault is the operand's: the checks raise none. -/
theorem operandRead_of_exec_memFault {rip ea : Word} {n : Nat} {r : MemReport}
    (h : exec i s = .fault (.memFault rip ea n r)) :
    rip = s.pc ∧ operandRead i s = .error (.raise (.memFault ea n r)) := by
  rw [exec_eq_outcomeOf] at h
  cases hcheck : checkUdNm (instrForm i) (instrReserved i) s with
  | some e =>
    rw [hcheck] at h
    rcases checkUdNm_eq_some hcheck with rfl | rfl <;> cases h
  | none =>
    rw [hcheck] at h
    cases hread : operandRead i s with
    | ok b => rw [hread] at h; cases h
    | error st =>
      rw [hread] at h
      cases st with
      | raise e =>
        obtain ⟨hrip, rfl⟩ := takeException_eq_memFault h
        exact ⟨hrip, rfl⟩
      | refuse q => cases h

theorem checkBytes_of_operandRead {ea : Word} {n : Nat} {r : MemReport}
    (h : operandRead i s = .error (.raise (.memFault ea n r))) :
    ∃ m, srcOf i = .mem m ∧ checkBytes s.cfg (segmentOf m) (operandAddr i s m) (operandBytes i) (operandOffsets i s) =
      some (.raise (.memFault ea n r)) := by
  cases hsrc : srcOf i with
  | reg k =>
    rw [operandRead_reg hsrc] at h
    cases h
  | mem m =>
    refine ⟨m, rfl, ?_⟩
    by_cases halign : Aligned i s m
    · rw [operandRead_mem hsrc halign] at h
      exact memRead_eq_error h
    · rw [operandRead_misaligned hsrc halign] at h
      cases h

/-- A page fault is reported at a byte of the operand, and without fault suppression at the first whose translation
fails. -/
theorem exists_pageFault_byte {ea : Word} {r : MemReport}
    (h : (operandOffsets i s).findSome? (fun j => pageFaultAt s.cfg (ea.toNat + j)) = some r) :
    ∃ j b, j < operandBytes i ∧ regionAt s.cfg (ea.toNat + j) = some (.pageFault b) ∧
      r = .pageFault (BitVec.ofNat 64 (ea.toNat + j)) (pfCode b) ∧
      (s.cfg.faultSuppression = false →
        ∀ j', j' < j → ∀ b', regionAt s.cfg (ea.toNat + j') ≠ some (.pageFault b')) := by
  by_cases hfs : s.cfg.faultSuppression = false
  · rw [operandOffsets_of_no_suppression hfs] at h
    obtain ⟨j, hj, hpage, hfirst⟩ := findSome?_range_first h
    obtain ⟨b, hregion, hr⟩ := pageFaultAt_eq_some_iff.mp hpage
    refine ⟨j, b, hj, hregion, hr, fun _ j' hj' b' hregion' => ?_⟩
    have hnone := hfirst j' hj'
    rw [pageFaultAt_eq_some_iff.mpr ⟨b', hregion', rfl⟩] at hnone
    cases hnone
  · obtain ⟨j, hj, hpage⟩ := List.exists_of_findSome?_eq_some h
    obtain ⟨b, hregion, hr⟩ := pageFaultAt_eq_some_iff.mp hpage
    exact ⟨j, b, lt_of_mem_operandOffsets hj, hregion, hr, fun h => absurd h hfs⟩

end

/-- Settles O40: a memory fault comes from the check of the operand's bytes, and each report from what failed there. -/
theorem memFaultReportsTheCause : Obligations.MemFaultReportsTheCause := by
  intro i s rip ea n r h
  obtain ⟨hrip, hread⟩ := operandRead_of_exec_memFault h
  obtain ⟨m, hsrc, hcheck⟩ := checkBytes_of_operandRead hread
  obtain ⟨⟨rfl, rfl⟩, hcause⟩ := checkBytes_eq_memFault hcheck
  refine ⟨hrip, rfl, m, hsrc, rfl, ?_⟩
  rcases hcause with ⟨rfl, j, hj, hwrap⟩ | ⟨rfl, j, hj, hcanon⟩ | ⟨hpage, hcanon⟩
  · have hlt := lt_of_mem_operandOffsets hj
    show 2 ^ 64 < _
    omega
  · cases segmentOf m with
    | ss => exact ⟨rfl, j, lt_of_mem_operandOffsets hj, hcanon⟩
    | ds => exact ⟨rfl, j, lt_of_mem_operandOffsets hj, hcanon⟩
  · obtain ⟨j, b, hj, hregion, rfl, hfirst⟩ := exists_pageFault_byte hpage
    obtain ⟨hwr, hid, hp, hus, hrsvd, hpk⟩ := pfCode_bits b
    refine ⟨hwr, hid, j, b, hj, rfl, hregion, hp, hus, hrsvd, hpk, fun hfs => ⟨hfirst hfs, fun j' hj' => ?_⟩⟩
    rw [operandOffsets_of_no_suppression hfs] at hcanon
    exact hcanon j' (List.mem_range.mpr hj')

end Sys2Proof.Machine

namespace Sys2Proof.Machine

/-! ## Vector numbers and error codes (R112, R114) -/

/-- Settles O42, row by row of R114's table. -/
theorem exceptionVectorsAndCodes : Obligations.ExceptionVectorsAndCodes :=
  fun _ _ _ _ _ => ⟨⟨rfl, rfl⟩, ⟨rfl, rfl⟩, ⟨rfl, rfl⟩, ⟨rfl, rfl⟩, ⟨rfl, rfl⟩, ⟨rfl, rfl⟩⟩

/-- The vectors of R114's table are all there are. -/
theorem faultVector_mem {r : Fault} {v : Nat} (h : faultVector r = some v) : v ∈ [6, 7, 12, 13, 14] := by
  cases r with
  | ud | nm | gp0 => cases h; decide
  | memFault rip ea n report =>
    cases report with
    | stackSegment | generalProtection | pageFault => cases h; decide
    | wraps => cases h

/-- Settles O43: vector 19 is not in R114's table, and a completed instruction leaves MXCSR as it was. -/
theorem noSimdFloatingPointException : Obligations.NoSimdFloatingPointException := by
  refine ⟨fun i s r _ hvector => absurd (faultVector_mem hvector) (by decide), fun i s t h => ?_⟩
  obtain ⟨-, -, ⟨-, hmxcsr⟩, -⟩ := exec_next_untouched h
  exact hmxcsr

/-! ## Where #UD and #NM come from (R117, R118, R120) -/

/-- The checks answer #NM only when TS is set. -/
theorem taskSwitched_of_checkUdNm {f : Form} {r : Bool} {s : State} (h : checkUdNm f r s = some .nm) :
    s.cr0.getLsbD 3 = true := by
  unfold checkUdNm at h
  split at h
  · cases h
  split at h
  · next hts => exact hts
  · cases h

section
variable {i : Instr} {s : State}

/-- What can stop an operand: its alignment, a byte that is not admitted, or device memory. -/
theorem operandRead_eq_error {st : Stop} (h : operandRead i s = .error st) :
    st = .raise .gp0 ∨ (∃ ea n r, st = .raise (.memFault ea n r)) ∨ st = .refuse .deviceMemory := by
  cases hsrc : srcOf i with
  | reg n =>
    rw [operandRead_reg hsrc] at h
    cases h
  | mem m =>
    by_cases halign : Aligned i s m
    · rw [operandRead_mem hsrc halign] at h
      rcases checkBytes_eq_some (memRead_eq_error h) with ⟨r, hst⟩ | ⟨hst, -⟩
      · exact .inr (.inl ⟨_, _, r, hst⟩)
      · exact .inr (.inr hst)
    · rw [operandRead_misaligned hsrc halign] at h
      exact .inl (Except.error.inj h).symm

/-- Only the checks raise #UD and #NM: an instruction that passes them raises neither. -/
theorem exec_ne_ud_nm_of_check (h : checkUdNm (instrForm i) (instrReserved i) s = none) (r : Word) :
    exec i s ≠ .fault (.ud r) ∧ exec i s ≠ .fault (.nm r) := by
  rw [exec_eq_outcomeOf, h]
  cases hread : operandRead i s with
  | ok b => exact ⟨nofun, nofun⟩
  | error st =>
    rcases operandRead_eq_error hread with rfl | ⟨ea, n, report, rfl⟩ | rfl <;> exact ⟨nofun, nofun⟩

theorem exec_nm_of_taskSwitched (hu : Usable (instrForm i) s) (hn : InstrNotReserved i)
    (hts : s.cr0.getLsbD 3 = true) : exec i s = .fault (.nm s.pc) := by
  rw [exec_eq_outcomeOf, (instrReserved_eq_false_iff i).mpr hn, checkUdNm_ts hu hts]
  rfl

theorem taskSwitched_of_exec_nm {r : Word} (h : exec i s = .fault (.nm r)) : s.cr0.getLsbD 3 = true := by
  cases hcheck : checkUdNm (instrForm i) (instrReserved i) s with
  | none => exact absurd h (exec_ne_ud_nm_of_check hcheck r).2
  | some e =>
    rcases checkUdNm_eq_some hcheck with rfl | rfl
    · rw [exec_eq_outcomeOf, hcheck] at h
      cases h
    · exact taskSwitched_of_checkUdNm hcheck

end

/-- Settles O36: the checks come first and answer #NM when nothing but TS stops them; nothing else raises it. -/
theorem taskSwitchedRaisesNm : Obligations.TaskSwitchedRaisesNm := by
  refine ⟨fun i s hu hn hts => exec_nm_of_taskSwitched hu hn hts, fun i s r hclear h => ?_, by decide⟩
  rw [taskSwitched_of_exec_nm h] at hclear
  cases hclear

/-! ## The machine R131 prepares (R30, R131) -/

/-- What items 2 to 5 of R131 leave behind: every feature flag present, EM and TS clear, and the enabling bits of
CR4 and XCR0 set. -/
structure Prepared (s : State) : Prop where
  features : s.cfg.features = ⟨true, true, true, true, true, true⟩
  em : s.cr0.getLsbD 2 = false
  osfxsr : s.cr4.getLsbD 9 = true
  osxsave : s.cr4.getLsbD 18 = true
  xcr0Sse : s.xcr0.getLsbD 1 = true
  xcr0Avx : s.xcr0.getLsbD 2 = true
  xcr0Opmask : s.xcr0.getLsbD 5 = true
  xcr0ZmmHi256 : s.xcr0.getLsbD 6 = true
  xcr0Hi16Zmm : s.xcr0.getLsbD 7 = true
  ts : s.cr0.getLsbD 3 = false

section
variable {s : State}

theorem Prepared.hasFeatures (h : Prepared s) (f : Form) : HasFeatures f s.cfg.features := by
  rw [h.features]
  cases f <;> simp [HasFeatures]

theorem Prepared.enabledBits (h : Prepared s) (f : Form) : EnabledBits f s := by
  unfold EnabledBits
  cases formKind f with
  | legacy => exact ⟨h.em, h.osfxsr⟩
  | vex => exact ⟨h.osxsave, h.xcr0Sse, h.xcr0Avx⟩
  | evex => exact ⟨h.osxsave, h.xcr0Sse, h.xcr0Avx, h.xcr0Opmask, h.xcr0ZmmHi256, h.xcr0Hi16Zmm⟩

theorem Prepared.ready (h : Prepared s) (f : Form) : Ready f s :=
  ⟨⟨h.hasFeatures f, h.enabledBits f⟩, h.ts⟩

end

/-- Settles O52: every form is ready on a prepared machine, and an instruction that passes the checks raises neither. -/
theorem bootedMachineRaisesNoUdOrNm : Obligations.BootedMachineRaisesNoUdOrNm := by
  intro i s r hfeat hem hosfxsr hosxsave hsse havx hopmask hzmm hhi16 hts hn
  have hprepared : Prepared s := ⟨hfeat, hem, hosfxsr, hosxsave, hsse, havx, hopmask, hzmm, hhi16, hts⟩
  exact exec_ne_ud_nm_of_check
    (checkUdNm_none_iff.mpr ⟨(instrReserved_eq_false_iff i).mpr hn, hprepared.ready (instrForm i)⟩) r

end Sys2Proof.Machine

/-! The end of a run (R132): where the instruction pointer stands when every instruction of a program has completed, and the
statement about final runs. -/

namespace Sys2Proof.Machine

@[simp] theorem endAddress_nil (base : Word) : endAddress base [] = base := by
  simp [endAddress]

@[simp] theorem endAddress_cons (base : Word) (i : Instr) (is : List Instr) :
    endAddress base (i :: is) = endAddress (base + BitVec.ofNat 64 i.ilen) is := by
  simp [endAddress, BitVec.ofNat_add, BitVec.add_assoc]

/-- A program completes when its first instruction does and the rest completes from there. -/
theorem execAll_cons_eq_next_iff {i : Instr} {is : List Instr} {s t : State} :
    execAll (i :: is) s = .next t ↔ ∃ u, exec i s = .next u ∧ execAll is u = .next t := by
  cases hexec : exec i s with
  | next u => simp [execAll_cons_next hexec]
  | fault r => simp [execAll_cons_fault hexec]
  | refused r => simp [execAll_cons_refused hexec]

/-- A program that completes leaves `pc` after its last instruction, modulo 2^64 (log 26). -/
theorem execAll_next_pc {is : List Instr} {s t : State} (h : execAll is s = .next t) :
    t.pc = endAddress s.pc is := by
  induction is generalizing s with
  | nil =>
    cases h
    exact (endAddress_nil _).symm
  | cons i is ih =>
    obtain ⟨u, hexec, hrest⟩ := execAll_cons_eq_next_iff.mp h
    rw [ih hrest, exec_next_pc hexec, endAddress_cons]

/-- For a program that is laid out, to be final is to complete: `pc` is then where R132 asks for it. -/
theorem finalRun_iff_execAll {is : List Instr} {s t : State} (hne : is ≠ []) (hlaid : laidOut s.mem s.pc.toNat is) :
    FinalRun is s t ↔ execAll is s = .next t := by
  have hrun := programRunExecutesItsInstructions is s hlaid
  constructor
  · intro hfinal
    exact hrun.symm.trans hfinal.completes
  · intro hexec
    exact ⟨hne, hlaid, hrun.trans hexec, execAll_next_pc hexec⟩

/-- A laid-out program that stops in a fault or a refusal has no final run. -/
theorem not_finalRun_of_execAll_ne {is : List Instr} {s : State} (hne : is ≠ []) (hlaid : laidOut s.mem s.pc.toNat is)
    (hstop : ∀ t, execAll is s ≠ .next t) (t : State) : ¬ FinalRun is s t :=
  fun hfinal => hstop t ((finalRun_iff_execAll hne hlaid).mp hfinal)

/-- Settles O56: the run is `execAll` (O55), and only a run that completes is final. -/
theorem runIsFinalWhenEveryInstructionCompletes : Obligations.RunIsFinalWhenEveryInstructionCompletes := by
  intro is s hne hlaid
  have hrun := programRunExecutesItsInstructions is s hlaid
  refine ⟨fun t => (finalRun_iff_execAll hne hlaid).mpr, fun t => (finalRun_iff_execAll hne hlaid).mp, ?_, ?_⟩
  · intro r hfault
    exact ⟨hrun.trans hfault, not_finalRun_of_execAll_ne hne hlaid (by simp [hfault])⟩
  · intro r hrefused
    exact ⟨hrun.trans hrefused, not_finalRun_of_execAll_ne hne hlaid (by simp [hrefused])⟩

end Sys2Proof.Machine

/-! Statements about the machine's surroundings: operands in device memory (R48), the loader that places a program's bytes (R54),
and the launch state (R34). -/

namespace Sys2Proof.Machine

/-! ## Device memory (R48, U15) -/

/-- A read of which a checked byte is not admitted is refused when no checked byte can raise a memory fault: each lies below
2^64, is canonical and has a translation, so what excludes one is device memory. -/
theorem memRead_eq_deviceMemory {s : State} {seg : Segment} {ea : Word} {n : Nat} {offs : List Nat}
    (hadm : ¬ ∀ j ∈ offs, byteAdmitted s.cfg (ea.toNat + j) = true)
    (hbytes : ∀ j ∈ offs, ea.toNat + j < 2 ^ 64 ∧ canonical (ea.toNat + j) = true ∧
      ∀ code, regionAt s.cfg (ea.toNat + j) ≠ some (.pageFault code)) :
    memRead s seg ea n offs = .error (.refuse .deviceMemory) := by
  cases hcheck : checkBytes s.cfg seg ea n offs with
  | none => exact absurd (checkBytes_eq_none.mp hcheck) hadm
  | some st =>
    rcases checkBytes_eq_some hcheck with ⟨r, rfl⟩ | ⟨rfl, -⟩
    · obtain ⟨-, ⟨-, j, hj, hwrap⟩ | ⟨-, j, hj, hnot⟩ | ⟨hfind, -⟩⟩ := checkBytes_eq_memFault hcheck
      · obtain ⟨hbelow, -, -⟩ := hbytes j hj
        exact absurd hbelow hwrap.not_gt
      · obtain ⟨-, hcanon, -⟩ := hbytes j hj
        rw [hcanon] at hnot
        cases hnot
      · obtain ⟨j, hj, hfault⟩ := List.exists_of_findSome?_eq_some hfind
        obtain ⟨code, hregion, -⟩ := pageFaultAt_eq_some_iff.mp hfault
        obtain ⟨-, -, hpage⟩ := hbytes j hj
        exact absurd hregion (hpage code)
    · rw [memRead, hcheck]

/-- Settles O39: the checked bytes are bytes of the operand, and nothing but device memory excludes one of those. -/
theorem deviceOperandIsRefused : Obligations.DeviceOperandIsRefused := by
  intro i s m hr hn hsrc halign hadm hbytes
  have hread := memRead_eq_deviceMemory (seg := segmentOf m) (n := operandBytes i)
    (mt (operandOffsets_admitted_iff m).mp hadm) fun j hj => hbytes j (lt_of_mem_operandOffsets hj)
  rw [exec_of_ready hr hn, operandRead_mem hsrc halign, hread]
  rfl

/-! ## Bytes stored and fetched (R26, R54) -/

/-- Storing a run of bytes leaves every byte below it as it was. -/
theorem Memory.byte_writeBytes_of_lt {bs : List Byte} {m : Memory} {a x : Nat} (hm : m.wf = true) (hx : x < a) :
    (m.writeBytes a bs).byte x = m.byte x := by
  induction bs generalizing m a with
  | nil => rfl
  | cons b bs ih =>
    rw [Memory.writeBytes]
    split
    · next ha => rw [ih (Memory.wf_write ha hm) (by omega), Memory.byte_write x hm, if_neg hx.ne]
    · rfl

/-- A run of bytes stored below 2^64 is what is fetched from where it was stored. -/
theorem fetchBytes_writeBytes {bs : List Byte} {m : Memory} {a : Nat} (hm : m.wf = true)
    (hfit : a + bs.length ≤ 2 ^ 64) : fetchBytes (m.writeBytes a bs) a bs.length = bs := by
  induction bs generalizing m a with
  | nil => rfl
  | cons b bs ih =>
    rw [List.length_cons] at hfit
    have ha : a < 2 ^ 64 := by omega
    have hwrite : (m.write a b).wf = true := Memory.wf_write ha hm
    have hhead : ((m.write a b).writeBytes (a + 1) bs).byte a = b := by
      rw [Memory.byte_writeBytes_of_lt hwrite a.lt_succ_self, Memory.byte_write a hm, if_pos rfl]
    rw [Memory.writeBytes, if_pos ha, List.length_cons, fetchBytes, if_pos ha, hhead, ih hwrite (by omega)]

@[simp] theorem wordBytes_length (nbits w : Nat) : (wordBytes nbits w).length = maxInstrBytes := by
  simp [wordBytes]

/-- Settles O53: a word fills the fetch window, and the window lies below 2^64. -/
theorem fetchWordIsFetched : Obligations.FetchWordIsFetched := by
  intro s nbits w hm hroom
  rw [← wordBytes_length nbits w] at hroom
  have hfetch := fetchBytes_writeBytes hm hroom
  rwa [wordBytes_length] at hfetch

/-! ## The launch state (R34, logs 2 to 5 and 10) -/

@[simp] theorem State.reset_readV (n : VReg) : State.reset.readV n = 0#512 := by
  simp [State.readV, State.reset]

@[simp] theorem State.reset_readK (a : KReg) : State.reset.readK a = 0#64 := by
  simp [State.readK, State.reset]

/-- Settles O49: no byte of memory is listed, and every vector and opmask register is 0. -/
theorem resetSatisfiesInvariant : Obligations.ResetSatisfiesInvariant := by
  refine ⟨rfl, fun n i _ => ?_, fun n _ => State.reset_readV n, fun a i _ => ?_⟩
  · rw [State.reset_readV, BitVec.getLsbD_zero]
  · rw [State.reset_readK, BitVec.getLsbD_zero]

end Sys2Proof.Machine
